-- ==== Sys2Proof/Word.lean ====
section
/-! DEFINITION. The plain types of the model: bytes, byte sequences, capacities, and the notation of
`00_scope.md` R9 to R11 that needs no state. -/

namespace Sys2Proof

/-- One byte of IN or OUT, one symbol (`20_memory.md` R61). -/
abbrev Byte := BitVec 8

/-- A finite list of bytes (`00_scope.md` R11). -/
abbrev ByteSeq := List Byte

/-- A capacity or a width of the hardware: a number, or no bound at all (`00_scope.md` R8: each
parameter "may be ∞"). -/
inductive Cap where
  | unbounded
  | upTo (n : Nat)
deriving DecidableEq, Repr, Inhabited

/-- `n` does not exceed the capacity. -/
def Cap.fits : Cap → Nat → Bool
  | .upTo c, n => decide (n ≤ c)
  | .unbounded, _ => true

/-- `n` equals the capacity: nothing more goes in. No number equals ∞. -/
def Cap.isFull : Cap → Nat → Bool
  | .upTo c, n => decide (n = c)
  | .unbounded, _ => false

/-- Index `i` lies below the capacity. -/
def Cap.hasIndex : Cap → Nat → Bool
  | .upTo c, i => decide (i < c)
  | .unbounded, _ => true

/-- The capacity raised by `k`. -/
def Cap.plus : Cap → Nat → Cap
  | .upTo c, k => .upTo (c + k)
  | .unbounded, _ => .unbounded

/-- `v` is a value of a register of this many bits. -/
def Cap.holdsValue : Cap → Nat → Bool
  | .upTo bits, v => decide (v < 2 ^ bits)
  | .unbounded, _ => true

/-- `bitlen(n)`: the least `k` with `n < 2^k` (`00_scope.md` R9). -/
def bitlen (n : Nat) : Nat :=
  if n = 0 then 0 else Nat.log2 n + 1

end Sys2Proof
end

