-- ==== Sys2Proof/Config.lean ====
section
/-! DEFINITION. What is fixed for one CORE for its whole life (`10_state.md` R40): the capacities of
`00_scope.md` R8, each open (log 5); and the free values that stand for what the spec leaves unspecified:
the constants that say `opaque` have no body, so no proof can learn a value of one. -/

namespace Sys2Proof

/-- The open parameters of `00_scope.md` R8, "each a named argument of the model". -/
structure Capacities where
  /-- IN_CAP: the largest IN_LEN a command accepts, in bytes. -/
  inCap : Cap
  /-- OUT_CAP: the capacity of OUT, in bytes. -/
  outCap : Cap
  /-- DICT_CAP: the largest number of dictionary entries. -/
  dictCap : Cap
  /-- DIM_BITS: the width of ROWS and of COLS. -/
  dimBits : Cap
  /-- LEN_BITS: the width of IN_LEN and OUT_LEN. -/
  lenBits : Cap
deriving DecidableEq, Repr

namespace Capacities

/-- 2^LEN_BITS > max(IN_CAP, OUT_CAP), or ∞ (`00_scope.md` R8). -/
def lenBitsSuffice (inCap outCap : Cap) : Cap → Bool
  | .unbounded => true
  | .upTo bits =>
    match inCap, outCap with
    | .upTo a, .upTo b => decide (max a b < 2 ^ bits)
    | _, _ => false

/-- The constraints of the table of `00_scope.md` R8. -/
def WF (cfg : Capacities) : Prop :=
  (∀ c, cfg.dictCap = .upTo c → 257 ≤ c) ∧ (∀ b, cfg.dimBits = .upTo b → 1 ≤ b) ∧
    lenBitsSuffice cfg.inCap cfg.outCap cfg.lenBits = true

/-- WMAX = max(9, bitlen(DICT_CAP)), ∞ when DICT_CAP = ∞ (`00_scope.md` R8, `40_bitbuffer.md` R110). -/
def wMax (cfg : Capacities) : Cap :=
  match cfg.dictCap with
  | .upTo c => .upTo (max 9 (bitlen c))
  | .unbounded => .unbounded

/-- ACC_BITS = WMAX + 7 (`40_bitbuffer.md` R110). -/
def accBits (cfg : Capacities) : Cap := cfg.wMax.plus 7

/-- "cnt needs bitlen(WMAX + 7) bits" (`40_bitbuffer.md` R110). -/
def cntBits (cfg : Capacities) : Cap :=
  match cfg.accBits with
  | .upTo n => .upTo (bitlen n)
  | .unbounded => .unbounded

/-- Every capacity ∞: "the CORE is exactly the source's unbounded codec" (`92_eei_decisions.md` D5). -/
def infinite : Capacities := ⟨.unbounded, .unbounded, .unbounded, .unbounded, .unbounded⟩

end Capacities

namespace Config

/-- FREE VALUE (log 2): the byte of IN at an index the host has not written since the `era`-th reset. -/
opaque freeInByte (era index : Nat) : Byte

/-- FREE VALUE (log 3): the byte of OUT at an index outside the result, while the CORE is at rest; `era`
counts how often OUT has been given up. -/
opaque freeOutByte (era index : Nat) : Byte

/-- FREE VALUE (log 8): what a host read of OUT returns while BUSY = 1. -/
opaque freeOutRead (use : Nat) : Byte

/-- FREE VALUE (log 8): what a host read of a register returns while BUSY = 1. -/
opaque freeRegister (use : Nat) : Nat

/-- FREE VALUE (log 4): a hidden number register after an error; `which` tells the registers apart. -/
opaque freeNumber (which use : Nat) : Nat

/-- FREE VALUE (log 4): a hidden byte sequence after an error. -/
opaque freeSequence (which use : Nat) : ByteSeq

/-- FREE VALUE (log 4): the learned entries of the forward dictionary after an error. -/
opaque freeForward (use : Nat) : List (ByteSeq × Nat)

/-- FREE VALUE (log 4): the learned entries of the reverse dictionary after an error. -/
opaque freeReverse (use : Nat) : List (Nat × ByteSeq)

/-- FREE VALUE (log 4): the answer BB.GET last gave, after an error. -/
opaque freeAnswer (use : Nat) : Option Nat

end Config

end Sys2Proof
end

