-- ==== Sys2Proof/Syntax.lean ====
section
/-! DEFINITION. The instructions: one constructor per row of `spec/opcode_table.json`, in its order
(`30_encoding.md` R80: commands, micro-operations, and the four classes of stream code). -/

namespace Sys2Proof

inductive Instr where
  /-- NOP, command value 0x00 (`43_commands.md` R171). -/
  | nop
  /-- ENCODE, command value 0x01 (R172). -/
  | encode
  /-- DECODE, command value 0x02 (R173). -/
  | decode
  /-- RESERVED_03_03, command value 0x03 (R175). -/
  | reserved0303
  /-- RESERVED_04_07; `x` is bits 1 to 0 of the value (R175). -/
  | reserved0407 (x : BitVec 2)
  /-- RESERVED_08_0F; `x` is bits 2 to 0 of the value (R175). -/
  | reserved080F (x : BitVec 3)
  /-- RESERVED_10_1F; `x` is bits 3 to 0 of the value (R175). -/
  | reserved101F (x : BitVec 4)
  /-- RESERVED_20_3F; `x` is bits 4 to 0 of the value (R175). -/
  | reserved203F (x : BitVec 5)
  /-- RESERVED_40_7F; `x` is bits 5 to 0 of the value (R175). -/
  | reserved407F (x : BitVec 6)
  /-- RESERVED_80_FF; `x` is bits 6 to 0 of the value (R175). -/
  | reserved80FF (x : BitVec 7)
  /-- BB.CLEAR (`40_bitbuffer.md` R100). -/
  | bbClear
  /-- BB.PUT(c, w) (R102). -/
  | bbPut (c w : Nat)
  /-- BB.FLUSH (R104). -/
  | bbFlush
  /-- BB.GET(w) (R106). -/
  | bbGet (w : Nat)
  /-- ENC.INIT (`41_encoder.md` R120). -/
  | encInit
  /-- ENC.SYM (R122). -/
  | encSym
  /-- ENC.FINAL (R125). -/
  | encFinal
  /-- ENC.FLUSH (R126). -/
  | encFlush
  /-- DEC.INIT (`42_decoder.md` R140). -/
  | decInit
  /-- DEC.FIRST (R142). -/
  | decFirst
  /-- DEC.NEXT (R145). -/
  | decNext
  /-- DEC.FINISH (R155). -/
  | decFinish
  /-- LITERAL: a code below 256 read with width `w` (`30_encoding.md` R88). -/
  | literal (w : Nat) (c : Byte)
  /-- KNOWN: a code `c` of 256 or more below d_next (R88). -/
  | known (w c : Nat)
  /-- SELF: the code `c` equal to d_next (R88). -/
  | selfRef (w c : Nat)
  /-- INVALID: a code above d_next, or a first code of 256 or more (R88). -/
  | invalid (w c : Nat)
deriving DecidableEq, Repr

end Sys2Proof
end

