-- ==== Sys2Proof/Machine/State.lean ====
section
/-! DEFINITION. The state of one CORE (`10_state.md` R20), the host that drives it, and the reasons a
step can stop. STATUS has no field: it is a pure function of phase (R23), `State.status` in
Machine/Flags.lean. -/

namespace Sys2Proof.Machine

/-- The control state: which micro-operation is next (`10_state.md` R28). -/
inductive Phase where
  | idle
  | encInit
  | encSym
  | encFinal
  | encFlush
  | decInit
  | decFirst
  | decNext
  | decFinish
  | doneOk
  | doneErr
deriving DecidableEq, Repr

/-- The values of register ERR (`60_exceptions.md` R200); "Codes 6 to 255 are never written". -/
inductive ErrCode where
  | none
  | decodeCorruption
  | truncatedStream
  | sizeMismatch
  | capacityExceeded
  | illegalCommand
deriving DecidableEq, Repr

/-- The seven interface registers (`10_state.md` R21). -/
inductive Reg where
  | cmd
  | status
  | err
  | inLen
  | rows
  | cols
  | outLen
deriving DecidableEq, Repr

/-- What the host, or the world around the CORE, does next (`30_encoding.md` R94, `70_reset_and_hazards.md`
R232, R238; log 6). -/
inductive HostMove where
  /-- `x[n] <- v`: write an interface register. A write to CMD starts a command. -/
  | write (r : Reg) (v : Nat)
  /-- Write one byte of IN. -/
  | load (i : Nat) (b : Byte)
  /-- Read an interface register. -/
  | read (r : Reg)
  /-- Read one byte of OUT. -/
  | readOut (i : Nat)
  /-- Read STATUS until DONE = 1; the CORE moves meanwhile. -/
  | wait
  /-- The host does nothing; the CORE makes one step, if it has one. -/
  | pause
  /-- The reset event. -/
  | reset
deriving DecidableEq, Repr

/-- What a host read has returned (log 24). -/
inductive Seen where
  | reg (r : Reg) (v : Nat)
  | out (i : Nat) (b : Byte)
deriving DecidableEq, Repr

/-- The learned entries of the forward dictionary, newest first. The 256 single-byte sequences, which
it holds from ENC.INIT on and for good, are in the lookup (`10_state.md` R32, R33; log 11). -/
abbrev Forward := List (ByteSeq × Nat)

/-- The learned entries of the reverse dictionary, newest first; the literals are in the lookup
(`10_state.md` R35, R33; log 11). -/
abbrev Reverse := List (Nat × ByteSeq)

/-- A byte buffer: the bytes that hold a value, by rising index (log 2, log 3). -/
abbrev Memory := List Host.Cell

/-- The hidden registers, which no host access reaches (`10_state.md` R39). -/
structure Hidden where
  /-- The index into IN of the next byte not yet read (R29). -/
  ip : Nat
  /-- The accumulator of pending bits (R30). -/
  acc : Nat
  /-- The count of valid bits in `acc` (R30). -/
  cnt : Nat
  /-- e_next: the code the next sequence learned by the encoder gets (R31). -/
  eNext : Nat
  /-- e_width: the width of the next code emitted (R31). -/
  eWidth : Nat
  /-- omega: the current matched prefix (R31). -/
  omega : ByteSeq
  /-- The forward dictionary (R32). -/
  fdict : Forward
  /-- d_next: the code the next sequence learned by the decoder gets (R34). -/
  dNext : Nat
  /-- d_width: the width of the next code read (R34). -/
  dWidth : Nat
  /-- s: the sequence decoded from the previous code (R34). -/
  s : ByteSeq
  /-- The reverse dictionary (R35). -/
  rdict : Reverse
  /-- The decoder's assembled result (R36). -/
  res : ByteSeq
  /-- MODEL'S OWN: what the last BB.GET answered, a code or none (log 13). -/
  got : Option Nat
deriving DecidableEq, Repr

structure State where
  /-- The capacities this CORE is built with. They are configuration, not state (R40): no step changes
  them. They stand here so that one `exec` speaks of every CORE (log 5). -/
  cfg : Capacities
  /-- CMD, register 0 (`10_state.md` R22). -/
  cmd : BitVec 8
  /-- ERR, register 2 (R24). -/
  err : ErrCode
  /-- IN_LEN, register 3, LEN_BITS bits (R25). -/
  inLen : Nat
  /-- ROWS, register 4, DIM_BITS bits (R26). -/
  rows : Nat
  /-- COLS, register 5, DIM_BITS bits (R26). -/
  cols : Nat
  /-- OUT_LEN, register 6, LEN_BITS bits (R27). -/
  outLen : Nat
  /-- The control state (R28). -/
  phase : Phase
  /-- The hidden registers (R29 to R36). -/
  hid : Hidden
  /-- IN: the bytes the host has written (R38). -/
  inBuf : Memory
  /-- OUT: the bytes the CORE has written and the spec still gives a value (R38). -/
  outBuf : Memory
  /-- MODEL'S OWN: the host's moves still to come (log 6). -/
  host : List HostMove
  /-- MODEL'S OWN: what the host has read, newest first (log 24). -/
  seen : List Seen
  /-- MODEL'S OWN: how many resets have happened (log 2). -/
  era : Nat
  /-- MODEL'S OWN: how often the bytes of OUT have been given up, by a start, an error or a reset (log 3). -/
  outEra : Nat
  /-- MODEL'S OWN: how many free values have been used (log 4, log 8). -/
  free : Nat
deriving DecidableEq, Repr

/-- Why the machine stops. No run from reset stops so by a step of the CORE (Safety.lean). -/
inductive Fault where
  /-- A dictionary is read at a key it does not hold, or the first byte of an empty sequence is taken:
  the spec gives no value and shows that it never happens. Raised by the dictionary lookups and
  `firstByte`. Safe (log 12). -/
  | absentEntry
  /-- An index of IN or OUT that does not exist (`20_memory.md` R60). Raised by `inByte`, `storeOut` and
  the host's accesses to the buffers. Safe (log 10). -/
  | noSuchByte
deriving DecidableEq, Repr

/-- Why the model gives a move no meaning. -/
inductive Refusal where
  /-- An instruction without a meaning yet: no arm of exec answers it. Safe. -/
  | notModelled (mnemonic : String)
  /-- The host writes IN, IN_LEN, ROWS or COLS while BUSY = 1: "A model gives the host no such move"
  (`70_reset_and_hazards.md` R239). Raised by the host's port. Safe (log 7). -/
  | busyWrite
  /-- The host writes a value wider than the register. Raised by the host's port. Safe (log 9). -/
  | valueTooWide
deriving DecidableEq, Repr

/-- The hidden registers after reset: the spec gives no value; the model names these (log 1). -/
def Hidden.reset : Hidden where
  ip := 0
  acc := 0
  cnt := 0
  eNext := 256
  eWidth := 9
  omega := []
  fdict := []
  dNext := 256
  dWidth := 9
  s := []
  rdict := []
  res := []
  got := none

/-- After reset (`10_state.md` R42), for a CORE of any capacities: the interface registers hold 0, phase is
IDLE; no byte of IN or OUT has a value. -/
def State.resetOf (cfg : Capacities) : State where
  cfg := cfg
  cmd := 0
  err := .none
  inLen := 0
  rows := 0
  cols := 0
  outLen := 0
  phase := .idle
  hid := Hidden.reset
  inBuf := []
  outBuf := []
  host := []
  seen := []
  era := 0
  outEra := 0
  free := 0

/-- After reset, for the CORE of unbounded capacities, "exactly the source's unbounded codec"
(`92_eei_decisions.md` D5; log 5). -/
def State.reset : State := State.resetOf Capacities.infinite

end Sys2Proof.Machine
end

