-- ==== Sys2Proof/Machine/Flags.lean ====
section
/-! DEFINITION. STATUS and its three flags, "nothing else is a flag" (`10_state.md` R23, R37), and the
numbers and widths of the registers. -/

namespace Sys2Proof.Machine

/-- BUSY: a command runs (`10_state.md` R23). -/
def Phase.busy : Phase → Bool
  | .idle => false
  | .encInit => true
  | .encSym => true
  | .encFinal => true
  | .encFlush => true
  | .decInit => true
  | .decFirst => true
  | .decNext => true
  | .decFinish => true
  | .doneOk => false
  | .doneErr => false

/-- DONE: the last command has ended (`10_state.md` R23). -/
def Phase.done : Phase → Bool
  | .idle => false
  | .encInit => false
  | .encSym => false
  | .encFinal => false
  | .encFlush => false
  | .decInit => false
  | .decFirst => false
  | .decNext => false
  | .decFinish => false
  | .doneOk => true
  | .doneErr => true

/-- ERRF: it ended with an error (`10_state.md` R23). -/
def Phase.errf (p : Phase) : Bool := decide (p = .doneErr)

/-- STATUS: bit 0 BUSY, bit 1 DONE, bit 2 ERRF, bits 7 to 3 zero (`10_state.md` R23). -/
def State.status (s : State) : BitVec 8 :=
  BitVec.append 0#5
    (BitVec.append (BitVec.ofBool s.phase.errf)
      (BitVec.append (BitVec.ofBool s.phase.done) (BitVec.ofBool s.phase.busy)))

/-- The number in ERR (`60_exceptions.md` R200). -/
def ErrCode.value : ErrCode → BitVec 8
  | .none => 0
  | .decodeCorruption => 1
  | .truncatedStream => 2
  | .sizeMismatch => 3
  | .capacityExceeded => 4
  | .illegalCommand => 5

/-- The register numbers (`10_state.md` R21). -/
def Reg.number : Reg → Nat
  | .cmd => 0
  | .status => 1
  | .err => 2
  | .inLen => 3
  | .rows => 4
  | .cols => 5
  | .outLen => 6

/-- The register of a number (`10_state.md` R21); no other number is a register. -/
def Reg.ofNumber : Nat → Option Reg
  | 0 => some .cmd
  | 1 => some .status
  | 2 => some .err
  | 3 => some .inLen
  | 4 => some .rows
  | 5 => some .cols
  | 6 => some .outLen
  | _ => none

/-- The byte offset from REG_BASE in a memory-mapped binding (`20_memory.md` R71). -/
def Reg.offset (r : Reg) : Nat := 4 * r.number

end Sys2Proof.Machine
end

