-- ==== Sys2Proof/WellFormed.lean ====
section
/-! DEFINITION. Which terms of `Instr` are instructions of a CORE with the capacities `cfg`. The operands
of the commands are bounded by their types; the widths and code values of the others are checked here. -/

namespace Sys2Proof

/-- 9 ≤ w ≤ WMAX (`30_encoding.md` R80, `40_bitbuffer.md` R102, R106). -/
def widthOk (cfg : Capacities) (w : Nat) : Bool := decide (9 ≤ w) && cfg.wMax.fits w

/-- A code value of 256 or more that a field of `w` bits carries (`30_encoding.md` R84, R88). -/
def sequenceCodeOk (cfg : Capacities) (w c : Nat) : Bool :=
  widthOk cfg w && decide (256 ≤ c) && decide (c < 2 ^ w)

def Instr.wf (cfg : Capacities) : Instr → Bool
  | .nop => true
  | .encode => true
  | .decode => true
  | .reserved0303 => true
  | .reserved0407 _ => true
  | .reserved080F _ => true
  | .reserved101F _ => true
  | .reserved203F _ => true
  | .reserved407F _ => true
  | .reserved80FF _ => true
  | .bbClear => true
  | .bbPut c w => widthOk cfg w && decide (c < 2 ^ w)
  | .bbFlush => true
  | .bbGet w => widthOk cfg w
  | .encInit => true
  | .encSym => true
  | .encFinal => true
  | .encFlush => true
  | .decInit => true
  | .decFirst => true
  | .decNext => true
  | .decFinish => true
  | .literal w _ => widthOk cfg w
  | .known w c => sequenceCodeOk cfg w c
  | .selfRef w c => sequenceCodeOk cfg w c
  | .invalid w c => sequenceCodeOk cfg w c

end Sys2Proof
end

