-- ==== Sys2Proof/Decode.lean ====
section
/-! DEFINITION. The decoder and the encoder. Two things have a binary form (`30_encoding.md` R80): a
command, one byte, and a code of the packed stream, a field of `w` bits whose width and class come from
the decoder's state and not from the bits (R88, R93). Micro-operations have none. -/

namespace Sys2Proof

/-- `lowbits(v, n)`: the `n` least significant bits (`00_scope.md` R9). -/
def lowbits (v n : Nat) : Nat := v % 2 ^ n

/-- The low byte of a number. -/
def lowByte (v : Nat) : Byte := BitVec.ofNat 8 v

/-- `n` bytes of a number, the least significant first: a field at stream position 0 (`20_memory.md` R64). -/
def leBytes : Nat → Nat → List Byte
  | 0, _ => []
  | n + 1, v => lowByte v :: leBytes n (v >>> 8)

/-- Stream bit `p` is bit p mod 8 of byte p div 8 (`20_memory.md` R62); a bit past the end reads 0 here,
and no caller asks for one. -/
def streamBit (bytes : List Byte) (p : Nat) : Bool := (bytes.getD (p / 8) 0).getLsbD (p % 8)

/-- The code of width `w` at stream position `p`: bit i of the code is stream bit p + i
(`20_memory.md` R63, `30_encoding.md` R92). -/
def codeAt (bytes : List Byte) : Nat → Nat → Nat
  | _, 0 => 0
  | p, w + 1 => (streamBit bytes p).toNat + 2 * codeAt bytes (p + 1) w

/-! ## Commands -/

/-- The command a value written to CMD names (`30_encoding.md` R81, and the rows of the opcode table
that tile the reserved values). The row is found by the highest bit that is set. -/
def decodeCmd (v : Byte) : Instr :=
  if v.getLsbD 7 then .reserved80FF (v.extractLsb' 0 7)
  else if v.getLsbD 6 then .reserved407F (v.extractLsb' 0 6)
  else if v.getLsbD 5 then .reserved203F (v.extractLsb' 0 5)
  else if v.getLsbD 4 then .reserved101F (v.extractLsb' 0 4)
  else if v.getLsbD 3 then .reserved080F (v.extractLsb' 0 3)
  else if v.getLsbD 2 then .reserved0407 (v.extractLsb' 0 2)
  else if v = 0x03 then .reserved0303
  else if v = 0x02 then .decode
  else if v = 0x01 then .encode
  else .nop

/-! ## Codes -/

/-- The four classes of `30_encoding.md` R88. -/
inductive CodeClass where
  | literal
  | known
  | selfRef
  | invalid
deriving DecidableEq, Repr

/-- The class of code `c`, by comparing it with 256 and with d_next (R88). `first` says that it is the
first code of a stream, for which only LITERAL is legal (`42_decoder.md` R143). -/
def classOf (first : Bool) (dNext c : Nat) : CodeClass :=
  if c < 256 then .literal
  else if first then .invalid
  else if c < dNext then .known
  else if c = dNext then .selfRef
  else .invalid

/-- The instruction code `c` of width `w` is for a decoder in this state. -/
def decodeCode (w : Nat) (first : Bool) (dNext c : Nat) : Instr :=
  match classOf first dNext c with
  | .literal => .literal w (lowByte c)
  | .known => .known w c
  | .selfRef => .selfRef w c
  | .invalid => .invalid w c

/-! ## Bytes -/

/-- What the reader of some bytes knows before it reads them. -/
inductive DecodeContext where
  /-- The byte was written to CMD. -/
  | command
  /-- The bytes hold, from bit 0 on, the next code of a stream: its width, whether it is the first,
  and d_next (`30_encoding.md` R93). -/
  | code (w : Nat) (first : Bool) (dNext : Nat)
deriving DecidableEq, Repr

/-- Why bytes are no instruction. -/
inductive DecodeError where
  /-- CMD takes exactly one byte (`30_encoding.md` R81). -/
  | notOneByte
  /-- No code is narrower than 9 bits (`30_encoding.md` R80). -/
  | widthBelowNine
  /-- Fewer bits than one code: the end of the stream (`40_bitbuffer.md` R107). -/
  | endOfStream
deriving DecidableEq, Repr

/-- The decoder: total on any bytes. -/
def decode : DecodeContext → List Byte → Except DecodeError Instr
  | .command, [v] => .ok (decodeCmd v)
  | .command, _ => .error .notOneByte
  | .code w first dNext, bytes =>
    if w < 9 then .error .widthBelowNine
    else if 8 * bytes.length < w then .error .endOfStream
    else .ok (decodeCode w first dNext (codeAt bytes 0 w))

/-! ## The encoder -/

/-- The bytes of an instruction: one for a command, the field at stream position 0 padded with zero
bits for a code (`20_memory.md` R64, R65), none for a micro-operation (`30_encoding.md` R80). -/
def encode : Instr → Option (List Byte)
  | .nop => some [0x00]
  | .encode => some [0x01]
  | .decode => some [0x02]
  | .reserved0303 => some [0x03]
  | .reserved0407 x => some [BitVec.append 1#6 x]
  | .reserved080F x => some [BitVec.append 1#5 x]
  | .reserved101F x => some [BitVec.append 1#4 x]
  | .reserved203F x => some [BitVec.append 1#3 x]
  | .reserved407F x => some [BitVec.append 1#2 x]
  | .reserved80FF x => some [BitVec.append 1#1 x]
  | .bbClear => none
  | .bbPut _ _ => none
  | .bbFlush => none
  | .bbGet _ => none
  | .encInit => none
  | .encSym => none
  | .encFinal => none
  | .encFlush => none
  | .decInit => none
  | .decFirst => none
  | .decNext => none
  | .decFinish => none
  | .literal w c => some (leBytes ((w + 7) / 8) c.toNat)
  | .known w c => some (leBytes ((w + 7) / 8) c)
  | .selfRef w c => some (leBytes ((w + 7) / 8) c)
  | .invalid w c => some (leBytes ((w + 7) / 8) c)

/-- In which context the bytes of `i` are read back as `i`: a command by the write to CMD; a code by a
decoder whose state puts it in that class; a micro-operation in none. -/
def readIn : Instr → DecodeContext → Prop
  | .nop, x => x = .command
  | .encode, x => x = .command
  | .decode, x => x = .command
  | .reserved0303, x => x = .command
  | .reserved0407 _, x => x = .command
  | .reserved080F _, x => x = .command
  | .reserved101F _, x => x = .command
  | .reserved203F _, x => x = .command
  | .reserved407F _, x => x = .command
  | .reserved80FF _, x => x = .command
  | .bbClear, _ => False
  | .bbPut _ _, _ => False
  | .bbFlush, _ => False
  | .bbGet _, _ => False
  | .encInit, _ => False
  | .encSym, _ => False
  | .encFinal, _ => False
  | .encFlush, _ => False
  | .decInit, _ => False
  | .decFirst, _ => False
  | .decNext, _ => False
  | .decFinish, _ => False
  | .literal w _, x => ∃ first dNext, x = .code w first dNext
  | .known w c, x => ∃ dNext, c < dNext ∧ x = .code w false dNext
  | .selfRef w c, x => x = .code w false c
  | .invalid w c, x => ∃ first dNext, (first = true ∨ dNext < c) ∧ x = .code w first dNext

/-! ## The opcode table's words -/

/-- In which state a code of the opcode table is read: as the third code of a stream, where all four
classes can occur (log 16). -/
def tableContext : DecodeContext := .code 9 false 257

/-- The instruction the decoder reads from a table word of `nbits` bits: up to eight bits a command,
more a code of width 9, the width the table shows. -/
def decodeTableWord (nbits w : Nat) : Option Instr :=
  if nbits = 0 then none
  else
    match decode (if nbits ≤ 8 then .command else tableContext) (leBytes ((nbits + 7) / 8) w) with
    | .ok i => some i
    | .error _ => none

end Sys2Proof
end

