-- ==== Sys2Proof/Machine/Ops.lean ====
section
/-! DEFINITION. The named operations the meanings are written over: the byte buffers, a run of one
micro-operation, raising an error (`60_exceptions.md` R206) and leaving it (R212). -/

namespace Sys2Proof.Machine

/-! ## Byte buffers -/

/-- The byte at an index, none where the buffer holds no value there. -/
def Memory.read : Memory → Nat → Option Byte
  | [], _ => none
  | (a, b) :: m, i => if a = i then some b else Memory.read m i

/-- Stores a byte, keeping the indexes strictly rising. -/
def Memory.write : Memory → Nat → Byte → Memory
  | [], i, b => [(i, b)]
  | (a, x) :: m, i, b =>
    if i < a then (i, b) :: (a, x) :: m
    else if i = a then (i, b) :: m
    else (a, x) :: Memory.write m i b

/-- The canonical form: the indexes rise strictly. An index that is not listed holds no value, so no
listed byte equals what an unlisted index reads as. -/
abbrev Memory.wf (m : Memory) : Prop := (m.map Prod.fst).Pairwise (· < ·)

/-! ## The run of a micro-operation -/

/-- Why the pseudocode of a micro-operation stops before its end. -/
inductive Stop where
  /-- `raise E` (`60_exceptions.md` R206): the command ends with an error. -/
  | raise (e : ErrCode)
  /-- The machine stops with a fault. -/
  | fault (f : Fault)
deriving DecidableEq, Repr

/-- A piece of pseudocode: it goes on with a value, or stops. -/
abbrev Run (α : Type) := Except Stop α

/-- `if b: raise e`. -/
def raiseIf (b : Bool) (e : ErrCode) : Run Unit := if b then .error (.raise e) else .ok ()

/-- A value the spec shows to be there. -/
def present {α : Type} : Option α → Run α
  | some a => .ok a
  | none => .error (.fault .absentEntry)

/-- `q[0]`, "defined only when len(q) ≥ 1" (`00_scope.md` R11). -/
def firstByte (q : ByteSeq) : Run Byte := present q.head?

/-! ## Errors: entry and return -/

/-- A free value cut to the width of a register. -/
def cutTo : Cap → Nat → Nat
  | .upTo bits, v => lowbits v bits
  | .unbounded, v => v

/-- A free value brought between a register's least and greatest value. -/
def between (lo : Nat) : Cap → Nat → Nat
  | .upTo hi, v => lo + v % (hi + 1 - lo)
  | .unbounded, v => lo + v

/-- The hidden registers after an error: "Unspecified and unreachable" (`60_exceptions.md` R208; log 4), each
a value the register can hold (`10_state.md` R29, R30, R31, R34; `40_bitbuffer.md` R110). -/
def freeHidden (cfg : Capacities) (use : Nat) : Hidden where
  ip := cutTo cfg.lenBits (Config.freeNumber 0 use)
  acc := cutTo cfg.accBits (Config.freeNumber 1 use)
  cnt := between 0 cfg.accBits (Config.freeNumber 2 use)
  eNext := between 256 cfg.dictCap (Config.freeNumber 3 use)
  eWidth := between 9 cfg.wMax (Config.freeNumber 4 use)
  omega := Config.freeSequence 0 use
  fdict := Config.freeForward use
  dNext := between 256 cfg.dictCap (Config.freeNumber 5 use)
  dWidth := between 9 cfg.wMax (Config.freeNumber 6 use)
  s := Config.freeSequence 1 use
  rdict := Config.freeReverse use
  res := Config.freeSequence 2 use
  got := Config.freeAnswer use

/-- `raise E` (`60_exceptions.md` R206): ERR takes the code, OUT_LEN is 0, phase is DONE_ERR. CMD, IN,
IN_LEN, ROWS and COLS keep their values; OUT and the hidden registers are unspecified (R208): no byte of
OUT holds a value and the hidden registers are free (log 3, log 4). -/
def raiseError (e : ErrCode) (s : State) : State :=
  { s with
    err := e
    outLen := 0
    phase := .doneErr
    hid := freeHidden s.cfg s.free
    outBuf := []
    outEra := s.outEra + 1
    free := s.free + 1 }

/-- How a micro-operation that began in `s₀` ends. -/
def conclude (s₀ : State) : Run State → Host.Outcome State Fault Refusal
  | .ok s => .next s
  | .error (.raise e) => .next (raiseError e s₀)
  | .error (.fault f) => .fault f

/-- The start of ENCODE or DECODE, which is also the only way but reset out of an error
(`43_commands.md` R172, R173; `60_exceptions.md` R212): ERR and OUT_LEN are set anew and phase is the
command's first. From here to DONE_OK no byte of OUT is a result (`70_reset_and_hazards.md` R240, log 3). -/
def startCommand (p : Phase) (s : State) : State :=
  { s with
    err := .none
    outLen := 0
    phase := p
    outBuf := []
    outEra := s.outEra + 1 }

/-! ## Accesses to IN and OUT -/

/-- What IN holds at an index: the byte the host has written there, else a free value, the same until the
next reset (log 2). -/
def State.inValue (s : State) (i : Nat) : Byte :=
  (Memory.read s.inBuf i).getD (Config.freeInByte s.era i)

/-- `MemRead(IN + i, 1)` (`00_scope.md` R12). -/
def inByte (i : Nat) (s : State) : Run Byte :=
  if s.cfg.inCap.hasIndex i then .ok (s.inValue i) else .error (.fault .noSuchByte)

/-- `MemWrite(OUT + i, 1, b)` (`00_scope.md` R12). -/
def storeOut (i : Nat) (b : Byte) (s : State) : Run State :=
  if s.cfg.outCap.hasIndex i then .ok { s with outBuf := Memory.write s.outBuf i b }
  else .error (.fault .noSuchByte)

/-- out_byte(b): one byte at the end of OUT (`40_bitbuffer.md` R103). -/
def outByte (b : Byte) (s : State) : Run State := do
  raiseIf (s.cfg.outCap.isFull s.outLen) .capacityExceeded
  let t ← storeOut s.outLen b s
  .ok { t with outLen := t.outLen + 1 }

end Sys2Proof.Machine
end

