-- ==== Sys2Proof/Machine/Operands.lean ====
section
/-! DEFINITION. The operands of the micro-operations: the product of the extents, the lookups in the two
dictionaries (`10_state.md` R32, R35), the two rules that grow a width (`92_eei_decisions.md` D16), and
the predicates of `10_state.md` R37. -/

namespace Sys2Proof.Machine

/-- NEED = ROWS · COLS, an exact product (`10_state.md` R26). -/
def State.need (s : State) : Nat := s.rows * s.cols

/-- `fdict[q]`: the code of a sequence, none where `q` is no key. A single byte is its own code
(`10_state.md` R32). -/
def Forward.code? (d : Forward) (q : ByteSeq) : Option Nat :=
  match d.lookup q with
  | some c => some c
  | none =>
    match q with
    | [b] => some b.toNat
    | _ => none

/-- `rdict[c]`: the sequence of a code, none where `c` is not present. A code below 256 is the one-byte
sequence of itself (`10_state.md` R35). -/
def Reverse.seq? (d : Reverse) (c : Nat) : Option ByteSeq :=
  match d.lookup c with
  | some q => some q
  | none => if c < 256 then some [lowByte c] else none

/-- hit: omega ++ [k] is a key of fdict (`10_state.md` R37). -/
def Hidden.hit (h : Hidden) (k : Byte) : Bool := (Forward.code? h.fdict (h.omega ++ [k])).isSome

/-- omega_empty (`10_state.md` R37). -/
def Hidden.omegaEmpty (h : Hidden) : Bool := h.omega.isEmpty

/-- eos: the last BB.GET answered none (`10_state.md` R37). -/
def Hidden.eos (h : Hidden) : Bool := h.got.isNone

/-- The encoder's width after an insertion has made e_next `n`: it grows when `n` exceeds its capacity
(`41_encoder.md` R123). -/
def grownEncWidth (n w : Nat) : Nat := if 2 ^ w < n then w + 1 else w

/-- The decoder's width after an insertion has made d_next `n`: it grows when `n` reaches its capacity
(`42_decoder.md` R153). -/
def grownDecWidth (n w : Nat) : Nat := if 2 ^ w ≤ n then w + 1 else w

/-- The micro-operation a phase names, "the next and only enabled step of the CORE" (`10_state.md` R28). -/
def microOp : Phase → Option Instr
  | .idle => none
  | .encInit => some .encInit
  | .encSym => some .encSym
  | .encFinal => some .encFinal
  | .encFlush => some .encFlush
  | .decInit => some .decInit
  | .decFirst => some .decFirst
  | .decNext => some .decNext
  | .decFinish => some .decFinish
  | .doneOk => none
  | .doneErr => none

/-- The width of a register (`10_state.md` R21). -/
def Reg.width (cfg : Capacities) : Reg → Cap
  | .cmd => .upTo 8
  | .status => .upTo 8
  | .err => .upTo 8
  | .inLen => cfg.lenBits
  | .rows => cfg.dimBits
  | .cols => cfg.dimBits
  | .outLen => cfg.lenBits

end Sys2Proof.Machine
end

