-- ==== Sys2Proof/Machine/Commands.lean ====
section
/-! DEFINITION. The commands: a host write of the value to CMD (`43_commands.md` R170 to R175). -/

namespace Sys2Proof.Machine

/-- The write to CMD (`43_commands.md` R170): dropped while BUSY = 1, else CMD takes the value and the
command acts. -/
def acceptCmd (v : BitVec 8) (act : State → State) (s : State) : Host.Outcome State Fault Refusal :=
  if s.phase.busy then .next s else .next (act { s with cmd := v })

/-- NOP: "no action beyond CMD <- 0x00" (`43_commands.md` R171). -/
def execNop (s : State) : Host.Outcome State Fault Refusal := acceptCmd 0x00 id s

/-- ENCODE (`43_commands.md` R172). -/
def execEncode (s : State) : Host.Outcome State Fault Refusal :=
  acceptCmd 0x01 (startCommand .encInit) s

/-- DECODE (`43_commands.md` R173). -/
def execDecode (s : State) : Host.Outcome State Fault Refusal :=
  acceptCmd 0x02 (startCommand .decInit) s

/-- A reserved value ends at once in DONE_ERR with IllegalCommand and "changes nothing else"
(`30_encoding.md` R82, `43_commands.md` R175): no unit runs and no buffer is touched (log 17). -/
def illegalCommand (s : State) : State :=
  { s with err := .illegalCommand, outLen := 0, phase := .doneErr }

/-- RESERVED_03_03 (`43_commands.md` R175). -/
def execReserved0303 (s : State) : Host.Outcome State Fault Refusal :=
  acceptCmd 0x03 illegalCommand s

/-- RESERVED_04_07 (`43_commands.md` R175). -/
def execReserved0407 (x : BitVec 2) (s : State) : Host.Outcome State Fault Refusal :=
  acceptCmd (BitVec.append 1#6 x) illegalCommand s

/-- RESERVED_08_0F (`43_commands.md` R175). -/
def execReserved080F (x : BitVec 3) (s : State) : Host.Outcome State Fault Refusal :=
  acceptCmd (BitVec.append 1#5 x) illegalCommand s

/-- RESERVED_10_1F (`43_commands.md` R175). -/
def execReserved101F (x : BitVec 4) (s : State) : Host.Outcome State Fault Refusal :=
  acceptCmd (BitVec.append 1#4 x) illegalCommand s

/-- RESERVED_20_3F (`43_commands.md` R175). -/
def execReserved203F (x : BitVec 5) (s : State) : Host.Outcome State Fault Refusal :=
  acceptCmd (BitVec.append 1#3 x) illegalCommand s

/-- RESERVED_40_7F (`43_commands.md` R175). -/
def execReserved407F (x : BitVec 6) (s : State) : Host.Outcome State Fault Refusal :=
  acceptCmd (BitVec.append 1#2 x) illegalCommand s

/-- RESERVED_80_FF (`43_commands.md` R175). -/
def execReserved80FF (x : BitVec 7) (s : State) : Host.Outcome State Fault Refusal :=
  acceptCmd (BitVec.append 1#1 x) illegalCommand s

end Sys2Proof.Machine
end

