-- ==== Sys2Proof/Machine/BitBuffer.lean ====
section
/-! DEFINITION. The shared bit buffer: BB.CLEAR, BB.PUT, BB.FLUSH, BB.GET (`40_bitbuffer.md`). A `while`
of the pseudocode is a loop over the number of its turns, which the count of bits fixes (log 22). -/

namespace Sys2Proof.Machine

/-- BB.CLEAR (`40_bitbuffer.md` R100). -/
def bbClear (s : State) : State := { s with hid := { s.hid with acc := 0, cnt := 0 } }

/-- `n` turns of the loop of BB.PUT and BB.FLUSH: the low byte of acc goes to OUT
(`40_bitbuffer.md` R102, R104; `cnt - 8` stops at 0). -/
def drain : Nat → State → Run State
  | 0, s => .ok s
  | n + 1, s => do
    let t ← outByte (lowByte s.hid.acc) s
    drain n { t with hid := { t.hid with acc := t.hid.acc >>> 8, cnt := t.hid.cnt - 8 } }

/-- BB.PUT(c, w) (`40_bitbuffer.md` R102): `while cnt >= 8` makes cnt div 8 turns. -/
def bbPut (c w : Nat) (s : State) : Run State :=
  drain ((s.hid.cnt + w) / 8)
    { s with hid := { s.hid with acc := s.hid.acc ||| (c <<< s.hid.cnt), cnt := s.hid.cnt + w } }

/-- BB.FLUSH (`40_bitbuffer.md` R104): `while cnt > 0` makes ceil(cnt / 8) turns. -/
def bbFlush (s : State) : Run State := drain ((s.hid.cnt + 7) / 8) s

/-- At most `n` turns of the loop of BB.GET: while fewer than `w` bits are buffered and IN holds a
further byte, that byte goes above the pending bits (`40_bitbuffer.md` R106). -/
def fill (w : Nat) : Nat → State → Run State
  | 0, s => .ok s
  | n + 1, s =>
    if w ≤ s.hid.cnt then .ok s
    else if s.inLen ≤ s.hid.ip then .ok s
    else do
      let b ← inByte s.hid.ip s
      fill w n
        { s with
          hid := { s.hid with
            acc := s.hid.acc ||| (b.toNat <<< s.hid.cnt)
            cnt := s.hid.cnt + 8
            ip := s.hid.ip + 1 } }

/-- What BB.GET does once the bits are there or IN is exhausted (`40_bitbuffer.md` R106, R107). -/
def takeCode (w : Nat) (s : State) : State :=
  if s.hid.cnt < w then { s with hid := { s.hid with got := none } }
  else
    { s with
      hid := { s.hid with
        got := some (lowbits s.hid.acc w)
        acc := s.hid.acc >>> w
        cnt := s.hid.cnt - w } }

/-- BB.GET(w) (`40_bitbuffer.md` R106): the loop makes at most ceil((w - cnt) / 8) turns. The answer is in
`got` (log 13). -/
def bbGet (w : Nat) (s : State) : Run State := do
  let t ← fill w ((w - s.hid.cnt + 7) / 8) s
  .ok (takeCode w t)

/-- The instruction BB.CLEAR. -/
def execBbClear (s : State) : Host.Outcome State Fault Refusal := .next (bbClear s)

/-- The instruction BB.PUT. -/
def execBbPut (c w : Nat) (s : State) : Host.Outcome State Fault Refusal :=
  conclude s (bbPut c w s)

/-- The instruction BB.FLUSH. -/
def execBbFlush (s : State) : Host.Outcome State Fault Refusal := conclude s (bbFlush s)

/-- The instruction BB.GET. -/
def execBbGet (w : Nat) (s : State) : Host.Outcome State Fault Refusal :=
  conclude s (bbGet w s)

end Sys2Proof.Machine
end

