-- ==== Sys2Proof/Machine/Codes.lean ====
section
/-! DEFINITION. The four classes of stream code (`30_encoding.md` R88): what the decoder does with a code
it has read. `first` says that the code is the first of its stream (`42_decoder.md` R142, R143); else it is
a later one (R145). For the instructions LITERAL, KNOWN, SELF and INVALID phase says which (log 15). -/

namespace Sys2Proof.Machine

/-- The literal arm of DEC.FIRST (`42_decoder.md` R142): no insertion follows the first code. -/
def startSequence (entry : ByteSeq) (s : State) : State :=
  { s with hid := { s.hid with s := entry, res := s.hid.res ++ entry }, phase := .decNext }

/-- The insertion of DEC.NEXT (`42_decoder.md` R145, R152): `s ++ [entry[0]]` under d_next, where the
dictionary has not reached the width's capacity. -/
def insertEntry (entry : ByteSeq) (s : State) : Run State :=
  if s.hid.dNext < 2 ^ s.hid.dWidth then do
    raiseIf (s.cfg.dictCap.isFull s.hid.dNext) .capacityExceeded
    let k ← firstByte entry
    .ok { s with
      hid := { s.hid with
        rdict := (s.hid.dNext, s.hid.s ++ [k]) :: s.hid.rdict
        dNext := s.hid.dNext + 1 } }
  else .ok s

/-- The lines of DEC.NEXT after the entry is known (`42_decoder.md` R145): append, insert, widen, and the
entry is the new previous sequence. -/
def processEntry (entry : ByteSeq) (s : State) : Run State := do
  let t ← insertEntry entry { s with hid := { s.hid with res := s.hid.res ++ entry } }
  .ok { t with
    hid := { t.hid with dWidth := grownDecWidth t.hid.dNext t.hid.dWidth, s := entry }
    phase := .decNext }

/-- LITERAL (`42_decoder.md` R142, R148): the entry is the byte itself, `rdict[c]`. -/
def literalCode (first : Bool) (c : Nat) (s : State) : Run State := do
  let entry ← present (Reverse.seq? s.hid.rdict c)
  if first then .ok (startSequence entry s) else processEntry entry s

/-- KNOWN (`42_decoder.md` R148): the entry is `rdict[c]`. A first code is never KNOWN; one of 256 or more
raises DecodeCorruption (R143). -/
def knownCode (first : Bool) (c : Nat) (s : State) : Run State :=
  if first then .error (.raise .decodeCorruption)
  else do
    let entry ← present (Reverse.seq? s.hid.rdict c)
    processEntry entry s

/-- SELF (`42_decoder.md` R149): the entry is `s ++ [s[0]]`. As a first code it raises DecodeCorruption
(R143). -/
def selfCode (first : Bool) (s : State) : Run State :=
  if first then .error (.raise .decodeCorruption)
  else do
    let k ← firstByte s.hid.s
    processEntry (s.hid.s ++ [k]) s

/-- INVALID (`42_decoder.md` R150): DecodeCorruption at once. -/
def invalidCode : Run State := .error (.raise .decodeCorruption)

/-- What a code of a class does. -/
def classCode (k : CodeClass) (first : Bool) (c : Nat) (s : State) : Run State :=
  match k with
  | .literal => literalCode first c s
  | .known => knownCode first c s
  | .selfRef => selfCode first s
  | .invalid => invalidCode

/-- The code being processed is the first of its stream: phase is DEC_FIRST (`42_decoder.md` R142). -/
def State.atFirstCode (s : State) : Bool := decide (s.phase = .decFirst)

/-- The instruction LITERAL. Its width has been used by BB.GET. -/
def execLiteral (c : Byte) (s : State) : Host.Outcome State Fault Refusal :=
  conclude s (literalCode s.atFirstCode c.toNat s)

/-- The instruction KNOWN. -/
def execKnown (c : Nat) (s : State) : Host.Outcome State Fault Refusal :=
  conclude s (knownCode s.atFirstCode c s)

/-- The instruction SELF. -/
def execSelfRef (s : State) : Host.Outcome State Fault Refusal :=
  conclude s (selfCode s.atFirstCode s)

/-- The instruction INVALID. -/
def execInvalid (s : State) : Host.Outcome State Fault Refusal := conclude s invalidCode

end Sys2Proof.Machine
end

