-- ==== Sys2Proof/Machine/Decoder.lean ====
section
/-! DEFINITION. The decoder: DEC.INIT, DEC.FIRST, DEC.NEXT, DEC.FINISH (`42_decoder.md`). -/

namespace Sys2Proof.Machine

/-- DEC.INIT (`42_decoder.md` R140): "s is not written here". -/
def decInit (s : State) : Run State := do
  raiseIf (!s.cfg.inCap.fits s.inLen) .capacityExceeded
  raiseIf (!s.cfg.outCap.fits s.need) .capacityExceeded
  let t := bbClear s
  .ok { t with
    hid := { t.hid with rdict := [], dNext := 256, dWidth := 9, res := [], ip := 0 }
    phase := .decFirst }

/-- Read the next code and process it by its class; at the end of the stream hand over to DEC.FINISH
(`42_decoder.md` R142, R145, R146). -/
def readCode (first : Bool) (s : State) : Run State := do
  let t ← bbGet s.hid.dWidth s
  match t.hid.got with
  | none => .ok { t with phase := .decFinish }
  | some c => classCode (classOf first t.hid.dNext c) first c t

/-- DEC.FIRST (`42_decoder.md` R142). -/
def decFirst (s : State) : Run State := readCode true s

/-- DEC.NEXT (`42_decoder.md` R145). -/
def decNext (s : State) : Run State := readCode false s

/-- The copy loop of DEC.FINISH (`42_decoder.md` R155): the bytes go to OUT from index `i` up. -/
def copyOut : Nat → ByteSeq → State → Run State
  | _, [], s => .ok s
  | i, b :: q, s => do
    let t ← storeOut i b s
    copyOut (i + 1) q t

/-- DEC.FINISH (`42_decoder.md` R155, R156). It can raise, as the last of the n + 3 micro-operations
(log 27). -/
def decFinish (s : State) : Run State := do
  let short := decide (s.hid.res.length < s.need)
  raiseIf (short && (decide (s.inLen = 0) || decide (0 < s.hid.cnt))) .truncatedStream
  raiseIf short .sizeMismatch
  let t ← copyOut 0 (s.hid.res.take s.need) s
  .ok { t with outLen := s.need, phase := .doneOk }

/-- The instruction DEC.INIT. -/
def execDecInit (s : State) : Host.Outcome State Fault Refusal := conclude s (decInit s)

/-- The instruction DEC.FIRST. -/
def execDecFirst (s : State) : Host.Outcome State Fault Refusal := conclude s (decFirst s)

/-- The instruction DEC.NEXT. -/
def execDecNext (s : State) : Host.Outcome State Fault Refusal := conclude s (decNext s)

/-- The instruction DEC.FINISH. -/
def execDecFinish (s : State) : Host.Outcome State Fault Refusal := conclude s (decFinish s)

end Sys2Proof.Machine
end

