-- ==== Sys2Proof/Machine/Encoder.lean ====
section
/-! DEFINITION. The encoder: ENC.INIT, ENC.SYM, ENC.FINAL, ENC.FLUSH (`41_encoder.md`). -/

namespace Sys2Proof.Machine

/-- ENC.INIT (`41_encoder.md` R120). -/
def encInit (s : State) : Run State := do
  raiseIf (!s.cfg.inCap.fits s.inLen) .capacityExceeded
  let t := bbClear s
  .ok { t with
    hid := { t.hid with fdict := [], eNext := 256, eWidth := 9, omega := [], ip := 0 }
    phase := .encSym }

/-- The insertion and restart of the miss arm of ENC.SYM (`41_encoder.md` R122): insert `omega ++ [k]`
under e_next, increment, widen, restart the match at `k`. -/
def learn (k : Byte) (s : State) : State :=
  { s with
    hid := { s.hid with
      fdict := (s.hid.omega ++ [k], s.hid.eNext) :: s.hid.fdict
      eNext := s.hid.eNext + 1
      eWidth := grownEncWidth (s.hid.eNext + 1) s.hid.eWidth
      omega := [k] }
    phase := .encSym }

/-- The miss arm of ENC.SYM (`41_encoder.md` R122): emit, check the dictionary's capacity, learn. -/
def encMiss (k : Byte) (s : State) : Run State := do
  let c ← present (Forward.code? s.hid.fdict s.hid.omega)
  let t ← bbPut c s.hid.eWidth s
  raiseIf (s.cfg.dictCap.isFull t.hid.eNext) .capacityExceeded
  .ok (learn k t)

/-- The hit arm of ENC.SYM (`41_encoder.md` R122): extend the match. -/
def encHit (k : Byte) (s : State) : State :=
  { s with hid := { s.hid with omega := s.hid.omega ++ [k] }, phase := .encSym }

/-- ENC.SYM (`41_encoder.md` R122). -/
def encSym (s : State) : Run State :=
  if s.hid.ip = s.inLen then .ok { s with phase := .encFinal }
  else do
    let k ← inByte s.hid.ip s
    let t := { s with hid := { s.hid with ip := s.hid.ip + 1 } }
    if t.hid.hit k then .ok (encHit k t) else encMiss k t

/-- ENC.FINAL (`41_encoder.md` R125). -/
def encFinal (s : State) : Run State :=
  if s.hid.omegaEmpty then .ok { s with phase := .encFlush }
  else do
    let c ← present (Forward.code? s.hid.fdict s.hid.omega)
    let t ← bbPut c s.hid.eWidth s
    .ok { t with phase := .encFlush }

/-- ENC.FLUSH (`41_encoder.md` R126). It can raise, as the last of the N + 4 micro-operations (log 27). -/
def encFlush (s : State) : Run State := do
  let t ← bbFlush s
  .ok { t with phase := .doneOk }

/-- The instruction ENC.INIT. -/
def execEncInit (s : State) : Host.Outcome State Fault Refusal := conclude s (encInit s)

/-- The instruction ENC.SYM. -/
def execEncSym (s : State) : Host.Outcome State Fault Refusal := conclude s (encSym s)

/-- The instruction ENC.FINAL. -/
def execEncFinal (s : State) : Host.Outcome State Fault Refusal := conclude s (encFinal s)

/-- The instruction ENC.FLUSH. -/
def execEncFlush (s : State) : Host.Outcome State Fault Refusal := conclude s (encFlush s)

end Sys2Proof.Machine
end

