-- ==== Sys2Proof/Machine/Dispatch.lean ====
section
/-! DEFINITION. The meaning of every instruction, one arm each. -/

namespace Sys2Proof.Machine

def exec (i : Instr) (s : State) : Host.Outcome State Fault Refusal :=
  match i with
  -- format CMD8
  | .nop => Sys2Proof.Machine.execNop s
  | .encode => Sys2Proof.Machine.execEncode s
  | .decode => Sys2Proof.Machine.execDecode s
  | .reserved0303 => Sys2Proof.Machine.execReserved0303 s
  | .reserved0407 x => Sys2Proof.Machine.execReserved0407 x s
  | .reserved080F x => Sys2Proof.Machine.execReserved080F x s
  | .reserved101F x => Sys2Proof.Machine.execReserved101F x s
  | .reserved203F x => Sys2Proof.Machine.execReserved203F x s
  | .reserved407F x => Sys2Proof.Machine.execReserved407F x s
  | .reserved80FF x => Sys2Proof.Machine.execReserved80FF x s
  -- format MICRO
  | .bbClear => Sys2Proof.Machine.execBbClear s
  | .bbPut c w => Sys2Proof.Machine.execBbPut c w s
  | .bbFlush => Sys2Proof.Machine.execBbFlush s
  | .bbGet w => Sys2Proof.Machine.execBbGet w s
  | .encInit => Sys2Proof.Machine.execEncInit s
  | .encSym => Sys2Proof.Machine.execEncSym s
  | .encFinal => Sys2Proof.Machine.execEncFinal s
  | .encFlush => Sys2Proof.Machine.execEncFlush s
  | .decInit => Sys2Proof.Machine.execDecInit s
  | .decFirst => Sys2Proof.Machine.execDecFirst s
  | .decNext => Sys2Proof.Machine.execDecNext s
  | .decFinish => Sys2Proof.Machine.execDecFinish s
  -- format CODE_w
  | .literal _ c => Sys2Proof.Machine.execLiteral c s
  | .known _ c => Sys2Proof.Machine.execKnown c s
  | .selfRef _ _ => Sys2Proof.Machine.execSelfRef s
  | .invalid _ _ => Sys2Proof.Machine.execInvalid s

end Sys2Proof.Machine
end

