-- ==== Sys2Proof/Machine/Fetch.lean ====
section
/-! DEFINITION. What the next step does: the host's next move where it has one, else the micro-operation
phase names (`10_state.md` R28; log 6). Also how a word of the opcode table is placed so that the next step
runs it (log 16). -/

namespace Sys2Proof.Machine

/-- The next thing to happen. -/
inductive Act where
  /-- An instruction runs. -/
  | run (i : Instr)
  /-- The host makes a move other than a write to CMD. -/
  | move (m : HostMove)
  /-- Nobody moves. -/
  | still
deriving DecidableEq, Repr

/-- The CORE's own step, if it has one: "In IDLE, DONE_OK and DONE_ERR the CORE has no step of its own"
(`10_state.md` R28). -/
def coreAct (s : State) : Act :=
  match microOp s.phase with
  | some i => .run i
  | none => .still

/-- The next act, and the state it starts from: a move the host makes leaves its list. A `wait` stays
until DONE = 1 (`30_encoding.md` R94). -/
def fetch (s : State) : Act × State :=
  match s.host with
  | [] => (coreAct s, s)
  | .pause :: rest => (coreAct s, { s with host := rest })
  | .wait :: rest => if s.phase.done then (.still, { s with host := rest }) else (coreAct s, s)
  | .write .cmd v :: rest =>
    if v < 256 then (.run (decodeCmd (BitVec.ofNat 8 v)), { s with host := rest })
    else (.move (.write .cmd v), { s with host := rest })
  | m :: rest => (.move m, { s with host := rest })

/-- A command is placed as the host's next move (`43_commands.md` R170). -/
def placeCommand (v : Nat) (s : State) : State :=
  { s with host := .write .cmd (lowbits v 8) :: s.host }

/-- Bytes at the start of IN. -/
def loadBytes : Nat → List Byte → Memory → Memory
  | _, [], m => m
  | i, b :: q, m => loadBytes (i + 1) q (Memory.write m i b)

/-- The hidden registers of a DECODE that has read the stream `0/9 256/9` and is about to read a third
code (`42_decoder.md` R142, R145): d_next is 257, so every class can occur (log 16). -/
def hiddenAtThirdCode : Hidden :=
  { Hidden.reset with dNext := 257, s := [0, 0], rdict := [(256, [0, 0])], res := [0, 0, 0] }

/-- A code is placed as the next code of the stream of a running DECODE (log 16). -/
def placeCode (bytes : List Byte) (s : State) : State :=
  { s with
    cmd := 0x02
    err := .none
    inLen := bytes.length
    outLen := 0
    phase := .decNext
    hid := hiddenAtThirdCode
    inBuf := loadBytes 0 bytes s.inBuf
    outBuf := []
    host := .pause :: s.host }

/-- The word `w` of `nbits` bits placed where the next step fetches its instruction. -/
def placeWord (nbits w : Nat) (s : State) : State :=
  if nbits = 0 then s
  else if nbits ≤ 8 then placeCommand w s
  else placeCode (leBytes ((nbits + 7) / 8) w) s

end Sys2Proof.Machine
end

