-- ==== Sys2Proof/Machine/HostPort.lean ====
section
/-! DEFINITION. The host's accesses other than the write to CMD: registers, IN, OUT, and the reset event
(`10_state.md` R21, R38; `70_reset_and_hazards.md` R232, R238, R239). -/

namespace Sys2Proof.Machine

/-- A host write to a register the host sets: not while BUSY = 1 (`70_reset_and_hazards.md` R239, log 7),
and only a value the register can hold (log 9). -/
def hostSet (width : Cap) (v : Nat) (set : State → State) (s : State) :
    Host.Outcome State Fault Refusal :=
  if !width.holdsValue v then .refused .valueTooWide
  else if s.phase.busy then .refused .busyWrite
  else .next (set s)

/-- `x[n] <- v` for a register other than CMD (`10_state.md` R21): writes to STATUS, ERR and OUT_LEN are
ignored, also while BUSY = 1. A value for CMD that comes here is no 8-bit value. -/
def hostWrite (r : Reg) (v : Nat) (s : State) : Host.Outcome State Fault Refusal :=
  match r with
  | .cmd => .refused .valueTooWide
  | .status => .next s
  | .err => .next s
  | .inLen => hostSet s.cfg.lenBits v (fun t => { t with inLen := v }) s
  | .rows => hostSet s.cfg.dimBits v (fun t => { t with rows := v }) s
  | .cols => hostSet s.cfg.dimBits v (fun t => { t with cols := v }) s
  | .outLen => .next s

/-- Write of one byte of IN (`20_memory.md` R60): not while BUSY = 1 (`70_reset_and_hazards.md` R239). -/
def hostLoad (i : Nat) (b : Byte) (s : State) : Host.Outcome State Fault Refusal :=
  if !s.cfg.inCap.hasIndex i then .fault .noSuchByte
  else if s.phase.busy then .refused .busyWrite
  else .next { s with inBuf := Memory.write s.inBuf i b }

/-- The number a register holds (`10_state.md` R21). -/
def State.reg (s : State) : Reg → Nat
  | .cmd => s.cmd.toNat
  | .status => s.status.toNat
  | .err => s.err.value.toNat
  | .inLen => s.inLen
  | .rows => s.rows
  | .cols => s.cols
  | .outLen => s.outLen

/-- The registers a host may read while BUSY = 1 (`70_reset_and_hazards.md` R239). -/
def Reg.alwaysReadable : Reg → Bool
  | .cmd => true
  | .status => true
  | .err => false
  | .inLen => false
  | .rows => false
  | .cols => false
  | .outLen => false

/-- A host read of a register. While BUSY = 1 a register that may not be read returns any value
(`70_reset_and_hazards.md` R239, log 8). A read changes nothing of the CORE (`20_memory.md` R70). -/
def hostRead (r : Reg) (s : State) : State :=
  if s.phase.busy && !r.alwaysReadable then
    { s with
      seen := .reg r (cutTo (r.width s.cfg) (Config.freeRegister s.free)) :: s.seen
      free := s.free + 1 }
  else { s with seen := .reg r (s.reg r) :: s.seen }

/-- The byte of the result at an index: OUT is a result only at DONE_OK and below OUT_LEN
(`10_state.md` R38, `70_reset_and_hazards.md` R240). -/
def State.resultByte (s : State) (i : Nat) : Option Byte :=
  if s.phase = .doneOk ∧ i < s.outLen then Memory.read s.outBuf i else none

/-- The byte of OUT at an index, while the CORE is at rest: of the result, or outside it a byte nothing is
known of, the same at every read until OUT is given up again (`20_memory.md` R70, `43_commands.md` R179;
log 3). -/
def State.outValue (s : State) (i : Nat) : Byte :=
  (s.resultByte i).getD (Config.freeOutByte s.outEra i)

/-- A host read of a byte of OUT. While BUSY = 1 any value may be returned (`70_reset_and_hazards.md` R239,
log 8). A read changes nothing of the CORE (`20_memory.md` R70). -/
def hostReadOut (i : Nat) (s : State) : Host.Outcome State Fault Refusal :=
  if !s.cfg.outCap.hasIndex i then .fault .noSuchByte
  else if s.phase.busy then
    .next { s with seen := .out i (Config.freeOutRead s.free) :: s.seen, free := s.free + 1 }
  else .next { s with seen := .out i (s.outValue i) :: s.seen }

/-- The reset event (`70_reset_and_hazards.md` R230, R232): every field as after reset of the
same CORE, but that what the host has seen and will do is the host's own, and that the free values are new
ones (log 19). -/
def resetCore (s : State) : State :=
  { State.resetOf s.cfg with
    host := s.host
    seen := s.seen
    era := s.era + 1
    outEra := s.outEra + 1
    free := s.free }

/-- The host's move. `wait` and `pause` are seen to by the fetch. -/
def hostMove (m : HostMove) (s : State) : Host.Outcome State Fault Refusal :=
  match m with
  | .write r v => hostWrite r v s
  | .load i b => hostLoad i b s
  | .read r => .next (hostRead r s)
  | .readOut i => hostReadOut i s
  | .wait => .next s
  | .pause => .next s
  | .reset => .next (resetCore s)

end Sys2Proof.Machine
end

