-- ==== Sys2Proof/Machine/Step.lean ====
section
/-! DEFINITION. One step of the CORE and its host. -/

namespace Sys2Proof.Machine

/-- One step: fetch, then run the instruction or make the host's move. Where nobody moves the CORE holds
its registers and buffers (`60_exceptions.md` R222). -/
def step (s : State) : Host.Outcome State Fault Refusal :=
  match fetch s with
  | (.run i, t) => exec i t
  | (.move m, t) => hostMove m t
  | (.still, t) => .next t

/-- `s` with a word of the opcode table placed where `step` fetches its next instruction. -/
def State.withFetchWord (s : State) (nbits w : Nat) : State := placeWord nbits w s

end Sys2Proof.Machine
end

