-- ==== Sys2Proof/Machine/Functions.lean ====
section
/-! DEFINITION. The two functions the commands compute (`43_commands.md` R176, R177), the width schedule of
the stream (`30_encoding.md` R86) and the numbers its bytes stand for (`40_bitbuffer.md` R111). -/

namespace Sys2Proof.Machine

/-- The CORE's own step: the micro-operation phase names, or none
(`10_state.md` R28). -/
def coreStep (s : State) : Host.Outcome State Fault Refusal :=
  match s.phase with
  | .idle => .next s
  | .encInit => conclude s (encInit s)
  | .encSym => conclude s (encSym s)
  | .encFinal => conclude s (encFinal s)
  | .encFlush => conclude s (encFlush s)
  | .decInit => conclude s (decInit s)
  | .decFirst => conclude s (decFirst s)
  | .decNext => conclude s (decNext s)
  | .decFinish => conclude s (decFinish s)
  | .doneOk => .next s
  | .doneErr => .next s

/-- `k` steps of the CORE. -/
def coreRun : Nat → State → Host.Outcome State Fault Refusal
  | 0, s => .next s
  | k + 1, s =>
    match coreStep s with
    | .next t => coreRun k t
    | .fault f => .fault f
    | .refused r => .refused r

/-- OUT[0 .. OUT_LEN − 1] (`10_state.md` R38). -/
def State.resultBytes (s : State) : ByteSeq := (List.range s.outLen).filterMap (Memory.read s.outBuf)

/-- What a command returns within `k` steps: its bytes at DONE_OK, its error at DONE_ERR ("typed results",
`43_commands.md` R177), nothing where it has not ended. -/
def commandResult (k : Nat) (s : State) : Option (Except ErrCode ByteSeq) :=
  match coreRun k s with
  | .next t =>
    if t.phase = .doneOk then some (.ok t.resultBytes)
    else if t.phase = .doneErr then some (.error t.err)
    else none
  | .fault _ => none
  | .refused _ => none

/-- A CORE at rest whose host has written the operands (`70_reset_and_hazards.md` R235). -/
def withOperands (cfg : Capacities) (bytes : ByteSeq) (rows cols : Nat) : State :=
  { State.resetOf cfg with
    inLen := bytes.length
    rows := rows
    cols := cols
    inBuf := loadBytes 0 bytes [] }

/-- ENCODE of `bytes` on a CORE of capacities `cfg`, with the N + 4 micro-operations it takes
(`44_properties.md` R192). -/
def encodeOn (cfg : Capacities) (bytes : ByteSeq) : Option (Except ErrCode ByteSeq) :=
  commandResult (bytes.length + 4)
    (startCommand .encInit { withOperands cfg bytes 0 0 with cmd := 0x01 })

/-- DECODE of `bytes` on a CORE of capacities `cfg`, with the most micro-operations it can take
(`70_reset_and_hazards.md` R246). -/
def decodeOn (cfg : Capacities) (bytes : ByteSeq) (rows cols : Nat) :
    Option (Except ErrCode ByteSeq) :=
  commandResult (8 * bytes.length / 9 + 3)
    (startCommand .decInit { withOperands cfg bytes rows cols with cmd := 0x02 })

/-- encode(B) (`43_commands.md` R176). -/
def encodeBytes (bytes : ByteSeq) : Option (Except ErrCode ByteSeq) :=
  encodeOn Capacities.infinite bytes

/-- decode(S, rows, cols) (`43_commands.md` R177). -/
def decodeBytes (bytes : ByteSeq) (rows cols : Nat) : Option (Except ErrCode ByteSeq) :=
  decodeOn Capacities.infinite bytes rows cols

/-- The least width of 9 or more at which e_next codes are addressed: the least w with n ≤ 2^w
(`41_encoder.md` R123). -/
def encWidthFor (n : Nat) : Nat := max 9 (bitlen (n - 1))

/-- The least width of 9 or more at which the code d_next itself is addressed: the least w with n < 2^w
(`42_decoder.md` R153). -/
def decWidthFor (n : Nat) : Nat := max 9 (bitlen n)

/-- w_j, the width of the code of ordinal `j` (`30_encoding.md` R86). -/
def codeWidth (j : Nat) : Nat := encWidthFor (255 + j)

/-- The number some bytes stand for, the least significant first. -/
def leValue : List Byte → Nat
  | [] => 0
  | b :: q => b.toNat + 256 * leValue q

/-- `n` bytes of IN from index `i` up. -/
def inBytes (s : State) (i : Nat) : Nat → List Byte
  | 0 => []
  | n + 1 => s.inValue i :: inBytes s (i + 1) n

/-- The number the pending bits and the next `n` bytes of IN make (`40_bitbuffer.md` R106). -/
def pending (s : State) (n : Nat) : Nat :=
  s.hid.acc + leValue (inBytes s s.hid.ip n) * 2 ^ s.hid.cnt

/-- c_1 + c_2 · 2^(w_1) + c_3 · 2^(w_1 + w_2) + … (`40_bitbuffer.md` R111). -/
def packValue : List (Nat × Nat) → Nat
  | [] => 0
  | (c, w) :: l => c + packValue l * 2 ^ w

/-- w_1 + … + w_n (`40_bitbuffer.md` R111). -/
def packWidth : List (Nat × Nat) → Nat
  | [] => 0
  | (_, w) :: l => w + packWidth l

/-- BB.PUT of a list of codes with their widths, one after the other (`40_bitbuffer.md` R111). -/
def putAll : List (Nat × Nat) → State → Run State
  | [], s => .ok s
  | (c, w) :: l, s => do
    let t ← bbPut c w s
    putAll l t

/-- BB.GET of a list of widths, one after the other, with the answers (`40_bitbuffer.md` R111). -/
def getAll : List Nat → State → Run (List (Option Nat) × State)
  | [], s => .ok ([], s)
  | w :: l, s => do
    let t ← bbGet w s
    let (answers, u) ← getAll l t
    .ok (t.hid.got :: answers, u)

/-- pack(L): the bytes OUT holds after BB.CLEAR, the BB.PUTs and BB.FLUSH (`40_bitbuffer.md` R111), from a
state with an empty OUT. -/
def packRun (l : List (Nat × Nat)) (s : State) : Run State := do
  let t ← putAll l (bbClear s)
  bbFlush t

end Sys2Proof.Machine
end

