-- ==== Sys2Proof/Safety.lean ====
section
/-! DEFINITION. What a safe run is: the invariant of every state a run reaches, the transitions phase may
make, and the groups of instructions claims name. -/

namespace Sys2Proof.Machine

/-! ## Groups of instructions -/

/-- The rows RESERVED_03_03 to RESERVED_80_FF. -/
def isReserved : Instr → Bool
  | .reserved0303 => true
  | .reserved0407 _ => true
  | .reserved080F _ => true
  | .reserved101F _ => true
  | .reserved203F _ => true
  | .reserved407F _ => true
  | .reserved80FF _ => true
  | _ => false

/-- The rows of format CMD8. -/
def isCommand : Instr → Bool
  | .nop => true
  | .encode => true
  | .decode => true
  | i => isReserved i

/-- The micro-operations of ENC. -/
def isEncoder : Instr → Bool
  | .encInit => true
  | .encSym => true
  | .encFinal => true
  | .encFlush => true
  | _ => false

/-- The micro-operations of DEC and the classes of code it processes. -/
def isDecoder : Instr → Bool
  | .decInit => true
  | .decFirst => true
  | .decNext => true
  | .decFinish => true
  | .literal _ _ => true
  | .known _ _ => true
  | .selfRef _ _ => true
  | .invalid _ _ => true
  | _ => false

/-! ## Transitions of phase -/

/-- The transitions a step of the CORE or an accepted command makes (`10_state.md` R28). -/
def Phase.mayBecome : Phase → Phase → Bool
  | .idle, q => decide (q = .encInit) || decide (q = .decInit) || decide (q = .doneErr)
  | .doneOk, q => decide (q = .encInit) || decide (q = .decInit) || decide (q = .doneErr)
  | .doneErr, q => decide (q = .encInit) || decide (q = .decInit) || decide (q = .doneErr)
  | .encInit, q => decide (q = .encSym) || decide (q = .doneErr)
  | .encSym, q => decide (q = .encSym) || decide (q = .encFinal) || decide (q = .doneErr)
  | .encFinal, q => decide (q = .encFlush) || decide (q = .doneErr)
  | .encFlush, q => decide (q = .doneOk) || decide (q = .doneErr)
  | .decInit, q => decide (q = .decFirst) || decide (q = .doneErr)
  | .decFirst, q => decide (q = .decNext) || decide (q = .decFinish) || decide (q = .doneErr)
  | .decNext, q => decide (q = .decNext) || decide (q = .decFinish) || decide (q = .doneErr)
  | .decFinish, q => decide (q = .doneOk) || decide (q = .doneErr)

/-! ## The invariant -/

/-- The forward dictionary with `n` entries: the learned keys have the codes 256 to n − 1, newest first,
none is a key twice, and each has its prefix of length one less as a key (`10_state.md` R32). -/
def Forward.Ok : Forward → Nat → Prop
  | [], n => n = 256
  | (q, c) :: d, n =>
    n = c + 1 ∧ 2 ≤ q.length ∧ Forward.code? d q = none ∧ (Forward.code? d q.dropLast).isSome ∧
      Forward.Ok d c

/-- The reverse dictionary with `n` entries: the learned codes are 256 to n − 1, newest first, and every
entry is not empty (`10_state.md` R35). -/
def Reverse.Ok : Reverse → Nat → Prop
  | [], n => n = 256
  | (c, q) :: d, n => n = c + 1 ∧ q ≠ [] ∧ Reverse.Ok d c

/-- A buffer is in canonical form and lists only indexes that exist. -/
def BufferOk (cap : Cap) (m : Memory) : Prop :=
  Memory.wf m ∧ ∀ x ∈ m, cap.hasIndex x.1 = true

/-- Between two micro-operations of ENC after ENC.INIT (`10_state.md` R29 to R32, `41_encoder.md` R123). -/
structure EncoderOk (s : State) : Prop where
  inFits : s.cfg.inCap.fits s.inLen = true
  ipInside : s.hid.ip ≤ s.inLen
  accBelow : s.hid.acc < 2 ^ s.hid.cnt
  cntSmall : s.hid.cnt < 8
  dictOk : Forward.Ok s.hid.fdict s.hid.eNext
  dictFits : s.cfg.dictCap.fits s.hid.eNext = true
  width : s.hid.eWidth = encWidthFor s.hid.eNext
  omegaKey : s.hid.omega ≠ [] → (Forward.code? s.hid.fdict s.hid.omega).isSome
  omegaEmpty : s.hid.omega = [] → s.hid.ip = 0

/-- Between two micro-operations of DEC after DEC.INIT (`10_state.md` R29, R30, R34, R35, `42_decoder.md`
R157). -/
structure DecoderOk (s : State) : Prop where
  inFits : s.cfg.inCap.fits s.inLen = true
  needFits : s.cfg.outCap.fits s.need = true
  ipInside : s.hid.ip ≤ s.inLen
  accBelow : s.hid.acc < 2 ^ s.hid.cnt
  dictOk : Reverse.Ok s.hid.rdict s.hid.dNext
  dictFits : s.cfg.dictCap.fits s.hid.dNext = true
  width : s.hid.dWidth = decWidthFor s.hid.dNext
  atFirst : s.phase = .decFirst → s.hid.ip = 0 ∧ s.hid.cnt = 0 ∧ s.hid.dNext = 256 ∧ s.hid.res = []
  atNext : s.phase = .decNext → s.hid.cnt < 8 ∧ s.hid.s ≠ []
  atFinish : s.phase = .decFinish → s.hid.cnt < s.hid.dWidth ∧ s.hid.ip = s.inLen

/-- The hidden number registers hold only values their registers can (`10_state.md` R29, R30, R31, R34;
`40_bitbuffer.md` R110): in every state between two steps, also after reset and after an error. -/
structure HiddenFits (cfg : Capacities) (h : Hidden) : Prop where
  ip : cfg.lenBits.holdsValue h.ip = true
  acc : cfg.accBits.holdsValue h.acc = true
  cnt : cfg.accBits.fits h.cnt = true
  cntWidth : cfg.cntBits.holdsValue h.cnt = true
  eNext : 256 ≤ h.eNext ∧ cfg.dictCap.fits h.eNext = true
  eWidth : 9 ≤ h.eWidth ∧ cfg.wMax.fits h.eWidth = true
  dNext : 256 ≤ h.dNext ∧ cfg.dictCap.fits h.dNext = true
  dWidth : 9 ≤ h.dWidth ∧ cfg.wMax.fits h.dWidth = true

/-- What holds in every state of every run from reset, for a CORE whose capacities are in order. -/
structure Invariant (s : State) : Prop where
  capacities : s.cfg.WF
  inLenWidth : s.cfg.lenBits.holdsValue s.inLen = true
  rowsWidth : s.cfg.dimBits.holdsValue s.rows = true
  colsWidth : s.cfg.dimBits.holdsValue s.cols = true
  outFits : s.cfg.outCap.fits s.outLen = true
  hidden : HiddenFits s.cfg s.hid
  errReported : s.err ≠ .none ↔ s.phase = .doneErr
  noLength : s.phase ∉ [.encSym, .encFinal, .encFlush, .doneOk] → s.outLen = 0
  inOk : BufferOk s.cfg.inCap s.inBuf
  outOk : BufferOk s.cfg.outCap s.outBuf
  outListed : s.phase ≠ .doneErr → s.outBuf.map Prod.fst = List.range s.outLen
  encoder : s.phase ∈ [.encSym, .encFinal, .encFlush] → EncoderOk s
  decoder : s.phase ∈ [.decFirst, .decNext, .decFinish] → DecoderOk s

/-! ## Errors -/

/-- What a command that ended with error `e` leaves defined (`60_exceptions.md` R206, R208): STATUS reads
0x06, ERR holds the code, OUT_LEN is 0, and CMD, IN, IN_LEN, ROWS and COLS are as they were. Of OUT and the
hidden registers it says nothing. -/
structure EndedBy (e : ErrCode) (s t : State) : Prop where
  err : t.err = e
  isError : e ≠ .none
  outLen : t.outLen = 0
  phase : t.phase = .doneErr
  status : t.status = 0x06
  cmd : t.cmd = s.cmd
  inLen : t.inLen = s.inLen
  rows : t.rows = s.rows
  cols : t.cols = s.cols
  inBuf : t.inBuf = s.inBuf
  cfg : t.cfg = s.cfg
  host : t.host = s.host
  seen : t.seen = s.seen
  era : t.era = s.era

/-! ## The host -/

/-- The host's next move, if it has one, is a move the model gives a meaning in this state: buffer indexes
exist, values fit, and nothing the CORE reads is written while BUSY = 1 (`70_reset_and_hazards.md` R239). -/
def moveAllowed (s : State) : HostMove → Prop
  | .write .cmd v => v < 256
  | .write .status _ => True
  | .write .err _ => True
  | .write .inLen v => s.cfg.lenBits.holdsValue v = true ∧ s.phase.busy = false
  | .write .rows v => s.cfg.dimBits.holdsValue v = true ∧ s.phase.busy = false
  | .write .cols v => s.cfg.dimBits.holdsValue v = true ∧ s.phase.busy = false
  | .write .outLen _ => True
  | .load i _ => s.cfg.inCap.hasIndex i = true ∧ s.phase.busy = false
  | .read _ => True
  | .readOut i => s.cfg.outCap.hasIndex i = true
  | .wait => True
  | .pause => True
  | .reset => True

end Sys2Proof.Machine
end

