-- ==== Sys2Proof/Certificates/Slice0/Obligations.lean ====
section
/-! DEFINITION. The statements for the provers. Each docstring names the rules of spec/ it formalises.
The capacities are those of the state's own CORE, so a statement about every state is about every CORE. -/

open Sys2Proof Sys2Proof.Machine

/-! ## Encoding -/

/-- Words written out from `30_encoding.md` R81, R84, R88 and `20_memory.md` R64 decode to what they stand
for: the three commands, a value of each end of the reserved range, and codes of width 9 in each class. -/
def Obligations.SpecWordsDecode : Prop :=
  decode .command [0b00000000] = .ok .nop ∧
  decode .command [0b00000001] = .ok .encode ∧
  decode .command [0b00000010] = .ok .decode ∧
  decode .command [0b00000011] = .ok .reserved0303 ∧
  decode .command [0b01111111] = .ok (.reserved407F 0b111111) ∧
  decode .command [0b11111111] = .ok (.reserved80FF 0b1111111) ∧
  decode (.code 9 true 256) [0b01000001, 0b00000000] = .ok (.literal 9 65) ∧
  decode (.code 9 true 256) [0b00000000, 0b00000001] = .ok (.invalid 9 256) ∧
  decode (.code 9 false 257) [0b00000000, 0b00000001] = .ok (.known 9 256) ∧
  decode (.code 9 false 256) [0b00000000, 0b00000001] = .ok (.selfRef 9 256) ∧
  decode (.code 9 false 256) [0b00000001, 0b00000001] = .ok (.invalid 9 257) ∧
  decode (.code 9 false 256) [0b01000001] = .error .endOfStream

/-- Every value of CMD is the encoding of the command it decodes to (`30_encoding.md` R81). -/
def Obligations.CommandValuesEncodeBack : Prop :=
  ∀ v : Byte, isCommand (decodeCmd v) = true ∧ encode (decodeCmd v) = some [v]

/-- Decode and encode agree on every well-formed instruction that has a binary form, for every operand, in
every context in which its bytes are read as that instruction (`30_encoding.md` R80, R81, R84, R88, R92). -/
def Obligations.DecodeOfEncode : Prop :=
  ∀ (cfg : Capacities) (i : Instr) (x : DecodeContext) (bytes : List Byte),
    i.wf cfg = true → encode i = some bytes → readIn i x → decode x bytes = .ok i

/-- The class of a code (`30_encoding.md` R88, `42_decoder.md` R143): exactly one of four, by comparing
with 256 and d_next; of a first code only LITERAL is legal. -/
def Obligations.CodeClasses : Prop :=
  ∀ dNext c : Nat, 256 ≤ dNext →
    ((classOf false dNext c = .literal ↔ c < 256) ∧
      (classOf false dNext c = .known ↔ 256 ≤ c ∧ c < dNext) ∧
      (classOf false dNext c = .selfRef ↔ c = dNext) ∧
      (classOf false dNext c = .invalid ↔ dNext < c)) ∧
    ((classOf true dNext c = .literal ↔ c < 256) ∧
      (classOf true dNext c = .invalid ↔ 256 ≤ c))

/-- Bit i of the code of width w at stream position p is stream bit p + i, and stream bit q is bit q mod 8
of byte q div 8 (`20_memory.md` R62, R63; `30_encoding.md` R85, R92). -/
def Obligations.CodeBitsAreStreamBits : Prop :=
  ∀ (bytes : List Byte) (p w i : Nat),
    (codeAt bytes p w).testBit i =
      (decide (i < w) && (bytes.getD ((p + i) / 8) 0).getLsbD ((p + i) % 8))

/-- The two widths are the least of 9 or more that their rules ask for, and both sides give the code of
ordinal j ≥ 2 the same width (`41_encoder.md` R123, `42_decoder.md` R153, `44_properties.md` R189). -/
def Obligations.WidthsAreLeast : Prop :=
  (∀ n w : Nat, encWidthFor n ≤ w ↔ 9 ≤ w ∧ n ≤ 2 ^ w) ∧
  (∀ n w : Nat, decWidthFor n ≤ w ↔ 9 ≤ w ∧ n < 2 ^ w) ∧
  (∀ j : Nat, 2 ≤ j → encWidthFor (255 + j) = codeWidth j ∧ decWidthFor (254 + j) = codeWidth j)

/-! ## Commands -/

/-- The write of a value to CMD (`43_commands.md` R170): dropped while BUSY = 1; else CMD takes the value
and NOP, the start of ENCODE, the start of DECODE or the refusal of a reserved value follows. What becomes
of the bytes of OUT at a start is left open. That the refusal of a reserved value keeps OUT and the hidden
registers is the model's reading of R82 and R175 against R208 (log 17). -/
def Obligations.WriteToCmd : Prop :=
  ∀ (s : State) (v : Byte),
    (s.phase.busy = true → exec (decodeCmd v) s = .next s) ∧
    (s.phase.busy = false → v = 0x00 → exec (decodeCmd v) s = .next { s with cmd := v }) ∧
    (s.phase.busy = false → v = 0x01 → ∃ m e,
      exec (decodeCmd v) s =
        .next { s with
          cmd := v, err := .none, outLen := 0, phase := .encInit, outBuf := m, outEra := e }) ∧
    (s.phase.busy = false → v = 0x02 → ∃ m e,
      exec (decodeCmd v) s =
        .next { s with
          cmd := v, err := .none, outLen := 0, phase := .decInit, outBuf := m, outEra := e }) ∧
    (s.phase.busy = false → 0x03 ≤ v →
      exec (decodeCmd v) s =
        .next { s with cmd := v, err := .illegalCommand, outLen := 0, phase := .doneErr })

/-- NOP changes nothing but CMD (`43_commands.md` R171): STATUS, ERR, OUT_LEN and every byte of OUT keep their
values; and NOP is the value CMD holds after reset, of every CORE. -/
def Obligations.NopKeepsTheResult : Prop :=
  (∀ s : State, s.phase.busy = false → exec .nop s = .next { s with cmd := 0x00 }) ∧
  (∀ s t : State, exec .nop s = .next t →
    t.status = s.status ∧ t.err = s.err ∧ t.outLen = s.outLen ∧ t.outBuf = s.outBuf ∧
      ∀ i, t.outValue i = s.outValue i) ∧
  (∀ cfg : Capacities, (State.resetOf cfg).cmd = 0x00 ∧ decodeCmd (State.resetOf cfg).cmd = .nop)

/-- The start of ENCODE and of DECODE (`43_commands.md` R172, R173): STATUS reads 0x01, whatever the operand
registers hold, and nothing but CMD, ERR, OUT_LEN, phase and OUT changes. -/
def Obligations.CommandsStart : Prop :=
  ∀ s : State, s.phase.busy = false →
    (∃ t m e, exec .encode s = .next t ∧ t.status = 0x01 ∧
      t = { s with
        cmd := 0x01, err := .none, outLen := 0, phase := .encInit, outBuf := m, outEra := e }) ∧
    (∃ t m e, exec .decode s = .next t ∧ t.status = 0x01 ∧
      t = { s with
        cmd := 0x02, err := .none, outLen := 0, phase := .decInit, outBuf := m, outEra := e })

/-- Each of the seven rows of reserved values, with every operand: accepted while BUSY = 0 it ends at once
in DONE_ERR with IllegalCommand, STATUS reads 0x06, ERR reads 5, OUT_LEN is 0, and no buffer, no operand
register and no hidden register is touched (`43_commands.md` R175). That OUT and the hidden registers are
kept is the model's reading of R82 and R175 against R208 (log 17). -/
def Obligations.ReservedValuesAreIllegal : Prop :=
  ∀ (i : Instr) (v : Byte) (s : State), isReserved i = true → encode i = some [v] →
    s.phase.busy = false →
    ∃ t, exec i s = .next t ∧ t.status = 0x06 ∧ t.err.value = 5 ∧
      t = { s with cmd := v, err := .illegalCommand, outLen := 0, phase := .doneErr }

/-- STATUS is a function of phase (`10_state.md` R23): BUSY, DONE and ERRF in bits 0 to 2, bits 7 to 3
zero, so that it reads 0x00, 0x01, 0x02 or 0x06. It is read only: a host write leaves everything as it is. -/
def Obligations.StatusBits : Prop :=
  ∀ s : State,
    (s.status.getLsbD 0 = true ↔
      s.phase ∈ [.encInit, .encSym, .encFinal, .encFlush, .decInit, .decFirst, .decNext, .decFinish]) ∧
    (s.status.getLsbD 1 = true ↔ s.phase ∈ [.doneOk, .doneErr]) ∧
    (s.status.getLsbD 2 = true ↔ s.phase = .doneErr) ∧
    (∀ i, 3 ≤ i → s.status.getLsbD i = false) ∧
    (s.status = 0x00 ↔ s.phase = .idle) ∧
    (s.status = 0x01 ↔ s.phase.busy = true) ∧
    (s.status = 0x02 ↔ s.phase = .doneOk) ∧
    (s.status = 0x06 ↔ s.phase = .doneErr) ∧
    (∀ v rest, s.host = .write .status v :: rest → step s = .next { s with host := rest })

/-! ## The bit buffer -/

/-- BB.CLEAR (`40_bitbuffer.md` R100): acc and cnt become 0, whatever they held; nothing else changes. -/
def Obligations.BbClearEmptiesTheBuffer : Prop :=
  ∀ s : State, exec .bbClear s = .next { s with hid := { s.hid with acc := 0, cnt := 0 } }

/-- out_byte (`40_bitbuffer.md` R103): CapacityExceeded where OUT is full, else the byte goes to the end of
OUT, every other byte of OUT stays, and OUT_LEN grows by one. With OUT_CAP = ∞ it never raises. -/
def Obligations.OutByteAppends : Prop :=
  ∀ (b : Byte) (s : State),
    (s.cfg.outCap = .upTo s.outLen → outByte b s = .error (.raise .capacityExceeded)) ∧
    ((s.cfg.outCap = .unbounded ∨ ∃ c, s.cfg.outCap = .upTo c ∧ s.outLen < c) →
      ∃ m, outByte b s = .ok { s with outBuf := m, outLen := s.outLen + 1 } ∧
        Memory.read m s.outLen = some b ∧
        ∀ a, a ≠ s.outLen → Memory.read m a = Memory.read s.outBuf a)

/-- BB.PUT(c, w) (`40_bitbuffer.md` R102, R103). With room in OUT the code goes above the pending bits, every
complete byte goes to OUT, the low ones first, and fewer than 8 bits stay; nothing else changes. Without room
for its complete bytes it raises CapacityExceeded (`60_exceptions.md` R204). -/
def Obligations.BbPutPacksTheCode : Prop :=
  ∀ (c w : Nat) (s : State),
    (s.hid.acc < 2 ^ s.hid.cnt →
      s.cfg.outCap.fits (s.outLen + (s.hid.cnt + w) / 8) = true →
      ∃ m,
        exec (.bbPut c w) s =
          .next { s with
            hid := { s.hid with
              acc := (s.hid.acc + c * 2 ^ s.hid.cnt) / 2 ^ (8 * ((s.hid.cnt + w) / 8))
              cnt := (s.hid.cnt + w) % 8 }
            outBuf := m
            outLen := s.outLen + (s.hid.cnt + w) / 8 } ∧
        (∀ k, k < (s.hid.cnt + w) / 8 →
          Memory.read m (s.outLen + k) =
            some (BitVec.ofNat 8 ((s.hid.acc + c * 2 ^ s.hid.cnt) / 2 ^ (8 * k)))) ∧
        ∀ a, (a < s.outLen ∨ s.outLen + (s.hid.cnt + w) / 8 ≤ a) →
          Memory.read m a = Memory.read s.outBuf a) ∧
    (s.cfg.outCap.fits s.outLen = true →
      s.cfg.outCap.fits (s.outLen + (s.hid.cnt + w) / 8) = false →
      ∃ t, exec (.bbPut c w) s = .next t ∧ EndedBy .capacityExceeded s t)

/-- BB.FLUSH with room in OUT (`40_bitbuffer.md` R104): exactly ceil(cnt / 8) bytes, padded with zero bits,
go to OUT, and acc = 0, cnt = 0 after; without room CapacityExceeded. -/
def Obligations.BbFlushWritesThePendingBits : Prop :=
  ∀ s : State, s.hid.acc < 2 ^ s.hid.cnt →
    (s.cfg.outCap.fits (s.outLen + (s.hid.cnt + 7) / 8) = true →
      ∃ m,
        exec .bbFlush s =
          .next { s with
            hid := { s.hid with acc := 0, cnt := 0 }
            outBuf := m
            outLen := s.outLen + (s.hid.cnt + 7) / 8 } ∧
        (∀ k, k < (s.hid.cnt + 7) / 8 →
          Memory.read m (s.outLen + k) = some (BitVec.ofNat 8 (s.hid.acc / 2 ^ (8 * k)))) ∧
        ∀ a, (a < s.outLen ∨ s.outLen + (s.hid.cnt + 7) / 8 ≤ a) →
          Memory.read m a = Memory.read s.outBuf a) ∧
    (s.cfg.outCap.fits s.outLen = true →
      s.cfg.outCap.fits (s.outLen + (s.hid.cnt + 7) / 8) = false →
      ∃ t, exec .bbFlush s = .next t ∧ EndedBy .capacityExceeded s t)

/-- BB.GET(w) where the stream holds a whole code (`40_bitbuffer.md` R106): as few bytes as are needed go
above the pending bits, the answer is the low w bits, and the rest stays; nothing else changes. `pending`
is the number the pending bits and those bytes make. That the answer is kept in `got` is the model's own
(log 13), and a byte the host has not written is a free value (log 2). -/
def Obligations.BbGetReadsACode : Prop :=
  ∀ (w : Nat) (s : State), s.cfg.inCap.fits s.inLen = true → s.hid.acc < 2 ^ s.hid.cnt →
    s.hid.ip + (w - s.hid.cnt + 7) / 8 ≤ s.inLen →
    exec (.bbGet w) s =
      .next { s with
        hid := { s.hid with
          got := some (pending s ((w - s.hid.cnt + 7) / 8) % 2 ^ w)
          acc := pending s ((w - s.hid.cnt + 7) / 8) / 2 ^ w
          cnt := s.hid.cnt + 8 * ((w - s.hid.cnt + 7) / 8) - w
          ip := s.hid.ip + (w - s.hid.cnt + 7) / 8 } }

/-- BB.GET(w) where the input is exhausted before w bits are there (`40_bitbuffer.md` R107): the answer is
none, ip = IN_LEN, fewer than w bits are left over, and no error is raised. `got` is the model's own
(log 13). -/
def Obligations.BbGetFindsTheEnd : Prop :=
  ∀ (w : Nat) (s : State), s.cfg.inCap.fits s.inLen = true → s.hid.acc < 2 ^ s.hid.cnt →
    s.hid.ip ≤ s.inLen → s.inLen < s.hid.ip + (w - s.hid.cnt + 7) / 8 →
    s.hid.cnt + 8 * (s.inLen - s.hid.ip) < w ∧
    exec (.bbGet w) s =
      .next { s with
        hid := { s.hid with
          got := none
          acc := pending s (s.inLen - s.hid.ip)
          cnt := s.hid.cnt + 8 * (s.inLen - s.hid.ip)
          ip := s.inLen } }

/-- pack(L) and its inverse (`40_bitbuffer.md` R111): packing a list of codes gives the number
c_1 + c_2 · 2^(w_1) + … in base 256, least significant digit first, in ceil((w_1 + … + w_n) / 8) bytes; and
reading the same widths from those bytes gives the codes back, after which there is no further code. -/
def Obligations.PackThenGetReturnsTheCodes : Prop :=
  ∀ (l : List (Nat × Nat)) (s : State), (∀ x ∈ l, 9 ≤ x.2 ∧ x.1 < 2 ^ x.2) →
    s.cfg = Capacities.infinite → s.outLen = 0 →
    ∃ t, packRun l s = .ok t ∧ t.outLen = (packWidth l + 7) / 8 ∧
      (∀ k, k < t.outLen →
        Memory.read t.outBuf k = some (BitVec.ofNat 8 (packValue l / 2 ^ (8 * k)))) ∧
      ∀ u : State, u.cfg = Capacities.infinite → u.inBuf = t.outBuf → u.inLen = t.outLen →
        u.hid.ip = 0 → u.hid.acc = 0 → u.hid.cnt = 0 →
        ∃ v, getAll (l.map Prod.snd) u = .ok (l.map fun x => some x.1, v) ∧
          ∀ w, 9 ≤ w → ∃ x, bbGet w v = .ok x ∧ x.hid.got = none

/-! ## The encoder -/

/-- ENC.INIT (`41_encoder.md` R120): CapacityExceeded where IN_LEN > IN_CAP, else a fresh encoder; the
forward dictionary holds the 256 single bytes and nothing else. -/
def Obligations.EncInitPreparesTheEncoder : Prop :=
  ∀ s : State,
    (s.cfg.inCap.fits s.inLen = true →
      exec .encInit s =
        .next { s with
          hid := { s.hid with
            acc := 0, cnt := 0, fdict := [], eNext := 256, eWidth := 9, omega := [], ip := 0 }
          phase := .encSym }) ∧
    (s.cfg.inCap.fits s.inLen = false →
      ∃ t, exec .encInit s = .next t ∧ EndedBy .capacityExceeded s t) ∧
    (∀ b : Byte, Forward.code? [] [b] = some b.toNat) ∧
    (∀ q : ByteSeq, q.length ≠ 1 → Forward.code? [] q = none)

/-- ENC.SYM with the input exhausted, and on a hit (`41_encoder.md` R122). -/
def Obligations.EncSymExtendsTheMatch : Prop :=
  ∀ s : State,
    (s.hid.ip = s.inLen → exec .encSym s = .next { s with phase := .encFinal }) ∧
    (s.hid.ip < s.inLen → s.cfg.inCap.fits s.inLen = true →
      (Forward.code? s.hid.fdict (s.hid.omega ++ [s.inValue s.hid.ip])).isSome = true →
      exec .encSym s =
        .next { s with
          hid := { s.hid with
            ip := s.hid.ip + 1
            omega := s.hid.omega ++ [s.inValue s.hid.ip] }
          phase := .encSym })

/-- ENC.SYM on a miss (`41_encoder.md` R122, R123): BB.PUT of the code of omega with the width as it
stands, then the insertion of omega ++ [k] under e_next, the increment, the width growth by "exceeds", and
the restart at k. No other key changes its code. -/
def Obligations.EncSymEmitsAndLearns : Prop :=
  ∀ (s : State) (c : Nat), s.hid.ip < s.inLen → s.cfg.inCap.fits s.inLen = true →
    Forward.code? s.hid.fdict (s.hid.omega ++ [s.inValue s.hid.ip]) = none →
    Forward.code? s.hid.fdict s.hid.omega = some c →
    s.cfg.outCap.fits (s.outLen + (s.hid.cnt + s.hid.eWidth) / 8) = true →
    s.cfg.dictCap.isFull s.hid.eNext = false →
    ∃ u t, exec (.bbPut c s.hid.eWidth) s = .next u ∧ exec .encSym s = .next t ∧
      t = { u with
        hid := { u.hid with
          ip := s.hid.ip + 1
          fdict := t.hid.fdict
          eNext := s.hid.eNext + 1
          eWidth := if s.hid.eNext + 1 > 2 ^ s.hid.eWidth then s.hid.eWidth + 1 else s.hid.eWidth
          omega := [s.inValue s.hid.ip] }
        phase := .encSym } ∧
      ∀ q, Forward.code? t.hid.fdict q =
        if q = s.hid.omega ++ [s.inValue s.hid.ip] then some s.hid.eNext
        else Forward.code? s.hid.fdict q

/-- ENC.SYM on a miss without room in OUT, or with the dictionary full, raises CapacityExceeded
(`41_encoder.md` R122, R124; `60_exceptions.md` R204). -/
def Obligations.EncSymCapacity : Prop :=
  ∀ (s : State) (c : Nat), s.hid.ip < s.inLen → s.cfg.inCap.fits s.inLen = true →
    Forward.code? s.hid.fdict (s.hid.omega ++ [s.inValue s.hid.ip]) = none →
    Forward.code? s.hid.fdict s.hid.omega = some c → s.cfg.outCap.fits s.outLen = true →
    (s.cfg.outCap.fits (s.outLen + (s.hid.cnt + s.hid.eWidth) / 8) = false ∨
      s.cfg.dictCap = .upTo s.hid.eNext) →
    ∃ t, exec .encSym s = .next t ∧ EndedBy .capacityExceeded s t

/-- ENC.FINAL (`41_encoder.md` R125): the code of omega is emitted with the current width where omega is
not empty, and phase becomes ENC_FLUSH; nothing is inserted. -/
def Obligations.EncFinalEmitsTheLastMatch : Prop :=
  ∀ s : State,
    (s.hid.omega = [] → exec .encFinal s = .next { s with phase := .encFlush }) ∧
    (∀ c, s.hid.omega ≠ [] → Forward.code? s.hid.fdict s.hid.omega = some c →
      s.cfg.outCap.fits (s.outLen + (s.hid.cnt + s.hid.eWidth) / 8) = true →
      ∃ u, exec (.bbPut c s.hid.eWidth) s = .next u ∧
        exec .encFinal s = .next { u with phase := .encFlush }) ∧
    (∀ c, s.hid.omega ≠ [] → Forward.code? s.hid.fdict s.hid.omega = some c →
      s.cfg.outCap.fits s.outLen = true →
      s.cfg.outCap.fits (s.outLen + (s.hid.cnt + s.hid.eWidth) / 8) = false →
      ∃ t, exec .encFinal s = .next t ∧ EndedBy .capacityExceeded s t)

/-- ENC.FLUSH (`41_encoder.md` R126): BB.FLUSH, then phase DONE_OK, where STATUS reads 0x02; without room
in OUT CapacityExceeded. -/
def Obligations.EncFlushEndsTheCommand : Prop :=
  ∀ s : State,
    (s.cfg.outCap.fits (s.outLen + (s.hid.cnt + 7) / 8) = true →
      ∃ u t, exec .bbFlush s = .next u ∧ exec .encFlush s = .next t ∧
        t = { u with phase := .doneOk } ∧ t.status = 0x02) ∧
    (s.cfg.outCap.fits s.outLen = true →
      s.cfg.outCap.fits (s.outLen + (s.hid.cnt + 7) / 8) = false →
      ∃ t, exec .encFlush s = .next t ∧ EndedBy .capacityExceeded s t)

/-! ## The decoder -/

/-- DEC.INIT (`42_decoder.md` R140): CapacityExceeded where IN_LEN > IN_CAP or ROWS · COLS > OUT_CAP, else a
fresh decoder, s not written; the reverse dictionary holds the 256 single bytes and nothing else. -/
def Obligations.DecInitPreparesTheDecoder : Prop :=
  ∀ s : State,
    (s.cfg.inCap.fits s.inLen = true → s.cfg.outCap.fits (s.rows * s.cols) = true →
      exec .decInit s =
        .next { s with
          hid := { s.hid with
            acc := 0, cnt := 0, rdict := [], dNext := 256, dWidth := 9, res := [], ip := 0 }
          phase := .decFirst }) ∧
    (s.cfg.inCap.fits s.inLen = false ∨ s.cfg.outCap.fits (s.rows * s.cols) = false →
      ∃ t, exec .decInit s = .next t ∧ EndedBy .capacityExceeded s t) ∧
    (∀ c : Nat, c < 256 → Reverse.seq? [] c = some [BitVec.ofNat 8 c]) ∧
    (∀ c : Nat, 256 ≤ c → Reverse.seq? [] c = none)

/-- DEC.FIRST where the stream holds a whole code (`42_decoder.md` R142, R143): the code is read with
d_width bits; one below 256 starts the result and nothing is inserted; one of 256 or more raises
DecodeCorruption. -/
def Obligations.DecFirstTakesALiteral : Prop :=
  ∀ (s : State) (c : Nat), s.cfg.inCap.fits s.inLen = true → s.hid.acc < 2 ^ s.hid.cnt →
    s.hid.ip + (s.hid.dWidth - s.hid.cnt + 7) / 8 ≤ s.inLen →
    c = pending s ((s.hid.dWidth - s.hid.cnt + 7) / 8) % 2 ^ s.hid.dWidth →
    (c < 256 → Reverse.seq? s.hid.rdict c = some [BitVec.ofNat 8 c] →
      exec .decFirst s =
        .next { s with
          hid := { s.hid with
            got := some c
            acc := pending s ((s.hid.dWidth - s.hid.cnt + 7) / 8) / 2 ^ s.hid.dWidth
            cnt := s.hid.cnt + 8 * ((s.hid.dWidth - s.hid.cnt + 7) / 8) - s.hid.dWidth
            ip := s.hid.ip + (s.hid.dWidth - s.hid.cnt + 7) / 8
            s := [BitVec.ofNat 8 c]
            res := s.hid.res ++ [BitVec.ofNat 8 c] }
          phase := .decNext }) ∧
    (256 ≤ c → ∃ t, exec .decFirst s = .next t ∧ EndedBy .decodeCorruption s t)

/-- DEC.FIRST and DEC.NEXT at the end of the stream (`42_decoder.md` R142, R145, R146; `40_bitbuffer.md`
R107): no error; phase becomes DEC_FINISH, and the leftover bits stay for DEC.FINISH to count. -/
def Obligations.EndOfStreamHandsOver : Prop :=
  ∀ (i : Instr) (s : State), i = .decFirst ∨ i = .decNext →
    s.cfg.inCap.fits s.inLen = true → s.hid.acc < 2 ^ s.hid.cnt →
    s.hid.ip ≤ s.inLen → s.inLen < s.hid.ip + (s.hid.dWidth - s.hid.cnt + 7) / 8 →
    exec i s =
      .next { s with
        hid := { s.hid with
          got := none
          acc := pending s (s.inLen - s.hid.ip)
          cnt := s.hid.cnt + 8 * (s.inLen - s.hid.ip)
          ip := s.inLen }
        phase := .decFinish }

/-- DEC.NEXT on a code above d_next, and DEC.NEXT that needs an insertion with the dictionary full
(`42_decoder.md` R145, R150, R152; `60_exceptions.md` R209): DecodeCorruption comes first. -/
def Obligations.DecNextErrors : Prop :=
  ∀ (s : State) (c : Nat), s.cfg.inCap.fits s.inLen = true → s.hid.acc < 2 ^ s.hid.cnt →
    s.hid.ip + (s.hid.dWidth - s.hid.cnt + 7) / 8 ≤ s.inLen →
    c = pending s ((s.hid.dWidth - s.hid.cnt + 7) / 8) % 2 ^ s.hid.dWidth →
    256 ≤ s.hid.dNext →
    (s.hid.dNext < c → ∃ t, exec .decNext s = .next t ∧ EndedBy .decodeCorruption s t) ∧
    (c ≤ s.hid.dNext → s.hid.dNext < 2 ^ s.hid.dWidth → s.cfg.dictCap = .upTo s.hid.dNext →
      (c < s.hid.dNext → (Reverse.seq? s.hid.rdict c).isSome) → s.hid.s ≠ [] →
      ∃ t, exec .decNext s = .next t ∧ EndedBy .capacityExceeded s t)

/-- DEC.NEXT on a legal code with the dictionary not full completes (`42_decoder.md` R145): it reads the
code, appends the entry, inserts s ++ [entry[0]] under d_next, widens by "reaches", and the entry is the new
s. No other code changes its sequence. -/
def Obligations.DecNextProcessesACode : Prop :=
  ∀ (s : State) (c : Nat) (k : Byte) (q : ByteSeq),
    s.cfg.inCap.fits s.inLen = true → s.hid.acc < 2 ^ s.hid.cnt →
    s.hid.ip + (s.hid.dWidth - s.hid.cnt + 7) / 8 ≤ s.inLen →
    c = pending s ((s.hid.dWidth - s.hid.cnt + 7) / 8) % 2 ^ s.hid.dWidth →
    256 ≤ s.hid.dNext → s.hid.dNext < 2 ^ s.hid.dWidth → s.cfg.dictCap.isFull s.hid.dNext = false →
    (c < s.hid.dNext ∧ Reverse.seq? s.hid.rdict c = some (k :: q) ∨
      c = s.hid.dNext ∧ ∃ r, s.hid.s = k :: r ∧ q = r ++ [k]) →
    ∃ t, exec .decNext s = .next t ∧
      t = { s with
        hid := { s.hid with
          got := some c
          acc := pending s ((s.hid.dWidth - s.hid.cnt + 7) / 8) / 2 ^ s.hid.dWidth
          cnt := s.hid.cnt + 8 * ((s.hid.dWidth - s.hid.cnt + 7) / 8) - s.hid.dWidth
          ip := s.hid.ip + (s.hid.dWidth - s.hid.cnt + 7) / 8
          res := s.hid.res ++ (k :: q)
          rdict := t.hid.rdict
          dNext := s.hid.dNext + 1
          dWidth := if s.hid.dNext + 1 ≥ 2 ^ s.hid.dWidth then s.hid.dWidth + 1 else s.hid.dWidth
          s := k :: q }
        phase := .decNext } ∧
      ∀ d, Reverse.seq? t.hid.rdict d =
        if d = s.hid.dNext then some (s.hid.s ++ [k]) else Reverse.seq? s.hid.rdict d

/-- LITERAL, KNOWN and SELF as a later code (`42_decoder.md` R145, R148, R149): the entry, which is rdict[c]
or s ++ [s[0]], is appended and becomes the new s. Where d_next < 2^d_width and the dictionary is not full,
s ++ [entry[0]] is inserted under d_next and the width grows by "reaches". Where d_next has reached 2^d_width
nothing is inserted and the width grows. That a class is an instruction of its own, which asks phase whether
its code is the first, is the model's choice (log 14, log 15). -/
def Obligations.LaterCodesAreProcessed : Prop :=
  ∀ (i : Instr) (s : State) (k : Byte) (q : ByteSeq), s.phase ≠ .decFirst →
    ((∃ w c, i = .literal w c ∧ Reverse.seq? s.hid.rdict c.toNat = some (k :: q)) ∨
      (∃ w c, i = .known w c ∧ Reverse.seq? s.hid.rdict c = some (k :: q)) ∨
      (∃ w c r, i = .selfRef w c ∧ s.hid.s = k :: r ∧ q = r ++ [k])) →
    (s.hid.dNext < 2 ^ s.hid.dWidth → s.cfg.dictCap.isFull s.hid.dNext = false →
      exec i s =
        .next { s with
          hid := { s.hid with
            res := s.hid.res ++ (k :: q)
            rdict := (s.hid.dNext, s.hid.s ++ [k]) :: s.hid.rdict
            dNext := s.hid.dNext + 1
            dWidth := if s.hid.dNext + 1 ≥ 2 ^ s.hid.dWidth then s.hid.dWidth + 1 else s.hid.dWidth
            s := k :: q }
          phase := .decNext }) ∧
    (2 ^ s.hid.dWidth ≤ s.hid.dNext →
      exec i s =
        .next { s with
          hid := { s.hid with
            res := s.hid.res ++ (k :: q), dWidth := s.hid.dWidth + 1, s := k :: q }
          phase := .decNext })

/-- LITERAL as the first code starts the result without an insertion; KNOWN, SELF and INVALID as the first
code raise DecodeCorruption (`42_decoder.md` R142, R143). Phase says which code is the first (log 15). -/
def Obligations.FirstCodes : Prop :=
  ∀ s : State, s.phase = .decFirst →
    (∀ (w : Nat) (c : Byte) (q : ByteSeq), Reverse.seq? s.hid.rdict c.toNat = some q →
      exec (.literal w c) s =
        .next { s with hid := { s.hid with s := q, res := s.hid.res ++ q }, phase := .decNext }) ∧
    (∀ w c : Nat, ∃ t, exec (.known w c) s = .next t ∧ EndedBy .decodeCorruption s t) ∧
    (∀ w c : Nat, ∃ t, exec (.selfRef w c) s = .next t ∧ EndedBy .decodeCorruption s t) ∧
    (∀ w c : Nat, ∃ t, exec (.invalid w c) s = .next t ∧ EndedBy .decodeCorruption s t)

/-- INVALID raises DecodeCorruption at once, in every state (`42_decoder.md` R150, `60_exceptions.md`
R201). -/
def Obligations.InvalidCodeIsCorruption : Prop :=
  ∀ (w c : Nat) (s : State), ∃ t, exec (.invalid w c) s = .next t ∧ EndedBy .decodeCorruption s t

/-- A later code that needs an insertion with the dictionary full raises CapacityExceeded
(`42_decoder.md` R145, R152; `60_exceptions.md` R204). -/
def Obligations.LaterCodesWithDictionaryFull : Prop :=
  ∀ (i : Instr) (s : State) (k : Byte) (q : ByteSeq), s.phase ≠ .decFirst →
    ((∃ w c, i = .literal w c ∧ Reverse.seq? s.hid.rdict c.toNat = some (k :: q)) ∨
      (∃ w c, i = .known w c ∧ Reverse.seq? s.hid.rdict c = some (k :: q)) ∨
      (∃ w c, i = .selfRef w c ∧ s.hid.s = k :: q)) →
    s.hid.dNext < 2 ^ s.hid.dWidth → s.cfg.dictCap = .upTo s.hid.dNext →
    ∃ t, exec i s = .next t ∧ EndedBy .capacityExceeded s t

/-- DEC.FINISH (`42_decoder.md` R155, R156). A result long enough: its first ROWS · COLS bytes go to OUT from
index 0 up, OUT_LEN = ROWS · COLS, phase DONE_OK, STATUS 0x02, and nothing else changes. A result too short:
TruncatedStream where the stream is empty or leftover bits remain, SizeMismatch otherwise. -/
def Obligations.DecFinishDeliversOrRefuses : Prop :=
  ∀ s : State,
    (s.rows * s.cols ≤ s.hid.res.length → s.cfg.outCap.fits (s.rows * s.cols) = true →
      ∃ m t, exec .decFinish s = .next t ∧ t.status = 0x02 ∧
        t = { s with outBuf := m, outLen := s.rows * s.cols, phase := .doneOk } ∧
        (∀ i, i < s.rows * s.cols → Memory.read m i = s.hid.res[i]?) ∧
        ∀ a, s.rows * s.cols ≤ a → Memory.read m a = Memory.read s.outBuf a) ∧
    (s.hid.res.length < s.rows * s.cols → s.inLen = 0 ∨ 0 < s.hid.cnt →
      ∃ t, exec .decFinish s = .next t ∧ EndedBy .truncatedStream s t) ∧
    (s.hid.res.length < s.rows * s.cols → s.inLen ≠ 0 → s.hid.cnt = 0 →
      ∃ t, exec .decFinish s = .next t ∧ EndedBy .sizeMismatch s t)

/-! ## Steps -/

/-- A step runs the command the host writes to CMD (`43_commands.md` R170): the instruction its value
decodes to, in the state without that move. Placing the command where the step fetches it does the same.
That the host's moves stand in a list is the model's choice (log 6, log 16). -/
def Obligations.StepRunsTheCommand : Prop :=
  (∀ (s : State) (v : Byte) (rest : List HostMove), s.host = .write .cmd v.toNat :: rest →
    decode .command [v] = .ok (decodeCmd v) ∧
      step s = exec (decodeCmd v) { s with host := rest }) ∧
  (∀ (s : State) (v : Byte), step (s.withFetchWord 8 v.toNat) = exec (decodeCmd v) s)

/-- A step with no move of the host, or with a pause, runs the micro-operation phase names, "the next and
only enabled step"; in IDLE, DONE_OK and DONE_ERR the CORE has none and holds its state (`10_state.md` R28,
`60_exceptions.md` R222). -/
def Obligations.StepRunsTheMicroOperation : Prop :=
  ∀ (s : State) (rest : List HostMove),
    (s.host = [] ∧ rest = [] ∨ s.host = .pause :: rest) →
    (s.phase = .idle ∨ s.phase = .doneOk ∨ s.phase = .doneErr → step s = .next { s with host := rest }) ∧
    (s.phase = .encInit → step s = exec .encInit { s with host := rest }) ∧
    (s.phase = .encSym → step s = exec .encSym { s with host := rest }) ∧
    (s.phase = .encFinal → step s = exec .encFinal { s with host := rest }) ∧
    (s.phase = .encFlush → step s = exec .encFlush { s with host := rest }) ∧
    (s.phase = .decInit → step s = exec .decInit { s with host := rest }) ∧
    (s.phase = .decFirst → step s = exec .decFirst { s with host := rest }) ∧
    (s.phase = .decNext → step s = exec .decNext { s with host := rest }) ∧
    (s.phase = .decFinish → step s = exec .decFinish { s with host := rest })

/-- A step at DEC.FIRST or DEC.NEXT runs the instruction its next code decodes to (`30_encoding.md` R88, R93;
`42_decoder.md` R142, R145): if some bytes hold the pending bits and the bytes of IN that BB.GET takes, and
they decode to i in the context of this decoder, then the step is BB.GET(d_width) and i after it. -/
def Obligations.StepRunsTheDecodedCode : Prop :=
  ∀ (s : State) (bytes : List Byte) (i : Instr), s.host = [] →
    s.phase = .decFirst ∨ s.phase = .decNext →
    s.cfg.inCap.fits s.inLen = true → s.hid.acc < 2 ^ s.hid.cnt →
    s.hid.ip + (s.hid.dWidth - s.hid.cnt + 7) / 8 ≤ s.inLen →
    leValue bytes = pending s ((s.hid.dWidth - s.hid.cnt + 7) / 8) →
    decode (.code s.hid.dWidth (decide (s.phase = .decFirst)) s.hid.dNext) bytes = .ok i →
    ∃ u, exec (.bbGet s.hid.dWidth) s = .next u ∧ u.phase = s.phase ∧ step s = exec i u

/-- A host that waits polls STATUS until DONE = 1 (`30_encoding.md` R94): until then the CORE steps as it
would with nothing to poll, and the wait stays. The list of moves is the model's choice (log 6). -/
def Obligations.WaitEndsAtDone : Prop :=
  ∀ (s : State) (rest : List HostMove), s.host = .wait :: rest →
    (s.status.getLsbD 1 = true → step s = .next { s with host := rest }) ∧
    (s.status.getLsbD 1 = false → s.phase = .idle → step s = .next s) ∧
    (s.status.getLsbD 1 = false → ∀ i, microOp s.phase = some i → step s = exec i s)

/-- Host writes of registers other than CMD (`10_state.md` R21, `70_reset_and_hazards.md` R239): STATUS, ERR
and OUT_LEN ignore them, busy or not. Writes of IN, IN_LEN, ROWS and COLS while BUSY = 1 are moves the model
does not give the host: it refuses them (log 7). -/
def Obligations.HostWritesRegisters : Prop :=
  ∀ (s : State) (v i : Nat) (b : Byte) (rest : List HostMove),
    (s.host = .write .status v :: rest ∨ s.host = .write .err v :: rest ∨
        s.host = .write .outLen v :: rest → step s = .next { s with host := rest }) ∧
    (s.phase.busy = true →
      (s.cfg.lenBits.holdsValue v = true → s.host = .write .inLen v :: rest →
        step s = .refused .busyWrite) ∧
      (s.cfg.dimBits.holdsValue v = true →
        s.host = .write .rows v :: rest ∨ s.host = .write .cols v :: rest →
        step s = .refused .busyWrite) ∧
      (s.cfg.inCap.hasIndex i = true → s.host = .load i b :: rest → step s = .refused .busyWrite))

/-- Host accesses to IN and OUT (`20_memory.md` R60, `10_state.md` R38): a byte written to IN while BUSY = 0
is the only one that changes; a read of OUT at DONE_OK below OUT_LEN returns the byte there; neither a read
of OUT nor of a register changes anything of the CORE; and while the CORE is at rest two reads of a byte of
OUT in a row, of the result or outside it, return the same (`20_memory.md` R70). The log of what the host has
seen, and the counter of free values, are the model's own (log 3, log 8, log 24). -/
def Obligations.HostAccessesBuffers : Prop :=
  (∀ (s : State) (i : Nat) (b : Byte) (rest : List HostMove), s.host = .load i b :: rest →
    s.phase.busy = false → s.cfg.inCap.hasIndex i = true →
    ∃ m, step s = .next { s with inBuf := m, host := rest } ∧ Memory.read m i = some b ∧
      ∀ a, a ≠ i → Memory.read m a = Memory.read s.inBuf a) ∧
  (∀ (s : State) (i : Nat) (b : Byte) (rest : List HostMove), s.host = .readOut i :: rest →
    s.phase = .doneOk → i < s.outLen → s.cfg.outCap.hasIndex i = true →
    Memory.read s.outBuf i = some b →
    step s = .next { s with seen := .out i b :: s.seen, host := rest }) ∧
  (∀ (s : State) (i : Nat) (rest : List HostMove), s.host = .readOut i :: rest →
    s.cfg.outCap.hasIndex i = true →
    ∃ seen free, step s = .next { s with seen := seen, free := free, host := rest } ∧
      (s.phase.busy = false → seen = .out i (s.outValue i) :: s.seen)) ∧
  (∀ (s : State) (i : Nat) (rest : List HostMove), s.host = .readOut i :: .readOut i :: rest →
    s.phase.busy = false → s.cfg.outCap.hasIndex i = true →
    ∃ t u b, step s = .next t ∧ step t = .next u ∧ u.seen = .out i b :: .out i b :: s.seen) ∧
  (∀ (s : State) (r : Reg) (rest : List HostMove), s.host = .read r :: rest →
    ∃ seen free, step s = .next { s with seen := seen, free := free, host := rest } ∧
      (s.phase.busy = false ∨ r = .cmd ∨ r = .status → seen = .reg r (s.reg r) :: s.seen))

/-- Results are stable (`43_commands.md` R179): at DONE_OK and DONE_ERR a step leaves STATUS, ERR, OUT_LEN
and every byte of OUT, also outside the result, as they are, unless the host writes a value other than NOP
to CMD or resets; and while BUSY = 0 the host may write IN, IN_LEN, ROWS and COLS, each of which changes
that alone. -/
def Obligations.ResultsAreStable : Prop :=
  (∀ s t : State, s.phase = .doneOk ∨ s.phase = .doneErr →
    (∀ v rest, s.host = .write .cmd v :: rest → v = 0) → (∀ rest, s.host ≠ .reset :: rest) →
    step s = .next t →
    t.status = s.status ∧ t.err = s.err ∧ t.outLen = s.outLen ∧ t.outBuf = s.outBuf ∧
      ∀ i, t.outValue i = s.outValue i) ∧
  (∀ (s : State) (rest : List HostMove), s.phase.busy = false →
    (∀ i b, s.host = .load i b :: rest → s.cfg.inCap.hasIndex i = true →
      ∃ m, step s = .next { s with inBuf := m, host := rest }) ∧
    (∀ v, s.host = .write .inLen v :: rest → s.cfg.lenBits.holdsValue v = true →
      step s = .next { s with inLen := v, host := rest }) ∧
    (∀ v, s.host = .write .rows v :: rest → s.cfg.dimBits.holdsValue v = true →
      step s = .next { s with rows := v, host := rest }) ∧
    (∀ v, s.host = .write .cols v :: rest → s.cfg.dimBits.holdsValue v = true →
      step s = .next { s with cols := v, host := rest }))

/-- After reset, on every CORE (`10_state.md` R42): the seven interface registers read 0 and phase is IDLE;
and a reset event, in every state, leaves just that, of the same CORE, with no byte of IN or OUT
(`70_reset_and_hazards.md` R230, R232). That no byte then holds a value, and that the host's moves go on, is
the model's choice (log 2, log 3, log 19). -/
def Obligations.ResetValues : Prop :=
  (∀ (cfg : Capacities) (r : Reg),
    (State.resetOf cfg).reg r = 0 ∧ (State.resetOf cfg).phase = .idle ∧
      (State.resetOf cfg).cfg = cfg) ∧
  (∀ (s : State) (rest : List HostMove), s.host = .reset :: rest →
    ∃ t, step s = .next t ∧ (∀ r : Reg, t.reg r = 0) ∧ t.phase = .idle ∧ t.cfg = s.cfg ∧
      t.inBuf = [] ∧ t.outBuf = [] ∧ t.host = rest ∧ t.seen = s.seen)

/-! ## The whole machine -/

/-- The state after reset meets the invariant, on every CORE whose capacities are in order; the CORE of
`State.reset` is one. -/
def Obligations.ResetMeetsTheInvariant : Prop :=
  (∀ cfg : Capacities, cfg.WF → Invariant (State.resetOf cfg)) ∧ Invariant State.reset

/-- Every step keeps the invariant: the registers, the hidden ones too, fit their widths (`10_state.md` R29 to
R31, R34; `40_bitbuffer.md` R110), ERR reports exactly the errors
(`10_state.md` R24), the buffers are in canonical form and inside their capacities, OUT holds exactly
OUT_LEN bytes where no error has ended the command, and inside a command acc < 2^cnt, the dictionaries are
in order and the widths are the least that serve (`10_state.md` R30, R32, R35; `41_encoder.md` R123,
`42_decoder.md` R157). -/
def Obligations.StepKeepsTheInvariant : Prop :=
  ∀ s t : State, Invariant s → step s = .next t → Invariant t

/-- The CORE never stops (`43_commands.md` R178, `42_decoder.md` R159): from every state that meets the
invariant a step answers a next state, whatever the bytes of IN are, if the host's next move is one the
model gives a meaning (log 7, log 9, log 10). -/
def Obligations.TheCoreNeverStops : Prop :=
  ∀ s : State, Invariant s → (∀ m rest, s.host = m :: rest → moveAllowed s m) →
    ∃ t, step s = .next t

/-- A step makes only the transitions of phase that the spec lists (`10_state.md` R28), or leaves phase as it
is, or is a reset. -/
def Obligations.PhaseTransitionsAreLegal : Prop :=
  ∀ s t : State, step s = .next t →
    t.phase = s.phase ∨ s.phase.mayBecome t.phase = true ∨
      (t.phase = .idle ∧ ∃ rest, s.host = .reset :: rest)

/-- No instruction changes IN, IN_LEN, ROWS, COLS, the capacities, or anything of the host; CMD changes only
by a command (`10_state.md` R22, R25, R26, R38, R40; `20_memory.md` R76). -/
def Obligations.InstructionsKeepTheOperands : Prop :=
  ∀ (i : Instr) (s t : State), exec i s = .next t →
    t.cfg = s.cfg ∧ t.inBuf = s.inBuf ∧ t.inLen = s.inLen ∧ t.rows = s.rows ∧ t.cols = s.cols ∧
      t.host = s.host ∧ t.seen = s.seen ∧ t.era = s.era ∧ (isCommand i = false → t.cmd = s.cmd)

/-- The encoder's registers are changed by ENC micro-operations only and the decoder's by DEC only, where no
error ends the command (`10_state.md` R20, R31, R34); commands change no hidden register. That a reserved
value, whose error leaves hidden state open by R208, keeps it too is the model's reading (log 17). -/
def Obligations.UnitsKeepToTheirRegisters : Prop :=
  ∀ (i : Instr) (s t : State), exec i s = .next t →
    (isCommand i = true → t.hid = s.hid) ∧
    (t.phase ≠ .doneErr → isDecoder i = false →
      t.hid.dNext = s.hid.dNext ∧ t.hid.dWidth = s.hid.dWidth ∧ t.hid.s = s.hid.s ∧
        t.hid.rdict = s.hid.rdict ∧ t.hid.res = s.hid.res) ∧
    (t.phase ≠ .doneErr → isEncoder i = false →
      t.hid.eNext = s.hid.eNext ∧ t.hid.eWidth = s.hid.eWidth ∧ t.hid.omega = s.hid.omega ∧
        t.hid.fdict = s.hid.fdict)

/-- OUT and OUT_LEN are written only by BB.PUT, BB.FLUSH, the ENC micro-operations that call them, and
DEC.FINISH (`20_memory.md` R69), where no error ends the command and no command starts. -/
def Obligations.OnlyTheWritersChangeOut : Prop :=
  ∀ (i : Instr) (s t : State),
    (i ∈ [.nop, .bbClear, .encInit, .decInit, .decFirst, .decNext] ∨ (∃ w, i = .bbGet w) ∨
      (∃ w c, i = .literal w c) ∨ (∃ w c, i = .known w c) ∨ (∃ w c, i = .selfRef w c)) →
    exec i s = .next t → t.phase ≠ .doneErr →
    t.outLen = s.outLen ∧ ∀ a, Memory.read t.outBuf a = Memory.read s.outBuf a

/-- An instruction other than a command that brings the CORE to DONE_ERR has raised an error, with all that
the spec says of the state after it (`60_exceptions.md` R206, R208). -/
def Obligations.ErrorsAreEnteredWhole : Prop :=
  ∀ (i : Instr) (s t : State), isCommand i = false → s.phase ≠ .doneErr → exec i s = .next t →
    t.phase = .doneErr → ∃ e, EndedBy e s t

/-- Which instruction can end with which error (`60_exceptions.md` R210): the encoder and the bit buffer
with CapacityExceeded only, the decoder with one of four, reserved values with IllegalCommand. -/
def Obligations.ErrorsByInstruction : Prop :=
  ∀ (i : Instr) (s t : State), exec i s = .next t →
    t.err = s.err ∨
    (isReserved i = true ∧ t.err = .illegalCommand) ∨
    ((i = .encode ∨ i = .decode) ∧ t.err = .none) ∨
    (isCommand i = false ∧ isDecoder i = false ∧ t.err = .capacityExceeded) ∨
    (isDecoder i = true ∧
      t.err ∈ [.decodeCorruption, .truncatedStream, .sizeMismatch, .capacityExceeded])

/-- The code widths never shrink, and grow by one bit at a time, but where INIT starts them anew
(`44_properties.md` R187, `41_encoder.md` R123). -/
def Obligations.WidthsAreMonotone : Prop :=
  ∀ (i : Instr) (s t : State), exec i s = .next t → t.phase ≠ .doneErr →
    (i ≠ .encInit → s.hid.eWidth ≤ t.hid.eWidth ∧ t.hid.eWidth ≤ s.hid.eWidth + 1) ∧
    (i ≠ .decInit → s.hid.dWidth ≤ t.hid.dWidth ∧ t.hid.dWidth ≤ s.hid.dWidth + 1)

/-- ENCODE of N symbols takes exactly N + 4 micro-operations to DONE_OK and no more to DONE_ERR
(`44_properties.md` R192, `70_reset_and_hazards.md` R246). R192 says fewer to DONE_ERR; ENC.FLUSH, the last of
the N + 4, can raise by R126, so the model says no more (log 27). -/
def Obligations.EncodeEndsInTime : Prop :=
  ∀ s : State, Invariant s → s.phase = .encInit → s.host = [] →
    (∃ t, core.run (s.inLen + 4) s = .next t ∧ (t.phase = .doneOk ∨ t.phase = .doneErr)) ∧
    (∀ k t, k < s.inLen + 4 → core.run k s = .next t → t.phase ≠ .doneOk)

/-- DECODE of M bytes ends after at most floor(8 · M / 9) + 3 micro-operations, on every byte sequence
(`70_reset_and_hazards.md` R246, `42_decoder.md` R139, R159). DEC.FINISH, the last of them, can raise (log
27). -/
def Obligations.DecodeEndsInTime : Prop :=
  ∀ s : State, Invariant s → s.phase = .decInit → s.host = [] →
    ∃ t, core.run (8 * s.inLen / 9 + 3) s = .next t ∧ (t.phase = .doneOk ∨ t.phase = .doneErr)

/-- Nothing a command computes depends on the hidden registers it starts from (`10_state.md` R41): two runs
from the same INIT phase that differ in them alone agree, after every number of steps, on all else. -/
def Obligations.HiddenStateDoesNotLeak : Prop :=
  ∀ (s : State) (h : Hidden) (k : Nat) (t : State), s.phase = .encInit ∨ s.phase = .decInit →
    s.host = [] → core.run k s = .next t →
    ∃ h', core.run k { s with hid := h } = .next { t with hid := h' }

/-- With finite capacities a command gives what it gives with infinite ones, or CapacityExceeded
(`43_commands.md` R176, R177; `60_exceptions.md` R204); with infinite ones ENCODE always succeeds
(`41_encoder.md` R128) and DECODE never ends with CapacityExceeded. -/
def Obligations.CapacitiesNeverChangeAResult : Prop :=
  (∀ (cfg : Capacities) (bytes : ByteSeq),
    encodeOn cfg bytes = encodeBytes bytes ∨ encodeOn cfg bytes = some (.error .capacityExceeded)) ∧
  (∀ (cfg : Capacities) (bytes : ByteSeq) (rows cols : Nat),
    decodeOn cfg bytes rows cols = decodeBytes bytes rows cols ∨
      decodeOn cfg bytes rows cols = some (.error .capacityExceeded)) ∧
  (∀ bytes : ByteSeq, ∃ out, encodeBytes bytes = some (.ok out)) ∧
  (∀ (bytes : ByteSeq) (rows cols : Nat),
    (∃ out, decodeBytes bytes rows cols = some (.ok out)) ∨
      ∃ e ∈ [ErrCode.decodeCorruption, .truncatedStream, .sizeMismatch],
        decodeBytes bytes rows cols = some (.error e))

/-- ENCODE and DECODE as the machine runs them compute the functions (`43_commands.md` R172, R173, R176,
R177): from the start of the command, with the operands in place, whatever the hidden registers, ERR and, for
ENCODE, ROWS and COLS hold, the CORE gives at DONE_OK the bytes and at DONE_ERR the error that the function
gives. -/
def Obligations.CommandsComputeTheFunctions : Prop :=
  (∀ (s : State) (bytes : ByteSeq), s.phase = .encInit → s.host = [] → s.outLen = 0 → s.outBuf = [] →
    s.inLen = bytes.length → (∀ i, i < bytes.length → Memory.read s.inBuf i = bytes[i]?) →
    ∃ t, core.run (bytes.length + 4) s = .next t ∧
      (t.phase = .doneOk ∧ encodeOn s.cfg bytes = some (.ok t.resultBytes) ∨
        t.phase = .doneErr ∧ encodeOn s.cfg bytes = some (.error t.err))) ∧
  (∀ (s : State) (bytes : ByteSeq), s.phase = .decInit → s.host = [] → s.outLen = 0 → s.outBuf = [] →
    s.inLen = bytes.length → (∀ i, i < bytes.length → Memory.read s.inBuf i = bytes[i]?) →
    ∃ t, core.run (8 * bytes.length / 9 + 3) s = .next t ∧
      (t.phase = .doneOk ∧ decodeOn s.cfg bytes s.rows s.cols = some (.ok t.resultBytes) ∨
        t.phase = .doneErr ∧ decodeOn s.cfg bytes s.rows s.cols = some (.error t.err)))

/-- Round trip (`44_properties.md` R185): decode(encode(B), rows, cols) = ok(B) whenever rows · cols =
len(B), the empty sequence among them; encode([]) = []. -/
def Obligations.RoundTrip : Prop :=
  (∀ (bytes : ByteSeq) (rows cols : Nat), rows * cols = bytes.length →
    ∃ stream, encodeBytes bytes = some (.ok stream) ∧
      decodeBytes stream rows cols = some (.ok bytes)) ∧
  encodeBytes [] = some (.ok [])

/-- The length of the output (`44_properties.md` R191): ENCODE of N symbols emits at most
ceil(N · w_N / 8) bytes, and at least 2 where N ≥ 1. -/
def Obligations.EncodedLengthIsBounded : Prop :=
  ∀ bytes stream : ByteSeq, encodeBytes bytes = some (.ok stream) →
    8 * stream.length ≤ bytes.length * codeWidth bytes.length + 7 ∧
      (bytes ≠ [] → 2 ≤ stream.length)

/-- The accumulator and its count hold every value the bit buffer makes (`40_bitbuffer.md` R102, R106, R110;
`44_properties.md` R194): no width passes WMAX; in BB.PUT, at every turn of its loop, and in BB.GET, at every
turn of its loop, acc fits ACC_BITS bits and cnt is at most ACC_BITS; and such a cnt fits bitlen(ACC_BITS)
bits. -/
def Obligations.AccumulatorHoldsTheBits : Prop :=
  (∀ (cfg : Capacities) (n : Nat), cfg.dictCap.fits n = true →
    cfg.wMax.fits (encWidthFor n) = true ∧ cfg.wMax.fits (decWidthFor n) = true) ∧
  (∀ (c w turns : Nat) (s t : State), s.cfg.wMax.fits w = true → s.hid.cnt < 8 →
    s.hid.acc < 2 ^ s.hid.cnt → c < 2 ^ w →
    drain turns
      { s with hid := { s.hid with acc := s.hid.acc ||| (c <<< s.hid.cnt), cnt := s.hid.cnt + w } } = .ok t →
    t.cfg.accBits.holdsValue t.hid.acc = true ∧ t.cfg.accBits.fits t.hid.cnt = true) ∧
  (∀ (w turns : Nat) (s t : State), s.cfg.wMax.fits w = true → s.hid.cnt < 8 →
    s.hid.acc < 2 ^ s.hid.cnt → fill w turns s = .ok t →
    t.cfg.accBits.holdsValue t.hid.acc = true ∧ t.cfg.accBits.fits t.hid.cnt = true) ∧
  (∀ (cfg : Capacities) (n : Nat), cfg.accBits.fits n = true → cfg.cntBits.holdsValue n = true)
end

