-- ==== Sys2Proof/Laws/Arith.lean ====
section
/-! SUPPORT. The arithmetic of widths, bytes and capacities. -/

namespace Sys2Proof

open Machine (leValue)

theorem lt_two_pow_bitlen (n : Nat) : n < 2 ^ bitlen n := by
  unfold bitlen
  split
  · omega
  · exact Nat.lt_log2_self

theorem bitlen_le_iff (n w : Nat) : bitlen n ≤ w ↔ n < 2 ^ w := by
  unfold bitlen
  split
  · next h => simp [h]
  · next h => rw [Nat.succ_le_iff, Nat.log2_lt h]

theorem Cap.fits_of_not_full {c : Cap} {n : Nat} (h : c.fits n = true) (hf : c.isFull n = false) :
    c.fits (n + 1) = true := by
  cases c <;> simp_all [Cap.fits, Cap.isFull]
  omega

theorem Cap.hasIndex_of_lt {c : Cap} {i n : Nat} (h : c.fits n = true) (hi : i < n) :
    c.hasIndex i = true := by
  cases c <;> simp_all [Cap.fits, Cap.hasIndex]
  omega

theorem Cap.hasIndex_iff_fits_succ {c : Cap} {i : Nat} : c.hasIndex i = c.fits (i + 1) := by
  cases c <;> simp [Cap.fits, Cap.hasIndex]

theorem Cap.fits_mono {c : Cap} {m n : Nat} (h : c.fits n = true) (hm : m ≤ n) : c.fits m = true := by
  cases c <;> simp_all [Cap.fits]
  omega

/-- In a capacity not exceeded, being full and having no index there are the same. -/
theorem Cap.isFull_eq_not_hasIndex {c : Cap} {n : Nat} (h : c.fits n = true) :
    c.isFull n = !c.hasIndex n := by
  cases c with
  | unbounded => rfl
  | upTo c =>
    have : n ≤ c := by simpa [Cap.fits] using h
    by_cases hn : n = c
    · simp [Cap.isFull, Cap.hasIndex, hn]
    · simp [Cap.isFull, Cap.hasIndex, hn, show n < c by omega]

/-- Unbounded capacities meet the constraints of `00_scope.md` R8. -/
theorem Capacities.infinite_wf : Capacities.infinite.WF := by
  refine ⟨?_, ?_, rfl⟩ <;> intro c h <;> cases h

theorem lowByte_toNat (v : Nat) : (lowByte v).toNat = v % 256 := by simp [lowByte]

theorem leValue_lt (q : List Byte) : leValue q < 2 ^ (8 * q.length) := by
  induction q with
  | nil => simp [leValue]
  | cons b q ih =>
    have hb := b.isLt
    have : 2 ^ (8 * (b :: q).length) = 256 * 2 ^ (8 * q.length) := by
      rw [List.length_cons, Nat.mul_succ, Nat.pow_add]; omega
    simp only [leValue]
    omega

theorem leBytes_length (n v : Nat) : (leBytes n v).length = n := by
  induction n generalizing v with
  | zero => rfl
  | succ n ih => simp [leBytes, ih]

/-- `n` bytes of a number stand for the number modulo 256^n. -/
theorem leValue_leBytes (n v : Nat) : leValue (leBytes n v) = v % 2 ^ (8 * n) := by
  induction n generalizing v with
  | zero => simp [leBytes, leValue, Nat.mod_one]
  | succ n ih =>
    rw [leBytes, leValue, ih, lowByte_toNat, Nat.shiftRight_eq_div_pow, Nat.mul_succ, Nat.add_comm (8 * n),
      Nat.pow_add, Nat.mod_mul]

namespace Machine

/-- The encoder's growth rule keeps the least width (`41_encoder.md` R123). -/
theorem grownEncWidth_encWidthFor {n : Nat} (hn : 256 ≤ n) :
    grownEncWidth (n + 1) (encWidthFor n) = encWidthFor (n + 1) := by
  have h1 : bitlen (n - 1) ≤ bitlen n := by
    rw [bitlen_le_iff]; have := lt_two_pow_bitlen n; omega
  have h2 : n < 2 ^ (bitlen (n - 1) + 1) := by
    have := lt_two_pow_bitlen (n - 1); rw [Nat.pow_succ]; omega
  have h3 := (bitlen_le_iff n (bitlen (n - 1) + 1)).mpr h2
  have h4 := bitlen_le_iff n (encWidthFor n)
  unfold grownEncWidth
  unfold encWidthFor at *
  simp only [Nat.add_sub_cancel]
  split <;> omega

/-- The decoder's growth rule keeps the least width (`42_decoder.md` R153). -/
theorem grownDecWidth_decWidthFor {n : Nat} :
    grownDecWidth (n + 1) (decWidthFor n) = decWidthFor (n + 1) := by
  have h1 : bitlen n ≤ bitlen (n + 1) := by
    rw [bitlen_le_iff]; have := lt_two_pow_bitlen (n + 1); omega
  have h2 : n + 1 < 2 ^ (bitlen n + 1) := by
    have := lt_two_pow_bitlen n
    have : 1 ≤ 2 ^ bitlen n := Nat.one_le_two_pow
    rw [Nat.pow_succ]; omega
  have h3 := (bitlen_le_iff (n + 1) (bitlen n + 1)).mpr
  have h4 := bitlen_le_iff (n + 1) (decWidthFor n)
  unfold grownDecWidth
  unfold decWidthFor at *
  split <;> omega

/-- A width grows by at most one bit in one turn (`41_encoder.md` R123). -/
theorem grownEncWidth_bounds (n w : Nat) : w ≤ grownEncWidth n w ∧ grownEncWidth n w ≤ w + 1 := by
  unfold grownEncWidth
  split <;> omega

/-- A width grows by at most one bit in one turn (`42_decoder.md` R153). -/
theorem grownDecWidth_bounds (n w : Nat) : w ≤ grownDecWidth n w ∧ grownDecWidth n w ≤ w + 1 := by
  unfold grownDecWidth
  split <;> omega

theorem le_two_pow_encWidthFor (n : Nat) : n ≤ 2 ^ encWidthFor n := by
  have := (bitlen_le_iff (n - 1) (encWidthFor n)).mp (Nat.le_max_right _ _)
  omega

theorem lt_two_pow_decWidthFor (n : Nat) : n < 2 ^ decWidthFor n :=
  (bitlen_le_iff n (decWidthFor n)).mp (Nat.le_max_right _ _)

theorem nine_le_encWidthFor (n : Nat) : 9 ≤ encWidthFor n := Nat.le_max_left _ _

theorem nine_le_decWidthFor (n : Nat) : 9 ≤ decWidthFor n := Nat.le_max_left _ _

end Machine

end Sys2Proof
end

