-- ==== Sys2Proof/Laws/Memory.lean ====
section
/-! SUPPORT. The byte buffers: a read after a write, and the canonical form, which every operation keeps. -/

namespace Sys2Proof.Machine.Memory

@[simp] theorem read_nil (i : Nat) : read [] i = none := rfl

@[simp] theorem read_write_same (m : Memory) (i : Nat) (b : Byte) : read (write m i b) i = some b := by
  induction m with
  | nil => simp [write, read]
  | cons x m ih =>
    obtain ⟨a, c⟩ := x
    simp only [write]
    split
    · simp [read]
    · split
      · simp [read]
      · next h1 h2 => simp [read, ih, Ne.symm h2]

theorem read_write_other (m : Memory) {i j : Nat} (b : Byte) (h : j ≠ i) :
    read (write m i b) j = read m j := by
  induction m with
  | nil => simp [write, read, h.symm]
  | cons x m ih =>
    obtain ⟨a, c⟩ := x
    simp only [write]
    split
    · simp [read, h.symm]
    · split
      · next h2 => simp [read, ← h2, h.symm]
      · simp [read, ih]

theorem mem_write {m : Memory} {i : Nat} {b : Byte} {x : Host.Cell} (h : x ∈ write m i b) :
    x = (i, b) ∨ x ∈ m := by
  induction m with
  | nil => simpa [write] using h
  | cons y m ih =>
    obtain ⟨a, c⟩ := y
    simp only [write] at h
    split at h
    · simp_all
    · split at h
      · simp only [List.mem_cons] at h ⊢; tauto
      · simp only [List.mem_cons] at h ⊢
        rcases h with h | h
        · exact .inr (.inl h)
        · exact (ih h).imp_right .inr

/-- A write keeps the canonical form. -/
theorem write_wf {m : Memory} (i : Nat) (b : Byte) (h : wf m) : wf (write m i b) := by
  induction m with
  | nil => simp [wf, write]
  | cons y m ih =>
    obtain ⟨a, c⟩ := y
    simp only [wf, List.map_cons, List.pairwise_cons] at h
    obtain ⟨h1, h2⟩ := h
    simp only [write]
    split
    · next hlt =>
      simp only [wf, List.map_cons, List.pairwise_cons, List.mem_cons]
      refine ⟨?_, h1, h2⟩
      rintro x (rfl | hx)
      · exact hlt
      · exact hlt.trans (h1 x hx)
    · split
      · next _ he => subst he; exact List.pairwise_cons.mpr ⟨h1, h2⟩
      · next hn he =>
        refine List.pairwise_cons.mpr ⟨?_, ih h2⟩
        intro x hx
        obtain ⟨z, hz, rfl⟩ := List.mem_map.mp hx
        rcases mem_write hz with rfl | hz
        · simp only; omega
        · exact h1 _ (List.mem_map_of_mem hz)

/-- A write at an index that exists keeps a buffer in order. -/
theorem write_ok {cap : Cap} {m : Memory} {i : Nat} (b : Byte) (h : BufferOk cap m)
    (hi : cap.hasIndex i = true) : BufferOk cap (write m i b) := by
  refine ⟨write_wf i b h.1, fun x hx => ?_⟩
  rcases mem_write hx with rfl | hx
  · exact hi
  · exact h.2 x hx

theorem ok_nil (cap : Cap) : BufferOk cap [] := ⟨List.Pairwise.nil, by simp⟩

/-- The buffers of the state after reset are in canonical form. -/
theorem reset_wf : wf State.reset.inBuf ∧ wf State.reset.outBuf :=
  ⟨List.Pairwise.nil, List.Pairwise.nil⟩

/-- A write above every listed index adds one entry at the end. -/
theorem write_above {m : Memory} {i : Nat} (b : Byte) (h : ∀ x ∈ m, x.1 < i) :
    write m i b = m ++ [(i, b)] := by
  induction m with
  | nil => rfl
  | cons y m ih =>
    obtain ⟨a, c⟩ := y
    have ha : a < i := h (a, c) (by simp)
    simp only [write, if_neg (show ¬i < a by omega), if_neg (show ¬i = a by omega), List.cons_append,
      List.cons.injEq, true_and]
    exact ih fun x hx => h x (List.mem_cons_of_mem _ hx)

theorem write_next {m : Memory} {n : Nat} (b : Byte) (h : m.map Prod.fst = List.range n) :
    (write m n b).map Prod.fst = List.range (n + 1) := by
  rw [write_above b, List.map_append, h, List.range_succ]
  · rfl
  · intro x hx
    have := List.mem_map_of_mem (f := Prod.fst) hx
    rw [h] at this
    simpa using this

theorem read_of_lt_all {m : Memory} {i : Nat} (h : ∀ x ∈ m, i < x.1) : read m i = none := by
  induction m with
  | nil => rfl
  | cons y m ih =>
    have := h y (by simp)
    simp only [read, if_neg (show ¬y.1 = i by omega)]
    exact ih fun x hx => h x (by simp [hx])

/-- Two buffers in canonical form that read alike are equal data. -/
theorem ext_of_read {m m' : Memory} (h : wf m) (h' : wf m') (hr : ∀ i, read m i = read m' i) :
    m = m' := by
  induction m generalizing m' with
  | nil =>
    cases m' with
    | nil => rfl
    | cons y m' => have := hr y.1; simp [read] at this
  | cons x m ih =>
    cases m' with
    | nil => have := hr x.1; simp [read] at this
    | cons y m' =>
      obtain ⟨a, b⟩ := x
      obtain ⟨c, d⟩ := y
      simp only [wf, List.map_cons, List.pairwise_cons] at h h'
      have above (k : Memory) (e : Nat) (hk : ∀ z ∈ k.map Prod.fst, e < z) (i : Nat) (hi : i ≤ e) :
          read k i = none :=
        read_of_lt_all fun z hz => lt_of_le_of_lt hi (hk _ (List.mem_map_of_mem hz))
      have hac : a = c := by
        rcases Nat.lt_trichotomy a c with hlt | heq | hgt
        · have := hr a
          simp [read, if_neg (show ¬c = a by omega), above m' c h'.1 a (by omega)] at this
        · exact heq
        · have := hr c
          simp [read, if_neg (show ¬a = c by omega), above m a h.1 c (by omega)] at this
      subst hac
      have hbd : b = d := by simpa [read] using hr a
      subst hbd
      congr 1
      refine ih h.2 h'.2 fun i => ?_
      by_cases hi : a = i
      · subst hi; rw [above m a h.1 a (le_refl _), above m' a h'.1 a (le_refl _)]
      · simpa [read, hi] using hr i

end Sys2Proof.Machine.Memory
end

