-- ==== Sys2Proof/Laws/State.lean ====
section
/-! SUPPORT. One lemma per field per named update of the state, true by rfl, so that no later proof unfolds
a record update. -/

namespace Sys2Proof.Machine

/-! ### raiseError (`60_exceptions.md` R206, R208) -/

section
variable (e : ErrCode) (s : State)
@[simp] theorem raiseError_cfg : (raiseError e s).cfg = s.cfg := rfl
@[simp] theorem raiseError_cmd : (raiseError e s).cmd = s.cmd := rfl
@[simp] theorem raiseError_err : (raiseError e s).err = e := rfl
@[simp] theorem raiseError_inLen : (raiseError e s).inLen = s.inLen := rfl
@[simp] theorem raiseError_rows : (raiseError e s).rows = s.rows := rfl
@[simp] theorem raiseError_cols : (raiseError e s).cols = s.cols := rfl
@[simp] theorem raiseError_outLen : (raiseError e s).outLen = 0 := rfl
@[simp] theorem raiseError_phase : (raiseError e s).phase = .doneErr := rfl
@[simp] theorem raiseError_hid : (raiseError e s).hid = freeHidden s.cfg s.free := rfl
@[simp] theorem raiseError_inBuf : (raiseError e s).inBuf = s.inBuf := rfl
@[simp] theorem raiseError_outBuf : (raiseError e s).outBuf = [] := rfl
@[simp] theorem raiseError_host : (raiseError e s).host = s.host := rfl
@[simp] theorem raiseError_seen : (raiseError e s).seen = s.seen := rfl
@[simp] theorem raiseError_era : (raiseError e s).era = s.era := rfl
@[simp] theorem raiseError_outEra : (raiseError e s).outEra = s.outEra + 1 := rfl
@[simp] theorem raiseError_free : (raiseError e s).free = s.free + 1 := rfl
end

/-! ### startCommand (`43_commands.md` R172, R173) -/

section
variable (p : Phase) (s : State)
@[simp] theorem startCommand_cfg : (startCommand p s).cfg = s.cfg := rfl
@[simp] theorem startCommand_cmd : (startCommand p s).cmd = s.cmd := rfl
@[simp] theorem startCommand_err : (startCommand p s).err = .none := rfl
@[simp] theorem startCommand_inLen : (startCommand p s).inLen = s.inLen := rfl
@[simp] theorem startCommand_rows : (startCommand p s).rows = s.rows := rfl
@[simp] theorem startCommand_cols : (startCommand p s).cols = s.cols := rfl
@[simp] theorem startCommand_outLen : (startCommand p s).outLen = 0 := rfl
@[simp] theorem startCommand_phase : (startCommand p s).phase = p := rfl
@[simp] theorem startCommand_hid : (startCommand p s).hid = s.hid := rfl
@[simp] theorem startCommand_inBuf : (startCommand p s).inBuf = s.inBuf := rfl
@[simp] theorem startCommand_outBuf : (startCommand p s).outBuf = [] := rfl
@[simp] theorem startCommand_host : (startCommand p s).host = s.host := rfl
@[simp] theorem startCommand_seen : (startCommand p s).seen = s.seen := rfl
@[simp] theorem startCommand_era : (startCommand p s).era = s.era := rfl
@[simp] theorem startCommand_outEra : (startCommand p s).outEra = s.outEra + 1 := rfl
@[simp] theorem startCommand_free : (startCommand p s).free = s.free := rfl
end

/-! ### illegalCommand (`43_commands.md` R175) -/

section
variable (s : State)
@[simp] theorem illegalCommand_cfg : (illegalCommand s).cfg = s.cfg := rfl
@[simp] theorem illegalCommand_cmd : (illegalCommand s).cmd = s.cmd := rfl
@[simp] theorem illegalCommand_err : (illegalCommand s).err = .illegalCommand := rfl
@[simp] theorem illegalCommand_inLen : (illegalCommand s).inLen = s.inLen := rfl
@[simp] theorem illegalCommand_rows : (illegalCommand s).rows = s.rows := rfl
@[simp] theorem illegalCommand_cols : (illegalCommand s).cols = s.cols := rfl
@[simp] theorem illegalCommand_outLen : (illegalCommand s).outLen = 0 := rfl
@[simp] theorem illegalCommand_phase : (illegalCommand s).phase = .doneErr := rfl
@[simp] theorem illegalCommand_hid : (illegalCommand s).hid = s.hid := rfl
@[simp] theorem illegalCommand_inBuf : (illegalCommand s).inBuf = s.inBuf := rfl
@[simp] theorem illegalCommand_outBuf : (illegalCommand s).outBuf = s.outBuf := rfl
@[simp] theorem illegalCommand_host : (illegalCommand s).host = s.host := rfl
@[simp] theorem illegalCommand_seen : (illegalCommand s).seen = s.seen := rfl
@[simp] theorem illegalCommand_era : (illegalCommand s).era = s.era := rfl
@[simp] theorem illegalCommand_outEra : (illegalCommand s).outEra = s.outEra := rfl
@[simp] theorem illegalCommand_free : (illegalCommand s).free = s.free := rfl
end

/-! ### resetCore (`70_reset_and_hazards.md` R230, R232) -/

section
variable (s : State)
@[simp] theorem resetCore_cfg : (resetCore s).cfg = s.cfg := rfl
@[simp] theorem resetCore_cmd : (resetCore s).cmd = 0 := rfl
@[simp] theorem resetCore_err : (resetCore s).err = .none := rfl
@[simp] theorem resetCore_inLen : (resetCore s).inLen = 0 := rfl
@[simp] theorem resetCore_rows : (resetCore s).rows = 0 := rfl
@[simp] theorem resetCore_cols : (resetCore s).cols = 0 := rfl
@[simp] theorem resetCore_outLen : (resetCore s).outLen = 0 := rfl
@[simp] theorem resetCore_phase : (resetCore s).phase = .idle := rfl
@[simp] theorem resetCore_hid : (resetCore s).hid = Hidden.reset := rfl
@[simp] theorem resetCore_inBuf : (resetCore s).inBuf = [] := rfl
@[simp] theorem resetCore_outBuf : (resetCore s).outBuf = [] := rfl
@[simp] theorem resetCore_host : (resetCore s).host = s.host := rfl
@[simp] theorem resetCore_seen : (resetCore s).seen = s.seen := rfl
@[simp] theorem resetCore_era : (resetCore s).era = s.era + 1 := rfl
@[simp] theorem resetCore_outEra : (resetCore s).outEra = s.outEra + 1 := rfl
@[simp] theorem resetCore_free : (resetCore s).free = s.free := rfl
end

/-! ### bbClear (`40_bitbuffer.md` R100) -/

section
variable (s : State)
@[simp] theorem bbClear_cfg : (bbClear s).cfg = s.cfg := rfl
@[simp] theorem bbClear_cmd : (bbClear s).cmd = s.cmd := rfl
@[simp] theorem bbClear_err : (bbClear s).err = s.err := rfl
@[simp] theorem bbClear_inLen : (bbClear s).inLen = s.inLen := rfl
@[simp] theorem bbClear_rows : (bbClear s).rows = s.rows := rfl
@[simp] theorem bbClear_cols : (bbClear s).cols = s.cols := rfl
@[simp] theorem bbClear_outLen : (bbClear s).outLen = s.outLen := rfl
@[simp] theorem bbClear_phase : (bbClear s).phase = s.phase := rfl
@[simp] theorem bbClear_inBuf : (bbClear s).inBuf = s.inBuf := rfl
@[simp] theorem bbClear_outBuf : (bbClear s).outBuf = s.outBuf := rfl
@[simp] theorem bbClear_host : (bbClear s).host = s.host := rfl
@[simp] theorem bbClear_seen : (bbClear s).seen = s.seen := rfl
@[simp] theorem bbClear_era : (bbClear s).era = s.era := rfl
@[simp] theorem bbClear_outEra : (bbClear s).outEra = s.outEra := rfl
@[simp] theorem bbClear_free : (bbClear s).free = s.free := rfl
@[simp] theorem bbClear_hid_ip : (bbClear s).hid.ip = s.hid.ip := rfl
@[simp] theorem bbClear_hid_acc : (bbClear s).hid.acc = 0 := rfl
@[simp] theorem bbClear_hid_cnt : (bbClear s).hid.cnt = 0 := rfl
@[simp] theorem bbClear_hid_eNext : (bbClear s).hid.eNext = s.hid.eNext := rfl
@[simp] theorem bbClear_hid_eWidth : (bbClear s).hid.eWidth = s.hid.eWidth := rfl
@[simp] theorem bbClear_hid_omega : (bbClear s).hid.omega = s.hid.omega := rfl
@[simp] theorem bbClear_hid_fdict : (bbClear s).hid.fdict = s.hid.fdict := rfl
@[simp] theorem bbClear_hid_dNext : (bbClear s).hid.dNext = s.hid.dNext := rfl
@[simp] theorem bbClear_hid_dWidth : (bbClear s).hid.dWidth = s.hid.dWidth := rfl
@[simp] theorem bbClear_hid_s : (bbClear s).hid.s = s.hid.s := rfl
@[simp] theorem bbClear_hid_rdict : (bbClear s).hid.rdict = s.hid.rdict := rfl
@[simp] theorem bbClear_hid_res : (bbClear s).hid.res = s.hid.res := rfl
@[simp] theorem bbClear_hid_got : (bbClear s).hid.got = s.hid.got := rfl
end

/-! ### encHit (`41_encoder.md` R122) -/

section
variable (k : Byte) (s : State)
@[simp] theorem encHit_cfg : (encHit k s).cfg = s.cfg := rfl
@[simp] theorem encHit_cmd : (encHit k s).cmd = s.cmd := rfl
@[simp] theorem encHit_err : (encHit k s).err = s.err := rfl
@[simp] theorem encHit_inLen : (encHit k s).inLen = s.inLen := rfl
@[simp] theorem encHit_rows : (encHit k s).rows = s.rows := rfl
@[simp] theorem encHit_cols : (encHit k s).cols = s.cols := rfl
@[simp] theorem encHit_outLen : (encHit k s).outLen = s.outLen := rfl
@[simp] theorem encHit_phase : (encHit k s).phase = .encSym := rfl
@[simp] theorem encHit_inBuf : (encHit k s).inBuf = s.inBuf := rfl
@[simp] theorem encHit_outBuf : (encHit k s).outBuf = s.outBuf := rfl
@[simp] theorem encHit_host : (encHit k s).host = s.host := rfl
@[simp] theorem encHit_seen : (encHit k s).seen = s.seen := rfl
@[simp] theorem encHit_era : (encHit k s).era = s.era := rfl
@[simp] theorem encHit_outEra : (encHit k s).outEra = s.outEra := rfl
@[simp] theorem encHit_free : (encHit k s).free = s.free := rfl
@[simp] theorem encHit_hid_ip : (encHit k s).hid.ip = s.hid.ip := rfl
@[simp] theorem encHit_hid_acc : (encHit k s).hid.acc = s.hid.acc := rfl
@[simp] theorem encHit_hid_cnt : (encHit k s).hid.cnt = s.hid.cnt := rfl
@[simp] theorem encHit_hid_eNext : (encHit k s).hid.eNext = s.hid.eNext := rfl
@[simp] theorem encHit_hid_eWidth : (encHit k s).hid.eWidth = s.hid.eWidth := rfl
@[simp] theorem encHit_hid_omega : (encHit k s).hid.omega = s.hid.omega ++ [k] := rfl
@[simp] theorem encHit_hid_fdict : (encHit k s).hid.fdict = s.hid.fdict := rfl
@[simp] theorem encHit_hid_dNext : (encHit k s).hid.dNext = s.hid.dNext := rfl
@[simp] theorem encHit_hid_dWidth : (encHit k s).hid.dWidth = s.hid.dWidth := rfl
@[simp] theorem encHit_hid_s : (encHit k s).hid.s = s.hid.s := rfl
@[simp] theorem encHit_hid_rdict : (encHit k s).hid.rdict = s.hid.rdict := rfl
@[simp] theorem encHit_hid_res : (encHit k s).hid.res = s.hid.res := rfl
@[simp] theorem encHit_hid_got : (encHit k s).hid.got = s.hid.got := rfl
end

/-! ### learn (`41_encoder.md` R122) -/

section
variable (k : Byte) (s : State)
@[simp] theorem learn_cfg : (learn k s).cfg = s.cfg := rfl
@[simp] theorem learn_cmd : (learn k s).cmd = s.cmd := rfl
@[simp] theorem learn_err : (learn k s).err = s.err := rfl
@[simp] theorem learn_inLen : (learn k s).inLen = s.inLen := rfl
@[simp] theorem learn_rows : (learn k s).rows = s.rows := rfl
@[simp] theorem learn_cols : (learn k s).cols = s.cols := rfl
@[simp] theorem learn_outLen : (learn k s).outLen = s.outLen := rfl
@[simp] theorem learn_phase : (learn k s).phase = .encSym := rfl
@[simp] theorem learn_inBuf : (learn k s).inBuf = s.inBuf := rfl
@[simp] theorem learn_outBuf : (learn k s).outBuf = s.outBuf := rfl
@[simp] theorem learn_host : (learn k s).host = s.host := rfl
@[simp] theorem learn_seen : (learn k s).seen = s.seen := rfl
@[simp] theorem learn_era : (learn k s).era = s.era := rfl
@[simp] theorem learn_outEra : (learn k s).outEra = s.outEra := rfl
@[simp] theorem learn_free : (learn k s).free = s.free := rfl
@[simp] theorem learn_hid_ip : (learn k s).hid.ip = s.hid.ip := rfl
@[simp] theorem learn_hid_acc : (learn k s).hid.acc = s.hid.acc := rfl
@[simp] theorem learn_hid_cnt : (learn k s).hid.cnt = s.hid.cnt := rfl
@[simp] theorem learn_hid_eNext : (learn k s).hid.eNext = s.hid.eNext + 1 := rfl
@[simp] theorem learn_hid_eWidth : (learn k s).hid.eWidth = grownEncWidth (s.hid.eNext + 1) s.hid.eWidth := rfl
@[simp] theorem learn_hid_omega : (learn k s).hid.omega = [k] := rfl
@[simp] theorem learn_hid_fdict : (learn k s).hid.fdict = (s.hid.omega ++ [k], s.hid.eNext) :: s.hid.fdict := rfl
@[simp] theorem learn_hid_dNext : (learn k s).hid.dNext = s.hid.dNext := rfl
@[simp] theorem learn_hid_dWidth : (learn k s).hid.dWidth = s.hid.dWidth := rfl
@[simp] theorem learn_hid_s : (learn k s).hid.s = s.hid.s := rfl
@[simp] theorem learn_hid_rdict : (learn k s).hid.rdict = s.hid.rdict := rfl
@[simp] theorem learn_hid_res : (learn k s).hid.res = s.hid.res := rfl
@[simp] theorem learn_hid_got : (learn k s).hid.got = s.hid.got := rfl
end

/-! ### startSequence (`42_decoder.md` R142) -/

section
variable (q : ByteSeq) (s : State)
@[simp] theorem startSequence_cfg : (startSequence q s).cfg = s.cfg := rfl
@[simp] theorem startSequence_cmd : (startSequence q s).cmd = s.cmd := rfl
@[simp] theorem startSequence_err : (startSequence q s).err = s.err := rfl
@[simp] theorem startSequence_inLen : (startSequence q s).inLen = s.inLen := rfl
@[simp] theorem startSequence_rows : (startSequence q s).rows = s.rows := rfl
@[simp] theorem startSequence_cols : (startSequence q s).cols = s.cols := rfl
@[simp] theorem startSequence_outLen : (startSequence q s).outLen = s.outLen := rfl
@[simp] theorem startSequence_phase : (startSequence q s).phase = .decNext := rfl
@[simp] theorem startSequence_inBuf : (startSequence q s).inBuf = s.inBuf := rfl
@[simp] theorem startSequence_outBuf : (startSequence q s).outBuf = s.outBuf := rfl
@[simp] theorem startSequence_host : (startSequence q s).host = s.host := rfl
@[simp] theorem startSequence_seen : (startSequence q s).seen = s.seen := rfl
@[simp] theorem startSequence_era : (startSequence q s).era = s.era := rfl
@[simp] theorem startSequence_outEra : (startSequence q s).outEra = s.outEra := rfl
@[simp] theorem startSequence_free : (startSequence q s).free = s.free := rfl
@[simp] theorem startSequence_hid_ip : (startSequence q s).hid.ip = s.hid.ip := rfl
@[simp] theorem startSequence_hid_acc : (startSequence q s).hid.acc = s.hid.acc := rfl
@[simp] theorem startSequence_hid_cnt : (startSequence q s).hid.cnt = s.hid.cnt := rfl
@[simp] theorem startSequence_hid_eNext : (startSequence q s).hid.eNext = s.hid.eNext := rfl
@[simp] theorem startSequence_hid_eWidth : (startSequence q s).hid.eWidth = s.hid.eWidth := rfl
@[simp] theorem startSequence_hid_omega : (startSequence q s).hid.omega = s.hid.omega := rfl
@[simp] theorem startSequence_hid_fdict : (startSequence q s).hid.fdict = s.hid.fdict := rfl
@[simp] theorem startSequence_hid_dNext : (startSequence q s).hid.dNext = s.hid.dNext := rfl
@[simp] theorem startSequence_hid_dWidth : (startSequence q s).hid.dWidth = s.hid.dWidth := rfl
@[simp] theorem startSequence_hid_s : (startSequence q s).hid.s = q := rfl
@[simp] theorem startSequence_hid_rdict : (startSequence q s).hid.rdict = s.hid.rdict := rfl
@[simp] theorem startSequence_hid_res : (startSequence q s).hid.res = s.hid.res ++ q := rfl
@[simp] theorem startSequence_hid_got : (startSequence q s).hid.got = s.hid.got := rfl
end

end Sys2Proof.Machine
end

