-- ==== Sys2Proof/Laws/Run.lean ====
section
/-! SUPPORT. Runs: how a piece of pseudocode goes on, and how a micro-operation ends. -/

namespace Sys2Proof.Machine

variable {α β : Type}

@[simp] theorem ok_bind (a : α) (f : α → Run β) : ((.ok a : Run α) >>= f) = f a := rfl

@[simp] theorem error_bind (e : Stop) (f : α → Run β) : ((.error e : Run α) >>= f) = .error e := rfl

/-- A sequence goes on only where both parts do. -/
theorem bind_eq_ok {x : Run α} {f : α → Run β} {b : β} (h : (x >>= f) = .ok b) :
    ∃ a, x = .ok a ∧ f a = .ok b := by
  cases x with
  | ok a => exact ⟨a, rfl, h⟩
  | error e => cases h

/-- A sequence stops in its first part or in its second. -/
theorem bind_eq_error {x : Run α} {f : α → Run β} {e : Stop} (h : (x >>= f) = .error e) :
    x = .error e ∨ ∃ a, x = .ok a ∧ f a = .error e := by
  cases x with
  | ok a => exact .inr ⟨a, rfl, h⟩
  | error e' => exact .inl (by simpa using h)

@[simp] theorem raiseIf_true (e : ErrCode) : raiseIf true e = .error (.raise e) := rfl

@[simp] theorem raiseIf_false (e : ErrCode) : raiseIf false e = .ok () := rfl

@[simp] theorem present_some (a : α) : present (some a) = .ok a := rfl

@[simp] theorem present_none : present (none : Option α) = .error (.fault .absentEntry) := rfl

@[simp] theorem firstByte_cons (b : Byte) (q : ByteSeq) : firstByte (b :: q) = .ok b := rfl

theorem raiseIf_eq_ok {b : Bool} {e : ErrCode} {u : Unit} (h : raiseIf b e = .ok u) : b = false := by
  cases b <;> simp_all

theorem raiseIf_eq_error {b : Bool} {e : ErrCode} {x : Stop} (h : raiseIf b e = .error x) :
    b = true ∧ x = .raise e := by
  cases b <;> simp_all

theorem present_eq_ok {o : Option α} {a : α} (h : present o = .ok a) : o = some a := by
  cases o <;> simp_all

theorem present_eq_error {o : Option α} {x : Stop} (h : present o = .error x) :
    o = none ∧ x = .fault .absentEntry := by
  cases o <;> simp_all

@[simp] theorem conclude_ok (s₀ s : State) : conclude s₀ (.ok s) = .next s := rfl

@[simp] theorem conclude_raise (s₀ : State) (e : ErrCode) :
    conclude s₀ (.error (.raise e)) = .next (raiseError e s₀) := rfl

@[simp] theorem conclude_fault (s₀ : State) (f : Fault) :
    conclude s₀ (.error (.fault f)) = .fault f := rfl

/-- A micro-operation that answers a next state has run to its end or has raised an error. -/
theorem conclude_eq_next {s₀ t : State} {x : Run State} (h : conclude s₀ x = .next t) :
    x = .ok t ∨ ∃ e, x = .error (.raise e) ∧ t = raiseError e s₀ := by
  match x, h with
  | .ok s, h => left; cases h; rfl
  | .error (.raise e), h => right; cases h; exact ⟨e, rfl, rfl⟩

/-- A micro-operation never refuses. -/
theorem conclude_ne_refused {s₀ : State} {x : Run State} {r : Refusal} :
    conclude s₀ x ≠ .refused r := by
  match x with
  | .ok s => simp
  | .error (.raise e) => simp
  | .error (.fault f) => simp

/-- An accepted or dropped command always answers a next state. -/
theorem acceptCmd_eq (v : BitVec 8) (act : State → State) (s : State) :
    acceptCmd v act s = .next (if s.phase.busy then s else act { s with cmd := v }) := by
  unfold acceptCmd; split <;> rfl

end Sys2Proof.Machine
end

