-- ==== Sys2Proof/Laws/BitBuffer.lean ====
section
/-! SUPPORT. The bit buffer in closed form: what BB.PUT, BB.FLUSH and BB.GET do, said once. -/

namespace Sys2Proof.Machine

/-- Or-ing a number in above the valid bits adds it there (`40_bitbuffer.md` R102). -/
theorem or_shiftLeft_eq_add {acc n : Nat} (v : Nat) (h : acc < 2 ^ n) :
    acc ||| (v <<< n) = acc + v * 2 ^ n := by
  rw [Nat.or_comm, ← Nat.shiftLeft_add_eq_or_of_lt h, Nat.shiftLeft_eq, Nat.add_comm]

/-! ## OUT -/

/-- The effect of `n` turns of the drain loop. -/
def drained (n : Nat) (s : State) : State :=
  { s with
    hid := { s.hid with acc := s.hid.acc >>> (8 * n), cnt := s.hid.cnt - 8 * n }
    outBuf := loadBytes s.outLen (leBytes n s.hid.acc) s.outBuf
    outLen := s.outLen + n }

/-- out_byte with room in OUT (`40_bitbuffer.md` R103). -/
theorem outByte_ok {s : State} (b : Byte) (h : s.cfg.outCap.fits (s.outLen + 1) = true) :
    outByte b s =
      .ok { s with outBuf := Memory.write s.outBuf s.outLen b, outLen := s.outLen + 1 } := by
  have hi : s.cfg.outCap.hasIndex s.outLen = true := Cap.hasIndex_of_lt h (by omega)
  have hf : s.cfg.outCap.isFull s.outLen = false := by
    rw [Cap.isFull_eq_not_hasIndex (Cap.fits_mono h (by omega)), hi]; rfl
  simp [outByte, storeOut, hf, hi]

/-- out_byte with OUT full (`40_bitbuffer.md` R103). -/
theorem outByte_full {s : State} (b : Byte) (h : s.cfg.outCap.isFull s.outLen = true) :
    outByte b s = .error (.raise .capacityExceeded) := by
  simp [outByte, h]

/-- Everything out_byte can do from a state whose OUT_LEN does not exceed OUT_CAP. -/
theorem outByte_cases {s : State} (b : Byte) (h : s.cfg.outCap.fits s.outLen = true) :
    (s.cfg.outCap.fits (s.outLen + 1) = true ∧
        outByte b s =
          .ok { s with outBuf := Memory.write s.outBuf s.outLen b, outLen := s.outLen + 1 }) ∨
      (s.cfg.outCap.fits (s.outLen + 1) = false ∧
        outByte b s = .error (.raise .capacityExceeded)) := by
  cases hf : s.cfg.outCap.fits (s.outLen + 1) with
  | true => exact .inl ⟨rfl, outByte_ok b hf⟩
  | false =>
    refine .inr ⟨rfl, outByte_full b ?_⟩
    rw [Cap.isFull_eq_not_hasIndex h, Cap.hasIndex_iff_fits_succ, hf]; rfl

/-- The drain loop with room for its bytes. -/
theorem drain_ok (n : Nat) {s : State}
    (h : s.cfg.outCap.fits (s.outLen + n) = true) : drain n s = .ok (drained n s) := by
  induction n generalizing s with
  | zero => simp [drain, drained, leBytes, loadBytes]
  | succ n ih =>
    rw [drain, outByte_ok _ (Cap.fits_mono h (by omega))]
    simp only [ok_bind]
    rw [ih (by simpa [Nat.add_assoc, Nat.add_comm, Nat.add_left_comm] using h)]
    simp only [drained, leBytes, loadBytes, ← Nat.shiftRight_add, Nat.sub_sub, Nat.mul_succ,
      Nat.add_comm 8, Nat.add_assoc, Nat.add_comm 1]

/-- The drain loop without room for its bytes. -/
theorem drain_full (n : Nat) {s : State} (h₀ : s.cfg.outCap.fits s.outLen = true)
    (h : s.cfg.outCap.fits (s.outLen + n) = false) :
    drain n s = .error (.raise .capacityExceeded) := by
  induction n generalizing s with
  | zero => simp_all
  | succ n ih =>
    rw [drain]
    rcases outByte_cases (lowByte s.hid.acc) h₀ with ⟨h1, h2⟩ | ⟨h1, h2⟩
    · rw [h2, ok_bind, ih h1]
      simpa [Nat.add_assoc, Nat.add_comm, Nat.add_left_comm] using h
    · rw [h2, error_bind]

/-- The effect of BB.PUT(c, w). -/
def putState (c w : Nat) (s : State) : State :=
  drained ((s.hid.cnt + w) / 8)
    { s with hid := { s.hid with acc := s.hid.acc ||| (c <<< s.hid.cnt), cnt := s.hid.cnt + w } }

/-- BB.PUT with room for its bytes (`40_bitbuffer.md` R102). -/
theorem bbPut_ok {c w : Nat} {s : State}
    (h : s.cfg.outCap.fits (s.outLen + (s.hid.cnt + w) / 8) = true) :
    bbPut c w s = .ok (putState c w s) := drain_ok _ h

/-- BB.PUT without room for its bytes. -/
theorem bbPut_full {c w : Nat} {s : State} (h₀ : s.cfg.outCap.fits s.outLen = true)
    (h : s.cfg.outCap.fits (s.outLen + (s.hid.cnt + w) / 8) = false) :
    bbPut c w s = .error (.raise .capacityExceeded) := drain_full _ h₀ h

/-- Everything BB.PUT can do. -/
theorem bbPut_cases (c w : Nat) {s : State} (h₀ : s.cfg.outCap.fits s.outLen = true) :
    (s.cfg.outCap.fits (s.outLen + (s.hid.cnt + w) / 8) = true ∧
        bbPut c w s = .ok (putState c w s)) ∨
      (s.cfg.outCap.fits (s.outLen + (s.hid.cnt + w) / 8) = false ∧
        bbPut c w s = .error (.raise .capacityExceeded)) := by
  cases h : s.cfg.outCap.fits (s.outLen + (s.hid.cnt + w) / 8) with
  | true => exact .inl ⟨rfl, bbPut_ok h⟩
  | false => exact .inr ⟨rfl, bbPut_full h₀ h⟩

/-- Everything BB.FLUSH can do (`40_bitbuffer.md` R104). -/
theorem bbFlush_cases {s : State} (h₀ : s.cfg.outCap.fits s.outLen = true) :
    (s.cfg.outCap.fits (s.outLen + (s.hid.cnt + 7) / 8) = true ∧
        bbFlush s = .ok (drained ((s.hid.cnt + 7) / 8) s)) ∨
      (s.cfg.outCap.fits (s.outLen + (s.hid.cnt + 7) / 8) = false ∧
        bbFlush s = .error (.raise .capacityExceeded)) := by
  cases h : s.cfg.outCap.fits (s.outLen + (s.hid.cnt + 7) / 8) with
  | true => exact .inl ⟨rfl, drain_ok _ h⟩
  | false => exact .inr ⟨rfl, drain_full _ h₀ h⟩

/-- The pending bits after `n` bytes have left keep the invariant acc < 2^cnt (`40_bitbuffer.md` R101). -/
theorem shiftRight_lt {acc cnt : Nat} (n : Nat) (h : acc < 2 ^ cnt) : acc >>> n < 2 ^ (cnt - n) := by
  rw [Nat.shiftRight_eq_div_pow]
  by_cases hn : n ≤ cnt
  · rw [Nat.div_lt_iff_lt_mul (by positivity), ← Nat.pow_add, Nat.sub_add_cancel hn]; exact h
  · have : acc / 2 ^ n = 0 :=
      Nat.div_eq_of_lt (h.trans_le (Nat.pow_le_pow_right (by omega) (by omega)))
    rw [this]; positivity

/-- A code put above the pending bits keeps the invariant acc < 2^cnt (`40_bitbuffer.md` R101). -/
theorem or_shiftLeft_lt {acc cnt c w : Nat} (h : acc < 2 ^ cnt) (hc : c < 2 ^ w) :
    acc ||| (c <<< cnt) < 2 ^ (cnt + w) := by
  rw [or_shiftLeft_eq_add c h, Nat.pow_add]
  have : (c + 1) * 2 ^ cnt ≤ 2 ^ w * 2 ^ cnt := Nat.mul_le_mul_right _ hc
  rw [Nat.add_mul, Nat.one_mul] at this
  rw [Nat.mul_comm (2 ^ cnt)]
  omega

/-! ## The bytes loaded -/

theorem read_loadBytes_below {i j : Nat} (q : List Byte) (m : Memory) (h : j < i) :
    Memory.read (loadBytes i q m) j = Memory.read m j := by
  induction q generalizing i m with
  | nil => rfl
  | cons b q ih => rw [loadBytes, ih _ (by omega), Memory.read_write_other _ _ (by omega)]

theorem read_loadBytes_above {i j : Nat} (q : List Byte) (m : Memory) (h : i + q.length ≤ j) :
    Memory.read (loadBytes i q m) j = Memory.read m j := by
  induction q generalizing i m with
  | nil => rfl
  | cons b q ih =>
    simp only [List.length_cons] at h
    rw [loadBytes, ih _ (by omega), Memory.read_write_other _ _ (by omega)]

theorem read_loadBytes {i k : Nat} (q : List Byte) (m : Memory) (h : k < q.length) :
    Memory.read (loadBytes i q m) (i + k) = q[k]? := by
  induction q generalizing i k m with
  | nil => simp at h
  | cons b q ih =>
    rw [loadBytes]
    cases k with
    | zero => simp [read_loadBytes_below (i := i + 1) (j := i) q _ (by omega)]
    | succ k =>
      have := ih (i := i + 1) (Memory.write m i b) (k := k) (by simpa using h)
      rw [show i + (k + 1) = i + 1 + k by omega, this]; rfl

theorem loadBytes_ok {cap : Cap} (q : List Byte) {i : Nat} {m : Memory} (h : BufferOk cap m)
    (hq : cap.fits (i + q.length) = true) : BufferOk cap (loadBytes i q m) := by
  induction q generalizing i m with
  | nil => exact h
  | cons b q ih =>
    simp only [List.length_cons] at hq
    exact ih (Memory.write_ok b h (Cap.hasIndex_of_lt hq (by omega)))
      (by rwa [Nat.add_assoc, Nat.add_comm 1])

theorem loadBytes_keys (q : List Byte) {n : Nat} {m : Memory} (h : m.map Prod.fst = List.range n) :
    (loadBytes n q m).map Prod.fst = List.range (n + q.length) := by
  induction q generalizing n m with
  | nil => simpa [loadBytes] using h
  | cons b q ih =>
    rw [loadBytes, ih (Memory.write_next b h), List.length_cons, Nat.add_assoc, Nat.add_comm 1]

/-! ## IN -/

/-- The effect of `n` turns of the loop of BB.GET. -/
def filled (n : Nat) (s : State) : State :=
  { s with
    hid := { s.hid with acc := pending s n, cnt := s.hid.cnt + 8 * n, ip := s.hid.ip + n } }

theorem inBytes_length (s : State) (i n : Nat) : (inBytes s i n).length = n := by
  induction n generalizing i with
  | zero => rfl
  | succ n ih => simp [inBytes, ih]

theorem pending_lt {s : State} (n : Nat) (h : s.hid.acc < 2 ^ s.hid.cnt) :
    pending s n < 2 ^ (s.hid.cnt + 8 * n) := by
  have := or_shiftLeft_lt h (leValue_lt (inBytes s s.hid.ip n))
  rwa [inBytes_length, or_shiftLeft_eq_add _ h] at this

/-- The turns the loop of BB.GET(w) makes: until `w` bits are there or IN is exhausted. -/
def fillTurns (w : Nat) (s : State) : Nat :=
  min ((w - s.hid.cnt + 7) / 8) (s.inLen - s.hid.ip)

/-- The loop of BB.GET, with turns enough, on a state that keeps the invariant acc < 2^cnt. -/
theorem fill_eq (w : Nat) {n : Nat} {s : State}
    (hin : s.cfg.inCap.fits s.inLen = true) (hacc : s.hid.acc < 2 ^ s.hid.cnt)
    (hn : (w - s.hid.cnt + 7) / 8 ≤ n) :
    fill w n s = .ok (filled (fillTurns w s) s) := by
  induction n generalizing s with
  | zero =>
    have : fillTurns w s = 0 := by unfold fillTurns; omega
    simp [fill, this, filled, pending, inBytes, leValue]
  | succ n ih =>
    rw [fill]
    split
    · have : fillTurns w s = 0 := by unfold fillTurns; omega
      simp [this, filled, pending, inBytes, leValue]
    · split
      · have : fillTurns w s = 0 := by unfold fillTurns; omega
        simp [this, filled, pending, inBytes, leValue]
      · next h1 h2 =>
        have hb : inByte s.hid.ip s = .ok (s.inValue s.hid.ip) := by
          simp [inByte, Cap.hasIndex_of_lt hin (show s.hid.ip < s.inLen by omega)]
        rw [hb, ok_bind]
        let u : State := { s with
          hid := { s.hid with
            acc := s.hid.acc ||| ((s.inValue s.hid.ip).toNat <<< s.hid.cnt)
            cnt := s.hid.cnt + 8
            ip := s.hid.ip + 1 } }
        have hu : u.hid.acc < 2 ^ u.hid.cnt :=
          or_shiftLeft_lt (w := 8) hacc (s.inValue s.hid.ip).isLt
        have hn' : (w - u.hid.cnt + 7) / 8 ≤ n := by simp only [u]; omega
        refine (ih (s := u) hin hu hn').trans ?_
        have ht : fillTurns w s = fillTurns w u + 1 := by simp only [fillTurns, u]; omega
        rw [ht]
        generalize fillTurns w _ = k
        have hi (i m : Nat) (h : Hidden) : inBytes { s with hid := h } i m = inBytes s i m := by
          induction m generalizing i with
          | zero => rfl
          | succ m ihm => simp [inBytes, ihm, State.inValue]
        simp only [u, filled, pending, hi, inBytes, leValue, or_shiftLeft_eq_add _ hacc, Nat.pow_add]
        congr 3
        · ring
        · ring
        · ring

/-- BB.GET(w) when the stream holds a whole code (`40_bitbuffer.md` R106). -/
theorem bbGet_code {w : Nat} {s : State} (hin : s.cfg.inCap.fits s.inLen = true)
    (hacc : s.hid.acc < 2 ^ s.hid.cnt) (h : s.hid.ip + (w - s.hid.cnt + 7) / 8 ≤ s.inLen) :
    bbGet w s =
      .ok { s with
        hid := { s.hid with
          got := some (lowbits (pending s ((w - s.hid.cnt + 7) / 8)) w)
          acc := pending s ((w - s.hid.cnt + 7) / 8) >>> w
          cnt := s.hid.cnt + 8 * ((w - s.hid.cnt + 7) / 8) - w
          ip := s.hid.ip + (w - s.hid.cnt + 7) / 8 } } := by
  have ht : fillTurns w s = (w - s.hid.cnt + 7) / 8 := by unfold fillTurns; omega
  rw [bbGet, fill_eq w hin hacc (le_refl _), ht, ok_bind, takeCode, if_neg]
  · rfl
  · simp only [filled]; omega

/-- BB.GET(w) when the stream holds no whole code any more (`40_bitbuffer.md` R107). -/
theorem bbGet_none {w : Nat} {s : State} (hin : s.cfg.inCap.fits s.inLen = true)
    (hacc : s.hid.acc < 2 ^ s.hid.cnt) (hip : s.hid.ip ≤ s.inLen)
    (h : s.inLen < s.hid.ip + (w - s.hid.cnt + 7) / 8) :
    bbGet w s =
      .ok { s with
        hid := { s.hid with
          got := none
          acc := pending s (s.inLen - s.hid.ip)
          cnt := s.hid.cnt + 8 * (s.inLen - s.hid.ip)
          ip := s.inLen } } := by
  have ht : fillTurns w s = s.inLen - s.hid.ip := by unfold fillTurns; omega
  rw [bbGet, fill_eq w hin hacc (le_refl _), ht, ok_bind, takeCode, if_pos]
  · simp only [filled, Nat.add_sub_cancel' hip]
  · simp only [filled]; omega

end Sys2Proof.Machine
end

