-- ==== Sys2Proof/Laws/Decoder.lean ====
section
/-! SUPPORT. Everything the micro-operations of DEC and the classes of code can do, each said once. -/

namespace Sys2Proof.Machine

/-! ## The reverse dictionary -/

theorem seq?_cons_same (c : Nat) (q : ByteSeq) (d : Reverse) :
    Reverse.seq? ((c, q) :: d) c = some q := by simp [Reverse.seq?]

theorem seq?_cons_other {c c' : Nat} (q : ByteSeq) (d : Reverse) (h : c' ≠ c) :
    Reverse.seq? ((c, q) :: d) c' = Reverse.seq? d c' := by
  have hb : (c' == c) = false := by simpa using h
  simp [Reverse.seq?, List.lookup, hb]

/-- A dictionary in order has 256 codes or more. -/
theorem Reverse.Ok.le {d : Reverse} {n : Nat} (h : d.Ok n) : 256 ≤ n := by
  induction d generalizing n with
  | nil => exact (h : n = 256) ▸ le_refl _
  | cons x d ih => obtain ⟨rfl, -, hd⟩ := h; have := ih hd; omega

/-- A dictionary in order gives a code below 256 the one-byte sequence of itself (`10_state.md` R35). -/
theorem Reverse.Ok.literal {d : Reverse} {n c : Nat} (h : d.Ok n) (hc : c < 256) :
    d.seq? c = some [lowByte c] := by
  induction d generalizing n with
  | nil => simp [seq?, hc]
  | cons x d ih =>
    obtain ⟨a, q⟩ := x
    obtain ⟨rfl, -, hd⟩ := h
    have := hd.le
    rw [seq?_cons_other _ _ (by omega), ih hd]

/-- A code is present exactly when it is below d_next, and every entry is not empty (`10_state.md` R35). -/
theorem Reverse.Ok.present_iff {d : Reverse} {n : Nat} (h : d.Ok n) (c : Nat) :
    (c < n → ∃ q, d.seq? c = some q ∧ q ≠ []) ∧ (n ≤ c → d.seq? c = none) := by
  induction d generalizing n with
  | nil =>
    obtain rfl : n = 256 := h
    refine ⟨fun hc => ⟨[lowByte c], by simp [seq?, hc], by simp⟩, fun hc => ?_⟩
    simp [seq?, show ¬c < 256 by omega]
  | cons x d ih =>
    obtain ⟨a, q⟩ := x
    obtain ⟨rfl, hq, hd⟩ := h
    by_cases hca : c = a
    · subst hca
      exact ⟨fun _ => ⟨q, seq?_cons_same _ _ _, hq⟩, fun h => absurd h (by omega)⟩
    · rw [seq?_cons_other _ _ hca]
      exact ⟨fun h => (ih hd).1 (by omega), fun h => (ih hd).2 (by omega)⟩

/-! ## Processing a code -/

/-- The effect of the lines of DEC.NEXT after the entry, whose first byte is `k`, is known
(`42_decoder.md` R145). -/
def entryProcessed (entry : ByteSeq) (k : Byte) (s : State) : State :=
  { s with
    hid := { s.hid with
      res := s.hid.res ++ entry
      rdict := (s.hid.dNext, s.hid.s ++ [k]) :: s.hid.rdict
      dNext := s.hid.dNext + 1
      dWidth := grownDecWidth (s.hid.dNext + 1) s.hid.dWidth
      s := entry }
    phase := .decNext }

/-- Everything that can happen to an entry that is not empty, where d_next < 2^d_width, which "is always
true when it is evaluated" (`42_decoder.md` R145, R152). -/
theorem processEntry_cases {s : State} (k : Byte) (q : ByteSeq)
    (hw : s.hid.dNext < 2 ^ s.hid.dWidth) :
    (s.cfg.dictCap.isFull s.hid.dNext = false ∧
        processEntry (k :: q) s = .ok (entryProcessed (k :: q) k s)) ∨
      (s.cfg.dictCap.isFull s.hid.dNext = true ∧
        processEntry (k :: q) s = .error (.raise .capacityExceeded)) := by
  unfold processEntry insertEntry
  rw [if_pos hw]
  cases hf : s.cfg.dictCap.isFull s.hid.dNext <;> simp [entryProcessed]

/-- LITERAL as the first code (`42_decoder.md` R142). -/
theorem literalCode_first {s : State} {c : Nat} {q : ByteSeq}
    (h : Reverse.seq? s.hid.rdict c = some q) :
    literalCode true c s = .ok (startSequence q s) := by
  simp [literalCode, h]

/-- LITERAL as a later code (`42_decoder.md` R148). -/
theorem literalCode_later {s : State} {c : Nat} {q : ByteSeq}
    (h : Reverse.seq? s.hid.rdict c = some q) :
    literalCode false c s = processEntry q s := by
  simp [literalCode, h]

/-- KNOWN (`42_decoder.md` R148). -/
theorem knownCode_later {s : State} {c : Nat} {q : ByteSeq}
    (h : Reverse.seq? s.hid.rdict c = some q) :
    knownCode false c s = processEntry q s := by
  simp [knownCode, h]

/-- SELF (`42_decoder.md` R149). -/
theorem selfCode_later {s : State} {k : Byte} {q : ByteSeq} (h : s.hid.s = k :: q) :
    selfCode false s = processEntry (k :: q ++ [k]) s := by
  simp [selfCode, h]

/-! ## The micro-operations -/

/-- DEC.INIT (`42_decoder.md` R140). -/
theorem decInit_eq (s : State) :
    decInit s =
      if s.cfg.inCap.fits s.inLen && s.cfg.outCap.fits s.need then
        .ok { s with
          hid := { s.hid with
            acc := 0, cnt := 0, rdict := [], dNext := 256, dWidth := 9, res := [], ip := 0 }
          phase := .decFirst }
      else .error (.raise .capacityExceeded) := by
  unfold decInit
  cases s.cfg.inCap.fits s.inLen <;> cases s.cfg.outCap.fits s.need <;> simp [bbClear]

/-- DEC.FIRST and DEC.NEXT are BB.GET and then what the answer asks for (`42_decoder.md` R142, R145). -/
theorem readCode_eq {first : Bool} {s u : State} (h : bbGet s.hid.dWidth s = .ok u) :
    readCode first s =
      match u.hid.got with
      | none => .ok { u with phase := .decFinish }
      | some c => classCode (classOf first u.hid.dNext c) first c u := by
  unfold readCode
  rw [h]
  rfl

/-- The copy loop of DEC.FINISH in closed form (`42_decoder.md` R155). -/
theorem copyOut_ok (q : ByteSeq) {i : Nat} {s : State}
    (h : s.cfg.outCap.fits (i + q.length) = true) :
    copyOut i q s = .ok { s with outBuf := loadBytes i q s.outBuf } := by
  induction q generalizing i s with
  | nil => rfl
  | cons b q ih =>
    simp only [List.length_cons] at h
    have hi : s.cfg.outCap.hasIndex i = true := Cap.hasIndex_of_lt h (by omega)
    rw [copyOut, storeOut, if_pos hi, ok_bind, ih (by rwa [Nat.add_assoc, Nat.add_comm 1])]
    rfl

/-- Everything DEC.FINISH can do when the extent fits OUT (`42_decoder.md` R155, R156). -/
theorem decFinish_cases {s : State} (h : s.cfg.outCap.fits s.need = true) :
    (s.need ≤ s.hid.res.length ∧
        decFinish s =
          .ok { s with
            outBuf := loadBytes 0 (s.hid.res.take s.need) s.outBuf
            outLen := s.need
            phase := .doneOk }) ∨
      (s.hid.res.length < s.need ∧ (s.inLen = 0 ∨ 0 < s.hid.cnt) ∧
        decFinish s = .error (.raise .truncatedStream)) ∨
      (s.hid.res.length < s.need ∧ s.inLen ≠ 0 ∧ s.hid.cnt = 0 ∧
        decFinish s = .error (.raise .sizeMismatch)) := by
  unfold decFinish
  by_cases hs : s.hid.res.length < s.need
  · by_cases hc : s.inLen = 0 ∨ 0 < s.hid.cnt
    · exact .inr (.inl ⟨hs, hc, by rcases hc with hc | hc <;> simp [hs, hc]⟩)
    · have hc' : s.inLen ≠ 0 ∧ s.hid.cnt = 0 := by omega
      exact .inr (.inr ⟨hs, hc'.1, hc'.2, by simp [hs, hc'.1, hc'.2]⟩)
  · refine .inl ⟨by omega, ?_⟩
    have hl : (s.hid.res.take s.need).length = s.need := by simp; omega
    simp only [hs, decide_false, Bool.false_and, raiseIf_false, ok_bind]
    rw [copyOut_ok _ (by rw [hl, Nat.zero_add]; exact h)]
    rfl

end Sys2Proof.Machine
end

