-- ==== Sys2Proof/Laws/Encoder.lean ====
section
/-! SUPPORT. Everything the micro-operations of ENC can do, each said once. -/

namespace Sys2Proof.Machine

/-! ## The forward dictionary -/

@[simp] theorem code?_single (b : Byte) : Forward.code? [] [b] = some b.toNat := rfl

theorem code?_cons_same (q : ByteSeq) (c : Nat) (d : Forward) :
    Forward.code? ((q, c) :: d) q = some c := by simp [Forward.code?]

theorem code?_cons_other {q q' : ByteSeq} (c : Nat) (d : Forward) (h : q' ≠ q) :
    Forward.code? ((q, c) :: d) q' = Forward.code? d q' := by
  have hb : (q' == q) = false := by simpa using h
  simp [Forward.code?, List.lookup, hb]

/-- A dictionary in order gives every single byte its own code (`10_state.md` R32). -/
theorem Forward.Ok.single {d : Forward} {n : Nat} (h : d.Ok n) (b : Byte) :
    d.code? [b] = some b.toNat := by
  induction d generalizing n with
  | nil => rfl
  | cons x d ih =>
    obtain ⟨q, c⟩ := x
    obtain ⟨-, hq, -, -, hd⟩ := h
    rw [code?_cons_other, ih hd]
    rintro rfl
    simp at hq

/-- Codes of a dictionary in order lie below its size, and its size is 256 or more. -/
theorem Forward.Ok.bounds {d : Forward} {n : Nat} (h : d.Ok n) :
    256 ≤ n ∧ ∀ q c, d.code? q = some c → c < n := by
  induction d generalizing n with
  | nil =>
    obtain rfl : n = 256 := h
    refine ⟨le_refl _, fun q c hc => ?_⟩
    simp only [code?, List.lookup] at hc
    split at hc
    · next b => cases hc; exact b.isLt
    · cases hc
  | cons x d ih =>
    obtain ⟨q, c⟩ := x
    obtain ⟨rfl, -, -, -, hd⟩ := h
    obtain ⟨h1, h2⟩ := ih hd
    refine ⟨by omega, fun q' c' hc => ?_⟩
    by_cases hq : q' = q
    · subst hq; rw [code?_cons_same] at hc; cases hc; omega
    · rw [code?_cons_other _ _ hq] at hc; have := h2 _ _ hc; omega

/-- A first symbol always hits: "a miss never has an empty omega" (`41_encoder.md` R122). -/
theorem hit_of_omega_empty {h : Hidden} {n : Nat} (hd : h.fdict.Ok n) (ho : h.omega = []) (k : Byte) :
    h.hit k = true := by
  simp [Hidden.hit, ho, hd.single]

/-! ## The micro-operations -/

/-- ENC.INIT (`41_encoder.md` R120). -/
theorem encInit_eq (s : State) :
    encInit s =
      if s.cfg.inCap.fits s.inLen then
        .ok { s with
          hid := { s.hid with
            acc := 0, cnt := 0, fdict := [], eNext := 256, eWidth := 9, omega := [], ip := 0 }
          phase := .encSym }
      else .error (.raise .capacityExceeded) := by
  unfold encInit
  cases s.cfg.inCap.fits s.inLen <;> simp [bbClear]

/-- ENC.SYM with the input exhausted (`41_encoder.md` R122). -/
theorem encSym_end {s : State} (h : s.hid.ip = s.inLen) :
    encSym s = .ok { s with phase := .encFinal } := by
  simp [encSym, h]

/-- The state after ENC.SYM has taken its symbol. -/
def symbolTaken (s : State) : State := { s with hid := { s.hid with ip := s.hid.ip + 1 } }

/-- ENC.SYM on a hit (`41_encoder.md` R122). -/
theorem encSym_hit {s : State} (h : s.hid.ip ≠ s.inLen)
    (hi : s.cfg.inCap.hasIndex s.hid.ip = true) (hk : s.hid.hit (s.inValue s.hid.ip) = true) :
    encSym s = .ok (encHit (s.inValue s.hid.ip) (symbolTaken s)) := by
  have hk' : (symbolTaken s).hid.hit (s.inValue s.hid.ip) = true := hk
  simp only [symbolTaken] at hk'
  simp [encSym, h, inByte, hi, hk', symbolTaken]

/-- ENC.SYM on a miss is the miss arm (`41_encoder.md` R122). -/
theorem encSym_miss {s : State} (h : s.hid.ip ≠ s.inLen)
    (hi : s.cfg.inCap.hasIndex s.hid.ip = true) (hk : s.hid.hit (s.inValue s.hid.ip) = false) :
    encSym s = encMiss (s.inValue s.hid.ip) (symbolTaken s) := by
  have hk' : (symbolTaken s).hid.hit (s.inValue s.hid.ip) = false := hk
  simp only [symbolTaken] at hk'
  simp [encSym, h, inByte, hi, hk', symbolTaken]

/-- Everything the miss arm can do when omega is a key (`41_encoder.md` R122): emit and learn, or raise
CapacityExceeded because OUT or the dictionary is full. -/
theorem encMiss_cases {s : State} {c : Nat} (k : Byte)
    (h₀ : s.cfg.outCap.fits s.outLen = true) (hc : Forward.code? s.hid.fdict s.hid.omega = some c) :
    (s.cfg.outCap.fits (s.outLen + (s.hid.cnt + s.hid.eWidth) / 8) = true ∧
        s.cfg.dictCap.isFull s.hid.eNext = false ∧
        encMiss k s = .ok (learn k (putState c s.hid.eWidth s))) ∨
      ((s.cfg.outCap.fits (s.outLen + (s.hid.cnt + s.hid.eWidth) / 8) = false ∨
          s.cfg.dictCap.isFull s.hid.eNext = true) ∧
        encMiss k s = .error (.raise .capacityExceeded)) := by
  unfold encMiss
  rw [hc, present_some, ok_bind]
  rcases bbPut_cases c s.hid.eWidth h₀ with ⟨h1, h2⟩ | ⟨h1, h2⟩
  · rw [h2, ok_bind]
    have hn : (putState c s.hid.eWidth s).hid.eNext = s.hid.eNext := rfl
    cases hf : s.cfg.dictCap.isFull s.hid.eNext <;> simp [hn, hf, h1]
  · rw [h2, error_bind]
    exact .inr ⟨.inl h1, rfl⟩

/-- ENC.FINAL with nothing matched (`41_encoder.md` R125). -/
theorem encFinal_empty {s : State} (h : s.hid.omega = []) :
    encFinal s = .ok { s with phase := .encFlush } := by
  simp [encFinal, Hidden.omegaEmpty, h]

/-- Everything ENC.FINAL can do when omega is a key (`41_encoder.md` R125). -/
theorem encFinal_cases {s : State} {c : Nat} (h : s.hid.omega ≠ [])
    (h₀ : s.cfg.outCap.fits s.outLen = true) (hc : Forward.code? s.hid.fdict s.hid.omega = some c) :
    (s.cfg.outCap.fits (s.outLen + (s.hid.cnt + s.hid.eWidth) / 8) = true ∧
        encFinal s = .ok { putState c s.hid.eWidth s with phase := .encFlush }) ∨
      (s.cfg.outCap.fits (s.outLen + (s.hid.cnt + s.hid.eWidth) / 8) = false ∧
        encFinal s = .error (.raise .capacityExceeded)) := by
  unfold encFinal
  rw [if_neg (by simpa [Hidden.omegaEmpty] using h), hc, present_some, ok_bind]
  rcases bbPut_cases c s.hid.eWidth h₀ with ⟨h1, h2⟩ | ⟨h1, h2⟩
  · rw [h2, ok_bind]; exact .inl ⟨h1, rfl⟩
  · rw [h2, error_bind]; exact .inr ⟨h1, rfl⟩

/-- Everything ENC.FLUSH can do (`41_encoder.md` R126). -/
theorem encFlush_cases {s : State} (h₀ : s.cfg.outCap.fits s.outLen = true) :
    (s.cfg.outCap.fits (s.outLen + (s.hid.cnt + 7) / 8) = true ∧
        encFlush s = .ok { drained ((s.hid.cnt + 7) / 8) s with phase := .doneOk }) ∨
      (s.cfg.outCap.fits (s.outLen + (s.hid.cnt + 7) / 8) = false ∧
        encFlush s = .error (.raise .capacityExceeded)) := by
  unfold encFlush
  rcases bbFlush_cases h₀ with ⟨h1, h2⟩ | ⟨h1, h2⟩
  · rw [h2, ok_bind]; exact .inl ⟨h1, rfl⟩
  · rw [h2, error_bind]; exact .inr ⟨h1, rfl⟩

end Sys2Proof.Machine
end

