-- ==== Sys2Proof/Laws/Frame.lean ====
section
/-! SUPPORT. Frames: which fields each micro-operation may change, and how it may stop, from any state
whatever. -/

namespace Sys2Proof.Machine

/-! ## The bit buffer -/

theorem storeOut_frame {i : Nat} {b : Byte} {s t : State} (h : storeOut i b s = .ok t) :
    t = { s with outBuf := t.outBuf } := by
  unfold storeOut at h
  split at h <;> cases h
  rfl

theorem storeOut_stop {i : Nat} {b : Byte} {s : State} {x : Stop} (h : storeOut i b s = .error x) :
    x = .fault .noSuchByte := by
  unfold storeOut at h
  split at h <;> cases h
  rfl

theorem outByte_frame {b : Byte} {s t : State} (h : outByte b s = .ok t) :
    t = { s with outBuf := t.outBuf, outLen := t.outLen } := by
  obtain ⟨_, -, h⟩ := bind_eq_ok h
  obtain ⟨u, hu, h⟩ := bind_eq_ok h
  cases h
  rw [storeOut_frame hu]

theorem outByte_stop {b : Byte} {s : State} {x : Stop} (h : outByte b s = .error x) :
    x = .raise .capacityExceeded ∨ x = .fault .noSuchByte := by
  rcases bind_eq_error h with h | ⟨_, -, h⟩
  · exact .inl (raiseIf_eq_error h).2
  · rcases bind_eq_error h with h | ⟨_, -, h⟩
    · exact .inr (storeOut_stop h)
    · cases h

/-- The drain loop changes acc, cnt, OUT and OUT_LEN. -/
theorem drain_frame (n : Nat) {s t : State} (h : drain n s = .ok t) :
    t = { s with
      hid := { s.hid with acc := t.hid.acc, cnt := t.hid.cnt }
      outBuf := t.outBuf
      outLen := t.outLen } := by
  induction n generalizing s with
  | zero => cases h; rfl
  | succ n ih =>
    obtain ⟨u, hu, h⟩ := bind_eq_ok h
    rw [ih h, outByte_frame hu]

theorem drain_stop (n : Nat) {s : State} {x : Stop} (h : drain n s = .error x) :
    x = .raise .capacityExceeded ∨ x = .fault .noSuchByte := by
  induction n generalizing s with
  | zero => cases h
  | succ n ih =>
    rcases bind_eq_error h with h | ⟨_, -, h⟩
    · exact outByte_stop h
    · exact ih h

/-- BB.PUT changes acc, cnt, OUT and OUT_LEN. -/
theorem bbPut_frame {c w : Nat} {s t : State} (h : bbPut c w s = .ok t) :
    t = { s with
      hid := { s.hid with acc := t.hid.acc, cnt := t.hid.cnt }
      outBuf := t.outBuf
      outLen := t.outLen } := by
  have := drain_frame _ h
  exact this

theorem bbPut_stop {c w : Nat} {s : State} {x : Stop} (h : bbPut c w s = .error x) :
    x = .raise .capacityExceeded ∨ x = .fault .noSuchByte := drain_stop ((s.hid.cnt + w) / 8) h

/-- BB.FLUSH changes acc, cnt, OUT and OUT_LEN. -/
theorem bbFlush_frame {s t : State} (h : bbFlush s = .ok t) :
    t = { s with
      hid := { s.hid with acc := t.hid.acc, cnt := t.hid.cnt }
      outBuf := t.outBuf
      outLen := t.outLen } := drain_frame ((s.hid.cnt + 7) / 8) h

theorem bbFlush_stop {s : State} {x : Stop} (h : bbFlush s = .error x) :
    x = .raise .capacityExceeded ∨ x = .fault .noSuchByte := drain_stop ((s.hid.cnt + 7) / 8) h

theorem inByte_stop {i : Nat} {s : State} {x : Stop} (h : inByte i s = .error x) :
    x = .fault .noSuchByte := by
  unfold inByte at h
  split at h <;> cases h
  rfl

theorem fill_frame (w n : Nat) {s t : State} (h : fill w n s = .ok t) :
    t = { s with hid := { s.hid with acc := t.hid.acc, cnt := t.hid.cnt, ip := t.hid.ip } } := by
  induction n generalizing s with
  | zero => cases h; rfl
  | succ n ih =>
    rw [fill] at h
    split at h
    · cases h; rfl
    · split at h
      · cases h; rfl
      · obtain ⟨b, -, h⟩ := bind_eq_ok h
        rw [ih h]

theorem fill_stop (w n : Nat) {s : State} {x : Stop} (h : fill w n s = .error x) :
    x = .fault .noSuchByte := by
  induction n generalizing s with
  | zero => cases h
  | succ n ih =>
    rw [fill] at h
    split at h
    · cases h
    · split at h
      · cases h
      · rcases bind_eq_error h with h | ⟨_, -, h⟩
        · exact inByte_stop h
        · exact ih h

/-- BB.GET changes acc, cnt, ip and the answer, and raises nothing (`40_bitbuffer.md` R106). -/
theorem bbGet_frame {w : Nat} {s t : State} (h : bbGet w s = .ok t) :
    t = { s with
      hid := { s.hid with acc := t.hid.acc, cnt := t.hid.cnt, ip := t.hid.ip, got := t.hid.got } } := by
  obtain ⟨u, hu, h⟩ := bind_eq_ok h
  cases h
  rw [fill_frame _ _ hu]
  unfold takeCode
  split <;> rfl

theorem bbGet_stop {w : Nat} {s : State} {x : Stop} (h : bbGet w s = .error x) :
    x = .fault .noSuchByte := by
  rcases bind_eq_error h with h | ⟨_, -, h⟩
  · exact fill_stop _ _ h
  · cases h

/-! ## The encoder -/

/-- The registers of ENC and the bit buffer put into other hidden registers. -/
def Hidden.withEncoder (h g : Hidden) : Hidden :=
  { h with
    ip := g.ip, acc := g.acc, cnt := g.cnt, eNext := g.eNext, eWidth := g.eWidth, omega := g.omega,
    fdict := g.fdict }

/-- ENC.INIT either raises CapacityExceeded or starts the encoder. -/
theorem encInit_frame {s t : State} (h : encInit s = .ok t) :
    t = { s with hid := s.hid.withEncoder t.hid, phase := .encSym } := by
  rw [encInit_eq] at h
  split at h <;> cases h
  rfl

theorem encInit_stop {s : State} {x : Stop} (h : encInit s = .error x) :
    x = .raise .capacityExceeded := by
  rw [encInit_eq] at h
  split at h <;> cases h
  rfl

theorem encMiss_frame {k : Byte} {s t : State} (h : encMiss k s = .ok t) :
    t = { s with
        hid := s.hid.withEncoder t.hid
        outBuf := t.outBuf
        outLen := t.outLen
        phase := .encSym } ∧
      t.hid.eWidth = grownEncWidth (s.hid.eNext + 1) s.hid.eWidth := by
  obtain ⟨c, -, h⟩ := bind_eq_ok h
  obtain ⟨u, hu, h⟩ := bind_eq_ok h
  obtain ⟨_, -, h⟩ := bind_eq_ok h
  cases h
  rw [bbPut_frame hu]
  exact ⟨rfl, rfl⟩

theorem encMiss_stop {k : Byte} {s : State} {x : Stop} (h : encMiss k s = .error x) :
    x = .raise .capacityExceeded ∨ ∃ f, x = .fault f := by
  rcases bind_eq_error h with h | ⟨_, -, h⟩
  · exact .inr ⟨_, (present_eq_error h).2⟩
  · rcases bind_eq_error h with h | ⟨_, -, h⟩
    · exact (bbPut_stop h).imp_right fun h => ⟨_, h⟩
    · rcases bind_eq_error h with h | ⟨_, -, h⟩
      · exact .inl (raiseIf_eq_error h).2
      · cases h

/-- ENC.SYM changes the registers of ENC, the bit buffer, OUT, OUT_LEN and phase; the width grows by one
bit or stays. -/
theorem encSym_frame {s t : State} (h : encSym s = .ok t) :
    t = { s with
        hid := s.hid.withEncoder t.hid
        outBuf := t.outBuf
        outLen := t.outLen
        phase := t.phase } ∧
      (t.phase = .encSym ∨ t.phase = .encFinal) ∧
      s.hid.eWidth ≤ t.hid.eWidth ∧ t.hid.eWidth ≤ s.hid.eWidth + 1 := by
  unfold encSym at h
  split at h
  · cases h; exact ⟨rfl, .inr rfl, le_refl _, Nat.le_succ _⟩
  · obtain ⟨k, -, h⟩ := bind_eq_ok h
    dsimp only at h
    split at h
    · cases h; exact ⟨rfl, .inl rfl, le_refl _, Nat.le_succ _⟩
    · obtain ⟨h1, h2⟩ := encMiss_frame h
      have hp : t.phase = .encSym := congrArg State.phase h1
      rw [h2, hp]
      exact ⟨h1, .inl rfl, grownEncWidth_bounds _ _⟩

theorem encSym_stop {s : State} {x : Stop} (h : encSym s = .error x) :
    x = .raise .capacityExceeded ∨ ∃ f, x = .fault f := by
  unfold encSym at h
  split at h
  · cases h
  · rcases bind_eq_error h with h | ⟨_, -, h⟩
    · exact .inr ⟨_, inByte_stop h⟩
    · dsimp only at h
      split at h
      · cases h
      · exact encMiss_stop h

/-- ENC.FINAL changes the bit buffer, OUT, OUT_LEN and phase. -/
theorem encFinal_frame {s t : State} (h : encFinal s = .ok t) :
    t = { s with
      hid := { s.hid with acc := t.hid.acc, cnt := t.hid.cnt }
      outBuf := t.outBuf
      outLen := t.outLen
      phase := .encFlush } := by
  unfold encFinal at h
  split at h
  · cases h; rfl
  · obtain ⟨c, -, h⟩ := bind_eq_ok h
    obtain ⟨u, hu, h⟩ := bind_eq_ok h
    cases h
    rw [bbPut_frame hu]

theorem encFinal_stop {s : State} {x : Stop} (h : encFinal s = .error x) :
    x = .raise .capacityExceeded ∨ ∃ f, x = .fault f := by
  unfold encFinal at h
  split at h
  · cases h
  · rcases bind_eq_error h with h | ⟨_, -, h⟩
    · exact .inr ⟨_, (present_eq_error h).2⟩
    · rcases bind_eq_error h with h | ⟨_, -, h⟩
      · exact (bbPut_stop h).imp_right fun h => ⟨_, h⟩
      · cases h

/-- ENC.FLUSH changes the bit buffer, OUT, OUT_LEN and phase. -/
theorem encFlush_frame {s t : State} (h : encFlush s = .ok t) :
    t = { s with
      hid := { s.hid with acc := t.hid.acc, cnt := t.hid.cnt }
      outBuf := t.outBuf
      outLen := t.outLen
      phase := .doneOk } := by
  obtain ⟨u, hu, h⟩ := bind_eq_ok h
  cases h
  rw [bbFlush_frame hu]

theorem encFlush_stop {s : State} {x : Stop} (h : encFlush s = .error x) :
    x = .raise .capacityExceeded ∨ ∃ f, x = .fault f := by
  rcases bind_eq_error h with h | ⟨_, -, h⟩
  · exact (bbFlush_stop h).imp_right fun h => ⟨_, h⟩
  · cases h

/-! ## The decoder -/

/-- The registers of DEC and the bit buffer put into other hidden registers. -/
def Hidden.withDecoder (h g : Hidden) : Hidden :=
  { h with
    ip := g.ip, acc := g.acc, cnt := g.cnt, dNext := g.dNext, dWidth := g.dWidth, s := g.s,
    rdict := g.rdict, res := g.res, got := g.got }

/-- DEC.INIT either raises CapacityExceeded or starts the decoder. -/
theorem decInit_frame {s t : State} (h : decInit s = .ok t) :
    t = { s with hid := s.hid.withDecoder t.hid, phase := .decFirst } := by
  rw [decInit_eq] at h
  split at h <;> cases h
  rfl

theorem decInit_stop {s : State} {x : Stop} (h : decInit s = .error x) :
    x = .raise .capacityExceeded := by
  rw [decInit_eq] at h
  split at h <;> cases h
  rfl

/-- Processing an entry changes registers of DEC alone and phase; the width grows by one bit or stays. -/
theorem processEntry_frame {entry : ByteSeq} {s t : State} (h : processEntry entry s = .ok t) :
    t = { s with hid := s.hid.withDecoder t.hid, phase := .decNext } ∧
      s.hid.dWidth ≤ t.hid.dWidth ∧ t.hid.dWidth ≤ s.hid.dWidth + 1 := by
  obtain ⟨u, hu, h⟩ := bind_eq_ok h
  have hu : u = { s with hid := s.hid.withDecoder u.hid } ∧ u.hid.dWidth = s.hid.dWidth := by
    unfold insertEntry at hu
    split at hu
    · obtain ⟨_, -, hu⟩ := bind_eq_ok hu
      obtain ⟨k, -, hu⟩ := bind_eq_ok hu
      cases hu
      exact ⟨rfl, rfl⟩
    · cases hu
      exact ⟨rfl, rfl⟩
  obtain ⟨h1, h2⟩ := hu
  cases h
  refine ⟨by rw [h1]; rfl, ?_⟩
  simp only [h2]
  exact grownDecWidth_bounds _ _

theorem processEntry_stop {entry : ByteSeq} {s : State} {x : Stop}
    (h : processEntry entry s = .error x) : x = .raise .capacityExceeded ∨ ∃ f, x = .fault f := by
  rcases bind_eq_error h with h | ⟨_, -, h⟩
  · unfold insertEntry at h
    split at h
    · rcases bind_eq_error h with h | ⟨_, -, h⟩
      · exact .inl (raiseIf_eq_error h).2
      · rcases bind_eq_error h with h | ⟨_, -, h⟩
        · exact .inr ⟨_, (present_eq_error h).2⟩
        · cases h
    · cases h
  · cases h

/-- A code of any class changes registers of DEC alone and phase; the width grows by one bit or stays. -/
theorem classCode_frame {k : CodeClass} {first : Bool} {c : Nat} {s t : State}
    (h : classCode k first c s = .ok t) :
    t = { s with hid := s.hid.withDecoder t.hid, phase := .decNext } ∧
      s.hid.dWidth ≤ t.hid.dWidth ∧ t.hid.dWidth ≤ s.hid.dWidth + 1 := by
  cases k with
  | literal =>
    obtain ⟨q, -, h⟩ := bind_eq_ok h
    split at h
    · cases h; exact ⟨rfl, le_refl _, Nat.le_succ _⟩
    · exact processEntry_frame h
  | known =>
    simp only [classCode, knownCode] at h
    split at h
    · cases h
    · obtain ⟨q, -, h⟩ := bind_eq_ok h
      exact processEntry_frame h
  | selfRef =>
    simp only [classCode, selfCode] at h
    split at h
    · cases h
    · obtain ⟨q, -, h⟩ := bind_eq_ok h
      exact processEntry_frame h
  | invalid => cases h

theorem classCode_stop {k : CodeClass} {first : Bool} {c : Nat} {s : State} {x : Stop}
    (h : classCode k first c s = .error x) :
    x = .raise .decodeCorruption ∨ x = .raise .capacityExceeded ∨ ∃ f, x = .fault f := by
  cases k with
  | literal =>
    rcases bind_eq_error h with h | ⟨q, -, h⟩
    · exact .inr (.inr ⟨_, (present_eq_error h).2⟩)
    · split at h
      · cases h
      · exact .inr (processEntry_stop h)
  | known =>
    simp only [classCode, knownCode] at h
    split at h
    · cases h; exact .inl rfl
    · rcases bind_eq_error h with h | ⟨q, -, h⟩
      · exact .inr (.inr ⟨_, (present_eq_error h).2⟩)
      · exact .inr (processEntry_stop h)
  | selfRef =>
    simp only [classCode, selfCode] at h
    split at h
    · cases h; exact .inl rfl
    · rcases bind_eq_error h with h | ⟨q, -, h⟩
      · exact .inr (.inr ⟨_, (present_eq_error h).2⟩)
      · exact .inr (processEntry_stop h)
  | invalid => cases h; exact .inl rfl

/-- DEC.FIRST and DEC.NEXT change registers of DEC, the bit buffer and phase; the width grows by one bit or
stays. -/
theorem readCode_frame {first : Bool} {s t : State} (h : readCode first s = .ok t) :
    t = { s with hid := s.hid.withDecoder t.hid, phase := t.phase } ∧
      (t.phase = .decNext ∨ t.phase = .decFinish) ∧
      s.hid.dWidth ≤ t.hid.dWidth ∧ t.hid.dWidth ≤ s.hid.dWidth + 1 := by
  obtain ⟨u, hu, h⟩ := bind_eq_ok h
  have hf := bbGet_frame hu
  have hw : u.hid.dWidth = s.hid.dWidth := by rw [hf]
  split at h
  · cases h
    refine ⟨?_, .inr rfl, le_of_eq hw.symm, by simp only [hw]; omega⟩
    rw [hf]
    rfl
  · obtain ⟨h1, h2⟩ := classCode_frame h
    rw [hw] at h2
    refine ⟨?_, .inl (by rw [h1]), h2⟩
    rw [h1, hf]
    rfl

theorem readCode_stop {first : Bool} {s : State} {x : Stop} (h : readCode first s = .error x) :
    x = .raise .decodeCorruption ∨ x = .raise .capacityExceeded ∨ ∃ f, x = .fault f := by
  rcases bind_eq_error h with h | ⟨u, -, h⟩
  · exact .inr (.inr ⟨_, bbGet_stop h⟩)
  · split at h
    · cases h
    · exact classCode_stop h

theorem copyOut_frame (q : ByteSeq) {i : Nat} {s t : State} (h : copyOut i q s = .ok t) :
    t = { s with outBuf := t.outBuf } := by
  induction q generalizing i s with
  | nil => cases h; rfl
  | cons b q ih =>
    obtain ⟨u, hu, h⟩ := bind_eq_ok h
    rw [ih h, storeOut_frame hu]

theorem copyOut_stop (q : ByteSeq) {i : Nat} {s : State} {x : Stop} (h : copyOut i q s = .error x) :
    x = .fault .noSuchByte := by
  induction q generalizing i s with
  | nil => cases h
  | cons b q ih =>
    rcases bind_eq_error h with h | ⟨_, -, h⟩
    · exact storeOut_stop h
    · exact ih h

/-- DEC.FINISH changes OUT, OUT_LEN and phase. -/
theorem decFinish_frame {s t : State} (h : decFinish s = .ok t) :
    t = { s with outBuf := t.outBuf, outLen := s.need, phase := .doneOk } := by
  obtain ⟨_, -, h⟩ := bind_eq_ok h
  obtain ⟨_, -, h⟩ := bind_eq_ok h
  obtain ⟨u, hu, h⟩ := bind_eq_ok h
  cases h
  rw [copyOut_frame _ hu]

theorem decFinish_stop {s : State} {x : Stop} (h : decFinish s = .error x) :
    x = .raise .truncatedStream ∨ x = .raise .sizeMismatch ∨ ∃ f, x = .fault f := by
  rcases bind_eq_error h with h | ⟨_, -, h⟩
  · exact .inl (raiseIf_eq_error h).2
  · rcases bind_eq_error h with h | ⟨_, -, h⟩
    · exact .inr (.inl (raiseIf_eq_error h).2)
    · rcases bind_eq_error h with h | ⟨_, -, h⟩
      · exact .inr (.inr ⟨_, copyOut_stop _ h⟩)
      · cases h

end Sys2Proof.Machine
end

