-- ==== Sys2Proof/Laws/Host.lean ====
section
/-! SUPPORT. The host's reads of OUT: stable while the CORE is at rest. -/

namespace Sys2Proof.Machine

variable {s t : State} {i : Nat}

/-- A read of OUT at rest returns the byte that is there, and only the host's log grows
(`20_memory.md` R70). -/
theorem hostReadOut_rest (h : s.cfg.outCap.hasIndex i = true) (hb : s.phase.busy = false) :
    hostReadOut i s = .next { s with seen := .out i (s.outValue i) :: s.seen } := by
  simp [hostReadOut, h, hb]

/-- A read of OUT while BUSY = 1 returns any value (`70_reset_and_hazards.md` R239). -/
theorem hostReadOut_busy (h : s.cfg.outCap.hasIndex i = true) (hb : s.phase.busy = true) :
    hostReadOut i s =
      .next { s with seen := .out i (Config.freeOutRead s.free) :: s.seen, free := s.free + 1 } := by
  simp [hostReadOut, h, hb]

/-- The bytes of OUT are a function of phase, OUT_LEN, the result and how often OUT was given up. -/
theorem outValue_congr (hp : t.phase = s.phase) (hl : t.outLen = s.outLen) (hm : t.outBuf = s.outBuf)
    (he : t.outEra = s.outEra) (i : Nat) : t.outValue i = s.outValue i := by
  simp [State.outValue, State.resultByte, hp, hl, hm, he]

/-- At DONE_OK a byte of the result is the byte the CORE has written (`10_state.md` R38). -/
theorem outValue_result {b : Byte} (hp : s.phase = .doneOk) (hi : i < s.outLen)
    (hr : Memory.read s.outBuf i = some b) : s.outValue i = b := by
  simp [State.outValue, State.resultByte, hp, hi, hr]

end Sys2Proof.Machine
end

