-- ==== Sys2Proof/Laws/PerInstr.lean ====
section
/-! SUPPORT. Statements made per instruction, one lemma per constructor. -/

namespace Sys2Proof.Laws.EncodedLength

open Sys2Proof.Machine (isCommand)

/-- How many bytes an instruction has: a command one (`30_encoding.md` R81); a code two or more, the fewest
that hold its bits (R84, `20_memory.md` R64); a micro-operation has no binary form (`30_encoding.md` R80). -/
def Statement (i : Instr) : Prop :=
  (isCommand i = true → ∃ v, encode i = some [v]) ∧
  (∀ cfg bytes, isCommand i = false → i.wf cfg = true → encode i = some bytes →
    2 ≤ bytes.length ∧ ∃ w first dNext, readIn i (.code w first dNext) ∧
      w ≤ 8 * bytes.length ∧ 8 * bytes.length < w + 8) ∧
  ((∀ x, ¬readIn i x) → encode i = none)

/-- A field of `w` bits, nine or more, in the fewest bytes. -/
theorem codeBytes {w : Nat} (h : 9 ≤ w) :
    2 ≤ (w + 7) / 8 ∧ w ≤ 8 * ((w + 7) / 8) ∧ 8 * ((w + 7) / 8) < w + 8 := by omega

/-- The lemma of every micro-operation. -/
theorem micro {i : Instr} (hc : isCommand i = false) (he : encode i = none) : Statement i :=
  ⟨fun h => absurd (hc.symm.trans h) (by simp), fun _ _ _ _ h => absurd (he.symm.trans h) (by simp),
    fun _ => he⟩

/-- The lemma of every command. -/
theorem command {i : Instr} {v : Byte} (hc : isCommand i = true) (he : encode i = some [v])
    (hr : readIn i .command) : Statement i :=
  ⟨fun _ => ⟨v, he⟩, fun _ _ h => absurd (hc.symm.trans h) (by simp), fun h => absurd hr (h .command)⟩

theorem nop : Statement .nop :=
  command rfl rfl rfl

theorem encode : Statement .encode :=
  command rfl rfl rfl

theorem decode : Statement .decode :=
  command rfl rfl rfl

theorem reserved0303 : Statement .reserved0303 :=
  command rfl rfl rfl

theorem reserved0407 (x : BitVec 2) : Statement (.reserved0407 x) :=
  command rfl rfl rfl

theorem reserved080F (x : BitVec 3) : Statement (.reserved080F x) :=
  command rfl rfl rfl

theorem reserved101F (x : BitVec 4) : Statement (.reserved101F x) :=
  command rfl rfl rfl

theorem reserved203F (x : BitVec 5) : Statement (.reserved203F x) :=
  command rfl rfl rfl

theorem reserved407F (x : BitVec 6) : Statement (.reserved407F x) :=
  command rfl rfl rfl

theorem reserved80FF (x : BitVec 7) : Statement (.reserved80FF x) :=
  command rfl rfl rfl

theorem bbClear : Statement .bbClear :=
  micro rfl rfl

theorem bbPut (c w : Nat) : Statement (.bbPut c w) :=
  micro rfl rfl

theorem bbFlush : Statement .bbFlush :=
  micro rfl rfl

theorem bbGet (w : Nat) : Statement (.bbGet w) :=
  micro rfl rfl

theorem encInit : Statement .encInit :=
  micro rfl rfl

theorem encSym : Statement .encSym :=
  micro rfl rfl

theorem encFinal : Statement .encFinal :=
  micro rfl rfl

theorem encFlush : Statement .encFlush :=
  micro rfl rfl

theorem decInit : Statement .decInit :=
  micro rfl rfl

theorem decFirst : Statement .decFirst :=
  micro rfl rfl

theorem decNext : Statement .decNext :=
  micro rfl rfl

theorem decFinish : Statement .decFinish :=
  micro rfl rfl

theorem literal (w : Nat) (c : Byte) : Statement (.literal w c) := by
  refine ⟨fun h => by simp [isCommand, Machine.isReserved] at h, fun cfg bytes _ h he => ?_,
    fun h => absurd ⟨false, 0, rfl⟩ (h (.code w false 0))⟩
  simp only [Instr.wf, widthOk, Bool.and_eq_true, decide_eq_true_eq] at h
  obtain ⟨h2, h3, h4⟩ := codeBytes (w := w) h.1
  cases he
  rw [leBytes_length]
  exact ⟨h2, w, false, 0, ⟨false, 0, rfl⟩, h3, h4⟩

theorem known (w c : Nat) : Statement (.known w c) := by
  refine ⟨fun h => by simp [isCommand, Machine.isReserved] at h, fun cfg bytes _ h he => ?_,
    fun h => absurd ⟨c + 1, Nat.lt_succ_self c, rfl⟩ (h (.code w false (c + 1)))⟩
  simp only [Instr.wf, sequenceCodeOk, widthOk, Bool.and_eq_true, decide_eq_true_eq] at h
  obtain ⟨h2, h3, h4⟩ := codeBytes (w := w) h.1.1.1
  cases he
  rw [leBytes_length]
  exact ⟨h2, w, false, c + 1, ⟨c + 1, Nat.lt_succ_self c, rfl⟩, h3, h4⟩

theorem selfRef (w c : Nat) : Statement (.selfRef w c) := by
  refine ⟨fun h => by simp [isCommand, Machine.isReserved] at h, fun cfg bytes _ h he => ?_,
    fun h => absurd rfl (h (.code w false c))⟩
  simp only [Instr.wf, sequenceCodeOk, widthOk, Bool.and_eq_true, decide_eq_true_eq] at h
  obtain ⟨h2, h3, h4⟩ := codeBytes (w := w) h.1.1.1
  cases he
  rw [leBytes_length]
  exact ⟨h2, w, false, c, rfl, h3, h4⟩

theorem invalid (w c : Nat) : Statement (.invalid w c) := by
  refine ⟨fun h => by simp [isCommand, Machine.isReserved] at h, fun cfg bytes _ h he => ?_,
    fun h => absurd ⟨true, 0, .inl rfl, rfl⟩ (h (.code w true 0))⟩
  simp only [Instr.wf, sequenceCodeOk, widthOk, Bool.and_eq_true, decide_eq_true_eq] at h
  obtain ⟨h2, h3, h4⟩ := codeBytes (w := w) h.1.1.1
  cases he
  rw [leBytes_length]
  exact ⟨h2, w, true, 0, ⟨true, 0, .inl rfl, rfl⟩, h3, h4⟩

end Sys2Proof.Laws.EncodedLength
end

