-- ==== Sys2Proof/Laws/Sizes.lean ====
section
/-! SUPPORT. The sizes of the hidden registers (`40_bitbuffer.md` R110): which values fit, and what keeps
`HiddenFits`. -/

namespace Sys2Proof

theorem bitlen_mono {m n : Nat} (h : m ≤ n) : bitlen m ≤ bitlen n :=
  (bitlen_le_iff m _).mpr (Nat.lt_of_le_of_lt h (lt_two_pow_bitlen n))

theorem Cap.holdsValue_of_lt {c : Cap} {n v : Nat} (h : c.fits n = true) (hv : v < 2 ^ n) :
    c.holdsValue v = true := by
  cases c with
  | unbounded => rfl
  | upTo b =>
    have hb : n ≤ b := by simpa [Cap.fits] using h
    have : 2 ^ n ≤ 2 ^ b := Nat.pow_le_pow_right (by omega) hb
    simpa [Cap.holdsValue] using Nat.lt_of_lt_of_le hv this

theorem Cap.holdsValue_mono {c : Cap} {m n : Nat} (h : c.holdsValue n = true) (hm : m ≤ n) :
    c.holdsValue m = true := by
  cases c <;> simp_all [Cap.holdsValue]
  omega

theorem Cap.plus_fits {c : Cap} {n k : Nat} (h : c.fits n = true) : (c.plus k).fits (n + k) = true := by
  cases c <;> simp_all [Cap.fits, Cap.plus]

namespace Capacities

theorem wMax_fits_of_bitlen {cfg : Capacities} {n : Nat} (h : cfg.dictCap.fits n = true) :
    cfg.wMax.fits (max 9 (bitlen n)) = true := by
  unfold wMax
  cases hd : cfg.dictCap with
  | unbounded => rfl
  | upTo c =>
    have hc : n ≤ c := by simpa [hd, Cap.fits] using h
    have := bitlen_mono hc
    simp only [Cap.fits, decide_eq_true_eq]
    omega

/-- No width passes WMAX (`40_bitbuffer.md` R110). -/
theorem wMax_fits_encWidthFor {cfg : Capacities} {n : Nat} (h : cfg.dictCap.fits n = true) :
    cfg.wMax.fits (Machine.encWidthFor n) = true := by
  have := bitlen_mono (Nat.sub_le n 1)
  refine Cap.fits_mono (wMax_fits_of_bitlen h) ?_
  unfold Machine.encWidthFor
  omega

/-- No width passes WMAX (`40_bitbuffer.md` R110). -/
theorem wMax_fits_decWidthFor {cfg : Capacities} {n : Nat} (h : cfg.dictCap.fits n = true) :
    cfg.wMax.fits (Machine.decWidthFor n) = true := wMax_fits_of_bitlen h

theorem wMax_fits_nine (cfg : Capacities) : cfg.wMax.fits 9 = true := by
  unfold wMax
  cases cfg.dictCap with
  | unbounded => rfl
  | upTo c => simp only [Cap.fits, decide_eq_true_eq]; omega

/-- The accumulator "must hold w + 7 bits" (`40_bitbuffer.md` R110). -/
theorem accBits_fits {cfg : Capacities} {w n : Nat} (h : cfg.wMax.fits w = true) (hn : n ≤ w + 7) :
    cfg.accBits.fits n = true := Cap.fits_mono (Cap.plus_fits h) hn

theorem accBits_fits_of_small {cfg : Capacities} {n : Nat} (h : n < 8) : cfg.accBits.fits n = true :=
  accBits_fits (wMax_fits_nine cfg) (by omega)

/-- A count of at most ACC_BITS fits its register (`40_bitbuffer.md` R110). -/
theorem cntBits_holdsValue {cfg : Capacities} {n : Nat} (h : cfg.accBits.fits n = true) :
    cfg.cntBits.holdsValue n = true := by
  unfold cntBits
  cases ha : cfg.accBits with
  | unbounded => rfl
  | upTo b =>
    have hb : n ≤ b := by simpa [ha, Cap.fits] using h
    simpa [Cap.holdsValue] using Nat.lt_of_le_of_lt hb (lt_two_pow_bitlen b)

theorem WF.dictCap_fits {cfg : Capacities} (h : cfg.WF) : cfg.dictCap.fits 256 = true := by
  cases hd : cfg.dictCap with
  | unbounded => rfl
  | upTo c => have := h.1 c hd; simp only [Cap.fits, decide_eq_true_eq]; omega

end Capacities

namespace Machine

/-! ## Free values -/

theorem holdsValue_cutTo (c : Cap) (v : Nat) : c.holdsValue (cutTo c v) = true := by
  cases c with
  | unbounded => rfl
  | upTo b => exact decide_eq_true (Nat.mod_lt v (Nat.two_pow_pos b))

theorem le_between (lo : Nat) (c : Cap) (v : Nat) : lo ≤ between lo c v := by
  cases c <;> simp [between]

theorem fits_between {lo : Nat} {c : Cap} (h : c.fits lo = true) (v : Nat) :
    c.fits (between lo c v) = true := by
  cases c with
  | unbounded => rfl
  | upTo hi =>
    have hl : lo ≤ hi := by simpa [Cap.fits] using h
    have := Nat.mod_lt v (show 0 < hi + 1 - lo by omega)
    exact decide_eq_true (show lo + v % (hi + 1 - lo) ≤ hi by omega)

/-! ## What keeps the sizes -/

/-- After reset (log 1). -/
theorem HiddenFits.of_reset {cfg : Capacities} (h : cfg.WF) : HiddenFits cfg Hidden.reset where
  ip := by cases hc : cfg.lenBits <;> simp [Hidden.reset, Cap.holdsValue]
  acc := by cases hc : cfg.accBits <;> simp [Hidden.reset, Cap.holdsValue]
  cnt := Capacities.accBits_fits_of_small (by decide)
  cntWidth := Capacities.cntBits_holdsValue (Capacities.accBits_fits_of_small (by decide))
  eNext := ⟨Nat.le_refl _, h.dictCap_fits⟩
  eWidth := ⟨Nat.le_refl _, cfg.wMax_fits_nine⟩
  dNext := ⟨Nat.le_refl _, h.dictCap_fits⟩
  dWidth := ⟨Nat.le_refl _, cfg.wMax_fits_nine⟩

/-- After an error (log 4). -/
theorem HiddenFits.of_free {cfg : Capacities} (h : cfg.WF) (use : Nat) :
    HiddenFits cfg (freeHidden cfg use) where
  ip := holdsValue_cutTo _ _
  acc := holdsValue_cutTo _ _
  cnt := fits_between (Capacities.accBits_fits_of_small (by decide)) _
  cntWidth := Capacities.cntBits_holdsValue (fits_between (Capacities.accBits_fits_of_small (by decide)) _)
  eNext := ⟨le_between _ _ _, fits_between h.dictCap_fits _⟩
  eWidth := ⟨le_between _ _ _, fits_between cfg.wMax_fits_nine _⟩
  dNext := ⟨le_between _ _ _, fits_between h.dictCap_fits _⟩
  dWidth := ⟨le_between _ _ _, fits_between cfg.wMax_fits_nine _⟩

/-- With bits in order and a count inside the accumulator, both registers fit (`10_state.md` R30). -/
theorem acc_fits {cfg : Capacities} {acc cnt : Nat} (ha : acc < 2 ^ cnt) (hc : cfg.accBits.fits cnt = true) :
    cfg.accBits.holdsValue acc = true := Cap.holdsValue_of_lt hc ha

/-- A turn of the loop of BB.GET keeps acc < 2^cnt and leaves at most w + 7 bits (`40_bitbuffer.md` R106). -/
theorem fill_small (w n : Nat) {s t : State} (ha : s.hid.acc < 2 ^ s.hid.cnt) (hc : s.hid.cnt ≤ w + 7)
    (h : fill w n s = .ok t) : t.hid.acc < 2 ^ t.hid.cnt ∧ t.hid.cnt ≤ w + 7 := by
  induction n generalizing s with
  | zero => cases h; exact ⟨ha, hc⟩
  | succ n ih =>
    rw [fill] at h
    split at h
    · cases h; exact ⟨ha, hc⟩
    · next hw =>
      split at h
      · cases h; exact ⟨ha, hc⟩
      · obtain ⟨b, -, h⟩ := bind_eq_ok h
        exact ih (or_shiftLeft_lt ha b.isLt) (show s.hid.cnt + 8 ≤ w + 7 by omega) h

end Machine

end Sys2Proof
end

