-- ==== Sys2Proof/Laws/Step.lean ====
section
/-! SUPPORT. Steps and runs: what a step is for each thing that can happen next. -/

namespace Sys2Proof.Machine

/-- The CORE's own step is exec of the micro-operation phase names (`10_state.md` R28). -/
theorem coreStep_eq (s : State) :
    coreStep s =
      match microOp s.phase with
      | some i => exec i s
      | none => .next s := by
  unfold coreStep microOp
  cases s.phase <;> rfl

/-- With no move of the host a step is the CORE's own. -/
theorem step_alone {s : State} (h : s.host = []) : step s = coreStep s := by
  rw [coreStep_eq, step, fetch, h]
  simp only [coreAct]
  cases microOp s.phase <;> rfl

/-- A command or a micro-operation never refuses. -/
theorem exec_ne_refused (i : Instr) (s : State) (r : Refusal) : exec i s ≠ .refused r := by
  cases i <;>
    first
      | exact conclude_ne_refused
      | (simp only [exec, execNop, execEncode, execDecode, execReserved0303, execReserved0407,
          execReserved080F, execReserved101F, execReserved203F, execReserved407F, execReserved80FF,
          execBbClear, acceptCmd_eq]
         intro h; cases h)

/-- In IDLE, DONE_OK and DONE_ERR the CORE holds its state (`60_exceptions.md` R222). -/
theorem coreRun_still {s : State} (h : microOp s.phase = none) (k : Nat) : coreRun k s = .next s := by
  induction k with
  | zero => rfl
  | succ k ih => rw [coreRun, coreStep_eq, h]; exact ih

/-- A run is a run of its first part and then of its second. -/
theorem coreRun_add (j k : Nat) (s : State) :
    coreRun (j + k) s =
      match coreRun j s with
      | .next t => coreRun k t
      | .fault f => .fault f
      | .refused r => .refused r := by
  induction j generalizing s with
  | zero => rw [Nat.zero_add]; rfl
  | succ j ih =>
    rw [Nat.add_right_comm, coreRun, coreRun]
    cases coreStep s with
    | next t => exact ih t
    | fault f => rfl
    | refused r => rfl

end Sys2Proof.Machine
end

