-- ==== Sys2Proof/Tests/Slice0.lean ====
section
/-! SUPPORT. The model's own tests. Every expected value is written out from the spec: the encodings of
`30_encoding.md`, the examples of the rules, and the vectors of `95_test_vectors.md` (TB, TG, TE, TD, TC, P).
Below them, for every statement that has hypotheses, concrete states and operands that meet them. -/

namespace Sys2Proof.Tests

open Sys2Proof.Machine

/-! ## Helpers -/

/-- The outcome is a next state in which something holds. -/
def nextIs (o : Host.Outcome State Fault Refusal) (f : State → Bool) : Bool :=
  match o with
  | .next t => f t
  | .fault _ => false
  | .refused _ => false

/-- A state in phase `p`, the bytes in IN. -/
def sample (p : Phase) (bytes : List Byte) : State :=
  { State.reset with phase := p, inLen := bytes.length, inBuf := loadBytes 0 bytes [] }

/-- The same state with other hidden registers. -/
def withHid (s : State) (h : Hidden) : State := { s with hid := h }

/-- The same state of a CORE of other capacities. -/
def onCore (s : State) (cfg : Capacities) : State := { s with cfg := cfg }

/-- A small CORE: IN_CAP 4, OUT_CAP 2, DICT_CAP 257, DIM_BITS 16, LEN_BITS 4. -/
def small : Capacities := ⟨.upTo 4, .upTo 2, .upTo 257, .upTo 16, .upTo 4⟩

/-- The bit buffer with `cnt` pending bits `acc`. -/
def bits (acc cnt : Nat) : Hidden := { Hidden.reset with acc := acc, cnt := cnt }

theorem test_small_capacities_in_order : small.WF :=
  ⟨by intro c h; cases h; decide, by intro b h; cases h; decide, rfl⟩

/-! ## Well-formedness: an ill-formed term for each check -/

/-- DICT_CAP = 4096 gives WMAX = 13 (`40_bitbuffer.md` R110). -/
def core4096 : Capacities := ⟨.unbounded, .unbounded, .upTo 4096, .unbounded, .unbounded⟩

theorem test_wmax :
    core4096.wMax = .upTo 13 ∧ core4096.accBits = .upTo 20 ∧ core4096.cntBits = .upTo 5 := by decide

theorem test_wf_put_code_too_wide : (Instr.bbPut 512 9).wf Capacities.infinite = false := by decide
theorem test_wf_put_width_below_nine : (Instr.bbPut 0 8).wf Capacities.infinite = false := by decide
theorem test_wf_put_width_above_wmax :
    (Instr.bbPut 0 14).wf core4096 = false ∧ (Instr.bbPut 0 13).wf core4096 = true := by decide
theorem test_wf_get_width_below_nine : (Instr.bbGet 8).wf Capacities.infinite = false := by decide
theorem test_wf_get_width_above_wmax : (Instr.bbGet 14).wf core4096 = false := by decide
theorem test_wf_literal_width : (Instr.literal 8 0).wf Capacities.infinite = false := by decide
theorem test_wf_known_is_no_literal : (Instr.known 9 255).wf Capacities.infinite = false := by decide
theorem test_wf_self_code_too_wide : (Instr.selfRef 9 512).wf Capacities.infinite = false := by decide
theorem test_wf_invalid_width : (Instr.invalid 14 256).wf core4096 = false := by decide

/-! ## Decoding: words written out from the encodings of `30_encoding.md` R81, R84, R88 -/

theorem test_decode_commands :
    decode .command [0b00000000] = .ok .nop ∧ decode .command [0b00000001] = .ok .encode ∧
      decode .command [0b00000010] = .ok .decode ∧ decode .command [0b00000011] = .ok .reserved0303 := by
  decide

theorem test_decode_reserved :
    decode .command [0b00000101] = .ok (.reserved0407 0b01) ∧
      decode .command [0b00001010] = .ok (.reserved080F 0b010) ∧
      decode .command [0b00010101] = .ok (.reserved101F 0b0101) ∧
      decode .command [0b00101010] = .ok (.reserved203F 0b01010) ∧
      decode .command [0b01010101] = .ok (.reserved407F 0b010101) ∧
      decode .command [0b10101010] = .ok (.reserved80FF 0b0101010) := by decide

/-- Bits 7 to 0 of a code of width 9 at position 0 are byte 0, bit 8 is bit 0 of byte 1
(`20_memory.md` R64); the padding bits are not examined (`40_bitbuffer.md` R108). -/
theorem test_decode_codes :
    decode (.code 9 false 257) [0b01000001, 0b11111110] = .ok (.literal 9 65) ∧
      decode (.code 9 false 257) [0b00000000, 0b00000001] = .ok (.known 9 256) ∧
      decode (.code 9 false 257) [0b00000001, 0b00000001] = .ok (.selfRef 9 257) ∧
      decode (.code 9 false 257) [0b00000010, 0b00000001] = .ok (.invalid 9 258) := by decide

/-- The first code of a stream: only a literal is legal (`42_decoder.md` R143). -/
theorem test_decode_first_code :
    decode (.code 9 true 256) [0b11111111, 0b00000000] = .ok (.literal 9 255) ∧
      decode (.code 9 true 256) [0b00000000, 0b00000001] = .ok (.invalid 9 256) := by decide

/-- A code of width 10 (`2/10` of vector TE12). -/
theorem test_decode_ten_bits :
    decode (.code 10 false 512) [0b00000010, 0b00000000] = .ok (.literal 10 2) ∧
      decode (.code 10 false 512) [0b00000000, 0b00000010] = .ok (.selfRef 10 512) := by decide

theorem test_decode_rejects :
    decode .command [] = .error .notOneByte ∧ decode .command [0, 0] = .error .notOneByte ∧
      decode (.code 8 false 257) [0] = .error .widthBelowNine ∧
      decode (.code 9 false 257) [0b01000001] = .error .endOfStream := by decide

theorem test_decode_table_word :
    decodeTableWord 8 0x7F = some (.reserved407F 0b111111) ∧
      decodeTableWord 9 0b001000001 = some (.literal 9 65) ∧
      decodeTableWord 9 0b100000000 = some (.known 9 256) ∧
      decodeTableWord 16 0b100000001 = some (.selfRef 9 257) ∧ decodeTableWord 0 0 = none := by decide

/-! ## Commands (vectors TC, examples of R170 to R175) -/

/-- TC4: NOP leaves the error standing. -/
theorem test_nop_leaves_error :
    nextIs (exec .nop { State.reset with phase := .doneErr, err := .illegalCommand, cmd := 3 })
      (fun t => t.cmd = 0 ∧ t.err.value = 5 ∧ t.status = 0x06) = true := by decide

/-- TC5. -/
theorem test_encode_starts :
    nextIs (exec .encode { State.reset with phase := .doneErr, err := .illegalCommand })
      (fun t => t.cmd = 0x01 ∧ t.err.value = 0 ∧ t.outLen = 0 ∧ t.status = 0x01) = true := by decide

/-- TC6: dropped. -/
theorem test_decode_dropped :
    nextIs (exec .decode { State.reset with phase := .encSym, cmd := 0x01 })
      (fun t => t = { State.reset with phase := .encSym, cmd := 0x01 }) = true := by decide

/-- R173: DECODE starts. -/
theorem test_decode_starts :
    nextIs (exec .decode { State.reset with phase := .doneOk, outLen := 5 })
      (fun t => t.cmd = 0x02 ∧ t.outLen = 0 ∧ t.phase = .decInit) = true := by decide

/-- ERR = 5, OUT_LEN = 0, STATUS = 0x06 (R175). -/
def isIllegal (v : Byte) (t : State) : Bool :=
  decide (t.cmd = v ∧ t.err.value = 5 ∧ t.outLen = 0 ∧ t.status = 0x06)

/-- TC2. -/
theorem test_reserved0303 : nextIs (exec .reserved0303 State.reset) (isIllegal 0x03) = true := by decide
theorem test_reserved0407 : nextIs (exec (.reserved0407 1) State.reset) (isIllegal 0x05) = true := by
  decide
theorem test_reserved080F : nextIs (exec (.reserved080F 2) State.reset) (isIllegal 0x0A) = true := by
  decide
theorem test_reserved101F : nextIs (exec (.reserved101F 5) State.reset) (isIllegal 0x15) = true := by
  decide
theorem test_reserved203F : nextIs (exec (.reserved203F 10) State.reset) (isIllegal 0x2A) = true := by
  decide
/-- R175: the host writes 0x7F. -/
theorem test_reserved407F : nextIs (exec (.reserved407F 63) State.reset) (isIllegal 0x7F) = true := by
  decide
/-- TC3. -/
theorem test_reserved80FF : nextIs (exec (.reserved80FF 127) State.reset) (isIllegal 0xFF) = true := by
  decide

/-! ## The bit buffer (vectors TB, TG) -/

/-- R100. -/
theorem test_bb_clear :
    nextIs (exec .bbClear (withHid State.reset (bits 5 3)))
      (fun t => t.hid.acc = 0 ∧ t.hid.cnt = 0) = true := by decide

/-- TB1, second line. -/
theorem test_bb_put :
    nextIs (exec (.bbPut 66 9) { withHid State.reset (bits 0 1) with outLen := 1, outBuf := [(0, 0x41)] })
      (fun t => t.outBuf = [(0, 0x41), (1, 0x84)] ∧ t.outLen = 2 ∧ t.hid.acc = 0 ∧ t.hid.cnt = 2) = true := by
  decide

/-- TB6: OUT_CAP = 2 and the third byte is due. -/
theorem test_bb_put_full :
    nextIs (exec (.bbPut 256 9) { withHid (onCore State.reset small) (bits 0 2) with outLen := 2 })
      (fun t => t.err.value = 4 ∧ t.outLen = 0 ∧ t.status = 0x06) = true := by decide

/-- TB2, the flush. -/
theorem test_bb_flush :
    nextIs (exec .bbFlush { withHid State.reset (bits 5 3) with outLen := 3 })
      (fun t => t.outBuf = [(3, 0x05)] ∧ t.outLen = 4 ∧ t.hid.acc = 0 ∧ t.hid.cnt = 0) = true := by decide

/-- TB4: nothing pending. -/
theorem test_bb_flush_nothing :
    nextIs (exec .bbFlush State.reset) (fun t => t = State.reset) = true := by decide

/-- TG1, call 1. -/
theorem test_bb_get :
    nextIs (exec (.bbGet 9) (sample .decFirst [0x41, 0x84, 0x00, 0x14, 0x08]))
      (fun t => t.hid.got = some 65 ∧ t.hid.acc = 0x42 ∧ t.hid.cnt = 7 ∧ t.hid.ip = 2) = true := by decide

/-- TG2: one byte only. -/
theorem test_bb_get_none :
    nextIs (exec (.bbGet 9) (sample .decFirst [0x41]))
      (fun t => t.hid.got = none ∧ t.hid.acc = 0x41 ∧ t.hid.cnt = 8 ∧ t.hid.ip = 1) = true := by decide

/-! ## The encoder (examples of R120 to R126, vectors TE) -/

/-- R120. -/
theorem test_enc_init :
    nextIs (exec .encInit (withHid (sample .encInit [0x41, 0x42]) (bits 5 3)))
      (fun t => t.hid.eNext = 256 ∧ t.hid.eWidth = 9 ∧ t.hid.omega = [] ∧ t.hid.ip = 0 ∧ t.hid.acc = 0 ∧
        t.phase = .encSym) = true := by decide

/-- TE17: IN_CAP = 4, IN_LEN = 5. -/
theorem test_enc_init_too_long :
    nextIs (exec .encInit { onCore State.reset small with inLen := 5, phase := .encInit })
      (fun t => t.err.value = 4 ∧ t.status = 0x06) = true := by decide

/-- Inside ENCODE of `41 42` after its first symbol. -/
def atSecond : State :=
  withHid (sample .encSym [0x41, 0x42]) { Hidden.reset with ip := 1, omega := [0x41] }

/-- The example of R122: a miss. -/
theorem test_enc_sym_miss :
    nextIs (exec .encSym atSecond)
      (fun t => t.outBuf = [(0, 0x41)] ∧ t.hid.cnt = 1 ∧
        Forward.code? t.hid.fdict [0x41, 0x42] = some 256 ∧ t.hid.eNext = 257 ∧ t.hid.eWidth = 9 ∧
        t.hid.omega = [0x42]) = true := by decide

/-- The example of R123: e_next = 512, e_width = 9. -/
theorem test_enc_sym_width_grows :
    nextIs (exec .encSym (withHid atSecond { atSecond.hid with eNext := 512 }))
      (fun t => t.hid.eNext = 513 ∧ t.hid.eWidth = 10) = true := by decide

/-- R125: omega = `41 42 41` has code 258; TB1, fourth line. -/
theorem test_enc_final :
    nextIs (exec .encFinal (withHid State.reset
        { bits 4 3 with omega := [0x41, 0x42, 0x41], fdict := [([0x41, 0x42, 0x41], 258)] }))
      (fun t => t.outBuf = [(0, 0x14)] ∧ t.hid.acc = 8 ∧ t.hid.cnt = 4 ∧ t.phase = .encFlush) = true := by
  decide

/-- R126: after IN = `41`. -/
theorem test_enc_flush :
    nextIs (exec .encFlush { withHid State.reset (bits 0 1) with outLen := 1, outBuf := [(0, 0x41)] })
      (fun t => t.resultBytes = [0x41, 0x00] ∧ t.status = 0x02) = true := by decide

/-! ## The decoder (examples of R140 to R156, vectors TD) -/

/-- R140. -/
theorem test_dec_init :
    nextIs (exec .decInit { sample .decInit [0x41] with rows := 1, cols := 7 })
      (fun t => t.hid.dNext = 256 ∧ t.hid.dWidth = 9 ∧ t.hid.res = [] ∧ t.phase = .decFirst) = true := by
  decide

/-- TD28: the product does not wrap. -/
theorem test_dec_init_product :
    nextIs (exec .decInit
        { onCore State.reset { small with outCap := .upTo 65536 } with rows := 65535, cols := 65535 })
      (fun t => t.err.value = 4) = true := by decide

/-- R142. -/
theorem test_dec_first :
    nextIs (exec .decFirst (sample .decFirst [0x41, 0x84, 0x00, 0x14, 0x08]))
      (fun t => t.hid.s = [0x41] ∧ t.hid.res = [0x41] ∧ t.hid.dNext = 256 ∧ t.phase = .decNext) = true := by
  decide

/-- TD7: the first code is 256. -/
theorem test_dec_first_corrupt :
    nextIs (exec .decFirst (sample .decFirst [0x00, 0x01]))
      (fun t => t.err.value = 1 ∧ t.outLen = 0 ∧ t.status = 0x06) = true := by decide

/-- Inside DECODE of `41 84 00 14 08` before its third code (TG1). -/
def atThird : State :=
  withHid (sample .decNext [0x41, 0x84, 0x00, 0x14, 0x08])
    { bits 0 6 with
      ip := 3, dNext := 257, s := [0x42], res := [0x41, 0x42], rdict := [(256, [0x41, 0x42])] }

/-- R145: class KNOWN. -/
theorem test_dec_next :
    nextIs (exec .decNext atThird)
      (fun t => t.hid.res = [0x41, 0x42, 0x41, 0x42] ∧ Reverse.seq? t.hid.rdict 257 = some [0x42, 0x41] ∧
        t.hid.dNext = 258 ∧ t.hid.dWidth = 9 ∧ t.hid.s = [0x41, 0x42]) = true := by decide

/-- TG1, call 5: the end of the stream. -/
theorem test_dec_next_end :
    nextIs (exec .decNext (withHid atThird { atThird.hid with ip := 5, cnt := 4 }))
      (fun t => t.phase = .decFinish ∧ t.hid.cnt = 4 ∧ t.hid.res = [0x41, 0x42]) = true := by decide

/-- R155: COLS = 3. -/
theorem test_dec_finish :
    nextIs (exec .decFinish { withHid State.reset { Hidden.reset with res := [0x41, 0x42, 0x41, 0x42] } with
        rows := 1, cols := 3, inLen := 5 })
      (fun t => t.resultBytes = [0x41, 0x42, 0x41] ∧ t.outLen = 3 ∧ t.status = 0x02) = true := by decide

/-- TD4 and TD10: leftover bits or not. -/
theorem test_dec_finish_short :
    nextIs (exec .decFinish { withHid State.reset { bits 0 7 with res := [0x41] } with
        rows := 1, cols := 2, inLen := 2 }) (fun t => t.err.value = 2) = true ∧
      nextIs (exec .decFinish { withHid State.reset { bits 0 0 with res := [0x41] } with
        rows := 3, cols := 3, inLen := 9 }) (fun t => t.err.value = 3) = true := by decide

/-- R152: s = `41`, entry = `42`. -/
theorem test_literal :
    nextIs (exec (.literal 9 0x42) (withHid (sample .decNext []) { Hidden.reset with s := [0x41] }))
      (fun t => Reverse.seq? t.hid.rdict 256 = some [0x41, 0x42] ∧ t.hid.dNext = 257) = true := by decide

/-- R153: d_next = 511, d_width = 9. -/
theorem test_literal_width_grows :
    nextIs (exec (.literal 9 0x42)
        (withHid (sample .decNext []) { Hidden.reset with s := [0x41], dNext := 511 }))
      (fun t => t.hid.dNext = 512 ∧ t.hid.dWidth = 10) = true := by decide

/-- R145, R148: class KNOWN. -/
theorem test_known :
    nextIs (exec (.known 9 256) atThird)
      (fun t => t.hid.s = [0x41, 0x42] ∧ Reverse.seq? t.hid.rdict 257 = some [0x42, 0x41]) = true := by
  decide

/-- R149: stream `65/9 256/9`. -/
theorem test_self :
    nextIs (exec (.selfRef 9 256)
        (withHid (sample .decNext []) { Hidden.reset with s := [0x41], res := [0x41] }))
      (fun t => t.hid.res = [0x41, 0x41, 0x41] ∧ Reverse.seq? t.hid.rdict 256 = some [0x41, 0x41]) = true := by
  decide

/-- R150: stream `65/9 257/9`. -/
theorem test_invalid :
    nextIs (exec (.invalid 9 257) (withHid (sample .decNext []) { Hidden.reset with s := [0x41] }))
      (fun t => t.err.value = 1 ∧ t.outLen = 0 ∧ t.status = 0x06) = true := by decide

/-! ## Steps -/

/-- R171, R173: the very next step runs the placed command. -/
theorem test_step_command :
    nextIs (step (State.reset.withFetchWord 8 0x02)) (fun t => t.cmd = 0x02 ∧ t.phase = .decInit) = true := by
  decide

/-- The very next step runs the placed code: 256 is KNOWN, 257 SELF, 258 INVALID. -/
theorem test_step_code :
    nextIs (step (State.reset.withFetchWord 9 65)) (fun t => t.hid.s = [65]) = true ∧
      nextIs (step (State.reset.withFetchWord 9 256)) (fun t => t.hid.s = [0, 0]) = true ∧
      nextIs (step (State.reset.withFetchWord 9 257)) (fun t => t.hid.s = [0, 0, 0]) = true ∧
      nextIs (step (State.reset.withFetchWord 9 258)) (fun t => t.err = .decodeCorruption) = true := by
  decide

/-- TC9: a host write of IN_LEN at DONE_OK. -/
theorem test_step_host_write :
    nextIs (step { State.reset with phase := .doneOk, outLen := 5, host := [.write .inLen 2] })
      (fun t => t.inLen = 2 ∧ t.outLen = 5 ∧ t.status = 0x02 ∧ t.host = []) = true := by decide

/-- TE5 and TD13, whole. -/
theorem test_functions :
    encodeBytes [0x41, 0x42, 0x41, 0x42, 0x41, 0x42, 0x41] =
        some (.ok [0x41, 0x84, 0x00, 0x14, 0x08]) ∧
      decodeBytes [0x41, 0x84, 0x00, 0x14, 0x08] 1 7 =
        some (.ok [0x41, 0x42, 0x41, 0x42, 0x41, 0x42, 0x41]) := by decide

/-! ## Witnesses: states and operands that meet the hypotheses of each statement -/

/-- DecodeOfEncode: a command, and a code of each class at a boundary of its range. -/
theorem test_witness_DecodeOfEncode :
    ((Instr.reserved80FF 127).wf small = true ∧ encode (.reserved80FF 127) = some [0xFF] ∧
        readIn (.reserved80FF 127) .command) ∧
      ((Instr.literal 9 255).wf small = true ∧ encode (.literal 9 255) = some [0xFF, 0x00] ∧
        readIn (.literal 9 255) (.code 9 true 256)) ∧
      ((Instr.known 9 256).wf small = true ∧ encode (.known 9 256) = some [0x00, 0x01] ∧
        readIn (.known 9 256) (.code 9 false 257)) ∧
      ((Instr.selfRef 10 512).wf core4096 = true ∧ encode (.selfRef 10 512) = some [0x00, 0x02] ∧
        readIn (.selfRef 10 512) (.code 10 false 512)) ∧
      ((Instr.invalid 9 511).wf small = true ∧ encode (.invalid 9 511) = some [0xFF, 0x01] ∧
        readIn (.invalid 9 511) (.code 9 false 510)) ∧
      (encode (.invalid 9 256) = some [0x00, 0x01] ∧ readIn (.invalid 9 256) (.code 9 true 256)) :=
  ⟨⟨by decide, by decide, rfl⟩, ⟨by decide, by decide, ⟨true, 256, rfl⟩⟩,
    ⟨by decide, by decide, ⟨257, by decide, rfl⟩⟩, ⟨by decide, by decide, rfl⟩,
    ⟨by decide, by decide, ⟨false, 510, .inr (by decide), rfl⟩⟩,
    ⟨by decide, ⟨true, 256, .inl rfl, rfl⟩⟩⟩

/-- CodeClasses at the boundaries: 255, 256 and 257 with d_next 256 and 257. -/
theorem test_witness_CodeClasses :
    classOf false 256 255 = .literal ∧ classOf false 256 256 = .selfRef ∧ classOf false 256 257 = .invalid ∧
      classOf false 257 256 = .known ∧ classOf true 256 255 = .literal ∧ classOf true 256 256 = .invalid := by
  decide

/-- WidthsAreLeast: the first boundaries of the table of R86. -/
theorem test_witness_WidthsAreLeast :
    codeWidth 1 = 9 ∧ codeWidth 2 = 9 ∧ codeWidth 257 = 9 ∧ codeWidth 258 = 10 ∧ codeWidth 769 = 10 ∧
      codeWidth 770 = 11 := by decide

/-- WriteToCmd, NopKeepsTheResult, CommandsStart, ReservedValuesAreIllegal: busy and not; the first and last
reserved value. -/
theorem test_witness_commands :
    (sample .encSym []).phase.busy = true ∧ State.reset.phase.busy = false ∧
      (0x03 : Byte) ≤ 0x03 ∧ (0x03 : Byte) ≤ 0xFF ∧ encode .reserved0303 = some [0x03] ∧
      encode (.reserved80FF 127) = some [0xFF] := by decide

/-- OutByteAppends: a full OUT, the last byte, and an unbounded OUT. -/
theorem test_witness_OutByteAppends :
    { onCore State.reset small with outLen := 2 }.cfg.outCap = .upTo 2 ∧ 1 < 2 ∧
      State.reset.cfg.outCap = .unbounded := by decide

/-- BbPutPacksTheCode, BbFlushWritesThePendingBits: room for exactly the bytes due, and one too few. -/
theorem test_witness_put_and_flush :
    (5 < 2 ^ 3 ∧ small.outCap.fits (1 + (3 + 9) / 8) = true) ∧
      (small.outCap.fits 2 = true ∧ small.outCap.fits (2 + (3 + 9) / 8) = false) ∧
      (small.outCap.fits (1 + (3 + 7) / 8) = true) ∧ small.outCap.fits (2 + (3 + 7) / 8) = false := by decide

/-- BbGetReadsACode, DecFirstTakesALiteral: TG1, call 1. -/
theorem test_witness_get_code :
    let s := sample .decFirst [0x41, 0x84]
    s.cfg.inCap.fits s.inLen = true ∧ s.hid.acc < 2 ^ s.hid.cnt ∧
      s.hid.ip + (9 - s.hid.cnt + 7) / 8 ≤ s.inLen ∧
      pending s ((s.hid.dWidth - s.hid.cnt + 7) / 8) % 2 ^ s.hid.dWidth = 65 ∧
      Reverse.seq? s.hid.rdict 65 = some [BitVec.ofNat 8 65] := by decide

/-- DecFirstTakesALiteral, the other clause: the first code is 256 (TD7). -/
theorem test_witness_first_code_256 :
    let s := sample .decFirst [0x00, 0x01]
    s.hid.ip + (s.hid.dWidth - s.hid.cnt + 7) / 8 ≤ s.inLen ∧
      pending s ((s.hid.dWidth - s.hid.cnt + 7) / 8) % 2 ^ s.hid.dWidth = 256 := by decide

/-- BbGetFindsTheEnd, EndOfStreamHandsOver: TG2, and TG1, call 5. -/
theorem test_witness_end_of_stream :
    (let s := sample .decFirst [0x41]
     s.hid.acc < 2 ^ s.hid.cnt ∧ s.hid.ip ≤ s.inLen ∧
       s.inLen < s.hid.ip + (s.hid.dWidth - s.hid.cnt + 7) / 8) ∧
    (let s := withHid atThird { atThird.hid with ip := 5, cnt := 4 }
     s.hid.acc < 2 ^ s.hid.cnt ∧ s.hid.ip ≤ s.inLen ∧
       s.inLen < s.hid.ip + (s.hid.dWidth - s.hid.cnt + 7) / 8) := by decide

/-- PackThenGetReturnsTheCodes: TB1 and TG1. -/
theorem test_witness_pack :
    (∀ x ∈ [(65, 9), (66, 9), (256, 9), (258, 9)], 9 ≤ x.2 ∧ x.1 < 2 ^ x.2) ∧
      State.reset.cfg = Capacities.infinite ∧ State.reset.outLen = 0 ∧
      (match packRun [(65, 9), (66, 9), (256, 9), (258, 9)] State.reset with
        | .ok t => decide (t.outBuf.map Prod.snd = [0x41, 0x84, 0x00, 0x14, 0x08])
        | .error _ => false) = true ∧
      (match getAll [9, 9, 9, 9, 9] (sample .idle [0x41, 0x84, 0x00, 0x14, 0x08]) with
        | .ok (answers, _) => decide (answers = [some 65, some 66, some 256, some 258, none])
        | .error _ => false) = true := by decide

/-- EncInitPreparesTheEncoder, DecInitPreparesTheDecoder: IN_LEN = IN_CAP and one more; ROWS · COLS = OUT_CAP
and one more. -/
theorem test_witness_inits :
    small.inCap.fits 4 = true ∧ small.inCap.fits 5 = false ∧ small.outCap.fits (1 * 2) = true ∧
      small.outCap.fits (1 * 3) = false := by decide

/-- EncSymExtendsTheMatch: the input exhausted; and a first symbol, which hits. -/
theorem test_witness_hit :
    (let s := sample .encSym []; s.hid.ip = s.inLen) ∧
    (let s := sample .encSym [0x41]
     s.hid.ip < s.inLen ∧ s.cfg.inCap.fits s.inLen = true ∧
       (Forward.code? s.hid.fdict (s.hid.omega ++ [s.inValue s.hid.ip])).isSome = true) := by decide

/-- EncSymEmitsAndLearns: the example of R122. -/
theorem test_witness_miss :
    let s := atSecond
    s.hid.ip < s.inLen ∧ s.cfg.inCap.fits s.inLen = true ∧
      Forward.code? s.hid.fdict (s.hid.omega ++ [s.inValue s.hid.ip]) = none ∧
      Forward.code? s.hid.fdict s.hid.omega = some 65 ∧
      s.cfg.outCap.fits (s.outLen + (s.hid.cnt + s.hid.eWidth) / 8) = true ∧
      s.cfg.dictCap.isFull s.hid.eNext = false := by decide

/-- EncSymCapacity: OUT full; and TE15, the dictionary full at the second miss. -/
theorem test_witness_EncSymCapacity :
    (let s := { onCore atSecond small with outLen := 2 }
     Forward.code? s.hid.fdict (s.hid.omega ++ [s.inValue s.hid.ip]) = none ∧
       Forward.code? s.hid.fdict s.hid.omega = some 65 ∧ s.cfg.outCap.fits s.outLen = true ∧
       s.cfg.inCap.fits s.inLen = true ∧ s.hid.ip < s.inLen ∧
       s.cfg.outCap.fits (s.outLen + (s.hid.cnt + s.hid.eWidth) / 8) = false) ∧
    (let s := withHid (onCore (sample .encSym [0x41, 0x42, 0x43]) small)
        { Hidden.reset with ip := 2, omega := [0x42], fdict := [([0x41, 0x42], 256)], eNext := 257 }
     Forward.code? s.hid.fdict (s.hid.omega ++ [s.inValue s.hid.ip]) = none ∧
       Forward.code? s.hid.fdict s.hid.omega = some 66 ∧ s.cfg.outCap.fits s.outLen = true ∧
       s.cfg.inCap.fits s.inLen = true ∧ s.hid.ip < s.inLen ∧ s.cfg.dictCap = .upTo s.hid.eNext) := by
  decide

/-- EncFinalEmitsTheLastMatch, EncFlushEndsTheCommand: TE18, OUT_CAP = 1, before and after its byte. -/
theorem test_witness_final_and_flush :
    (let s := sample .encFinal []; s.hid.omega = []) ∧
    (let s := withHid (onCore State.reset { small with outCap := .upTo 1 }) { bits 0 0 with omega := [0x41] }
     s.hid.omega ≠ [] ∧ Forward.code? s.hid.fdict s.hid.omega = some 65 ∧
       s.cfg.outCap.fits (s.outLen + (s.hid.cnt + s.hid.eWidth) / 8) = true) ∧
    (let s := { withHid (onCore State.reset { small with outCap := .upTo 1 })
        { bits 0 1 with omega := [0x41] } with outLen := 1 }
     s.hid.omega ≠ [] ∧ Forward.code? s.hid.fdict s.hid.omega = some 65 ∧
       s.cfg.outCap.fits s.outLen = true ∧
       s.cfg.outCap.fits (s.outLen + (s.hid.cnt + s.hid.eWidth) / 8) = false ∧
       s.cfg.outCap.fits (s.outLen + (s.hid.cnt + 7) / 8) = false) := by decide

/-- DecNextErrors: TD8, and TD25, the dictionary full. -/
theorem test_witness_DecNextErrors :
    (let s := withHid (sample .decNext [0x41, 0x02, 0x02]) { bits 1 7 with ip := 2, s := [0x41] }
     s.cfg.inCap.fits s.inLen = true ∧ s.hid.acc < 2 ^ s.hid.cnt ∧
       s.hid.ip + (s.hid.dWidth - s.hid.cnt + 7) / 8 ≤ s.inLen ∧ 256 ≤ s.hid.dNext ∧
       s.hid.dNext < pending s ((s.hid.dWidth - s.hid.cnt + 7) / 8) % 2 ^ s.hid.dWidth) ∧
    (let s := withHid (onCore (sample .decNext [0x41, 0x84, 0x0C, 0x01]) small)
        { bits 3 6 with ip := 3, s := [0x42], dNext := 257, rdict := [(256, [0x41, 0x42])] }
     s.cfg.inCap.fits s.inLen = true ∧ s.hid.acc < 2 ^ s.hid.cnt ∧
       s.hid.ip + (s.hid.dWidth - s.hid.cnt + 7) / 8 ≤ s.inLen ∧
       pending s ((s.hid.dWidth - s.hid.cnt + 7) / 8) % 2 ^ s.hid.dWidth = 67 ∧
       s.hid.dNext < 2 ^ s.hid.dWidth ∧ s.cfg.dictCap = .upTo s.hid.dNext ∧
       (Reverse.seq? s.hid.rdict 67).isSome ∧ s.hid.s ≠ []) := by decide

/-- DecNextProcessesACode: the example of R145, class KNOWN; and `65/9 256/9` of TD14, class SELF. -/
theorem test_witness_DecNextProcessesACode :
    (let s := atThird
     s.cfg.inCap.fits s.inLen = true ∧ s.hid.acc < 2 ^ s.hid.cnt ∧
       s.hid.ip + (s.hid.dWidth - s.hid.cnt + 7) / 8 ≤ s.inLen ∧
       256 = pending s ((s.hid.dWidth - s.hid.cnt + 7) / 8) % 2 ^ s.hid.dWidth ∧
       s.hid.dNext < 2 ^ s.hid.dWidth ∧ s.cfg.dictCap.isFull s.hid.dNext = false ∧
       Reverse.seq? s.hid.rdict 256 = some [0x41, 0x42]) ∧
    (let s := withHid (sample .decNext [0x41, 0x00, 0x02]) { bits 0 7 with ip := 2, s := [0x41] }
     s.hid.ip + (s.hid.dWidth - s.hid.cnt + 7) / 8 ≤ s.inLen ∧ s.hid.acc < 2 ^ s.hid.cnt ∧
       s.hid.dNext = pending s ((s.hid.dWidth - s.hid.cnt + 7) / 8) % 2 ^ s.hid.dWidth ∧
       s.hid.s = [0x41] ∧ s.hid.dNext < 2 ^ s.hid.dWidth) := by decide

/-- LaterCodesAreProcessed, LaterCodesWithDictionaryFull: an insertion, no insertion, and a full
dictionary. -/
theorem test_witness_later_codes :
    (let s := atThird
     s.phase ≠ .decFirst ∧ Reverse.seq? s.hid.rdict (0x42 : Byte).toNat = some [0x42] ∧
       Reverse.seq? s.hid.rdict 256 = some [0x41, 0x42] ∧ s.hid.s = [0x42] ∧
       s.hid.dNext < 2 ^ s.hid.dWidth ∧ s.cfg.dictCap.isFull s.hid.dNext = false) ∧
    (let s := withHid atThird { atThird.hid with dNext := 512 }
     s.phase ≠ .decFirst ∧ 2 ^ s.hid.dWidth ≤ s.hid.dNext ∧ s.hid.s = [0x42]) ∧
    (let s := onCore atThird small
     s.phase ≠ .decFirst ∧ s.hid.dNext < 2 ^ s.hid.dWidth ∧ s.cfg.dictCap = .upTo s.hid.dNext) := by decide

/-- FirstCodes. -/
theorem test_witness_FirstCodes :
    (sample .decFirst []).phase = .decFirst ∧
      Reverse.seq? (sample .decFirst []).hid.rdict (0xFF : Byte).toNat = some [0xFF] := by decide

/-- DecFinishDeliversOrRefuses: NEED = len(res) = OUT_CAP; a short result with an empty stream, with leftover
bits, and on a code boundary. -/
theorem test_witness_DecFinish :
    (let s := { withHid (onCore State.reset small) { Hidden.reset with res := [1, 2] } with
        rows := 1, cols := 2 }
     s.rows * s.cols ≤ s.hid.res.length ∧ s.cfg.outCap.fits (s.rows * s.cols) = true) ∧
    (let s := { State.reset with rows := 1, cols := 1 }
     s.hid.res.length < s.rows * s.cols ∧ s.inLen = 0) ∧
    (let s := { withHid State.reset (bits 0 1) with rows := 1, cols := 1, inLen := 2 }
     s.hid.res.length < s.rows * s.cols ∧ 0 < s.hid.cnt) ∧
    (let s := { State.reset with rows := 1, cols := 1, inLen := 9 }
     s.hid.res.length < s.rows * s.cols ∧ s.inLen ≠ 0 ∧ s.hid.cnt = 0) := by decide

/-- StepRunsTheCommand, StepRunsTheMicroOperation, WaitEndsAtDone. -/
theorem test_witness_steps :
    { State.reset with host := [.write .cmd (0xFF : Byte).toNat] }.host = [.write .cmd 255] ∧
      State.reset.host = [] ∧ { State.reset with host := [.pause] }.host = [.pause] ∧
      (sample .doneOk []).status.getLsbD 1 = true ∧ (sample .idle []).status.getLsbD 1 = false ∧
      (sample .encSym []).status.getLsbD 1 = false ∧ microOp (sample .encSym []).phase = some .encSym := by
  decide

/-- StepRunsTheDecodedCode: the example of R145; the bytes of code 256 with its pending bits. -/
theorem test_witness_StepRunsTheDecodedCode :
    let s := atThird
    s.host = [] ∧ s.phase = .decNext ∧ s.cfg.inCap.fits s.inLen = true ∧ s.hid.acc < 2 ^ s.hid.cnt ∧
      s.hid.ip + (s.hid.dWidth - s.hid.cnt + 7) / 8 ≤ s.inLen ∧
      leValue [0x00, 0x05] = pending s ((s.hid.dWidth - s.hid.cnt + 7) / 8) ∧
      decode (.code s.hid.dWidth (decide (s.phase = .decFirst)) s.hid.dNext) [0x00, 0x05] =
        .ok (.known 9 256) := by decide

/-- StatusBits, HostWritesRegisters, HostAccessesBuffers, ResultsAreStable: the widest values, the last
index, busy and not, a result. -/
theorem test_witness_host :
    { sample .decNext [] with host := [.write .status 0xFF] }.host = .write .status 0xFF :: [] ∧
    small.lenBits.holdsValue 15 = true ∧ small.lenBits.holdsValue 16 = false ∧
      small.dimBits.holdsValue 65535 = true ∧ small.inCap.hasIndex 3 = true ∧
      small.inCap.hasIndex 4 = false ∧ small.outCap.hasIndex 1 = true ∧
      (sample .decNext []).phase.busy = true ∧ (sample .doneErr []).phase.busy = false ∧
      (let s := { sample .doneOk [] with outLen := 2, outBuf := [(0, 0x41), (1, 0x00)] }
       1 < s.outLen ∧ Memory.read s.outBuf 1 = some 0x00 ∧
         nextIs (step s) (fun t => t = s) = true) := by decide

/-- HostAccessesBuffers, ResultsAreStable: at DONE_OK two reads in a row of a byte above the result. -/
theorem test_witness_reads_above_the_result :
    let s := { onCore (sample .doneOk []) small with outLen := 1, outBuf := [(0, 0x41)] }
    s.phase.busy = false ∧ s.cfg.outCap.hasIndex 1 = true ∧
      step { s with host := [.readOut 1, .readOut 1] } =
        .next { s with host := [.readOut 1], seen := [.out 1 (s.outValue 1)] } ∧
      step { s with host := [.readOut 1], seen := [.out 1 (s.outValue 1)] } =
        .next { s with seen := [.out 1 (s.outValue 1), .out 1 (s.outValue 1)] } :=
  ⟨rfl, rfl, rfl, rfl⟩

/-- AccumulatorHoldsTheBits: on a CORE of ACC_BITS = 16, where BB.PUT and BB.GET of 9 bits on 7 pending ones
fill the accumulator. -/
theorem test_witness_AccumulatorHoldsTheBits :
    let s := { onCore (withHid State.reset (bits 127 7)) small with inLen := 1, inBuf := [(0, 0xFF)] }
    small.dictCap.fits 257 = true ∧ s.cfg.wMax.fits 9 = true ∧ s.hid.cnt < 8 ∧
      s.hid.acc < 2 ^ s.hid.cnt ∧ 511 < 2 ^ 9 ∧
      drain 0 { s with hid := { s.hid with acc := s.hid.acc ||| (511 <<< 7), cnt := s.hid.cnt + 9 } } =
        .ok { s with hid := { s.hid with acc := 65535, cnt := 16 } } ∧
      fill 9 1 s = .ok { s with hid := { s.hid with acc := 32767, cnt := 15, ip := 1 } } ∧
      small.accBits.fits 16 = true := by decide

/-- ResetValues: a reset during a command. -/
theorem test_witness_reset :
    { sample .encSym [0x41] with host := [.reset] }.host = [.reset] := by decide

/-- ResetMeetsTheInvariant, StepKeepsTheInvariant, TheCoreNeverStops, EncodeEndsInTime: at the start of
ENCODE of `41`, on a small CORE. -/
theorem test_witness_invariant_encode :
    let s := onCore (sample .encInit [0x41]) small
    Invariant s ∧ s.phase = .encInit ∧ s.host = [] :=
  ⟨{ capacities := test_small_capacities_in_order, inLenWidth := by decide, rowsWidth := by decide,
     colsWidth := by decide, outFits := by decide, hidden := .of_reset test_small_capacities_in_order, errReported := by decide, noLength := by decide,
     inOk := ⟨by decide, by decide⟩, outOk := ⟨by decide, by decide⟩, outListed := by decide,
     encoder := by simp [onCore, sample], decoder := by simp [onCore, sample] }, rfl, rfl⟩

/-- DecodeEndsInTime: at the start of DECODE of `41 00`. -/
theorem test_witness_invariant_decode :
    let s := { sample .decInit [0x41, 0x00] with rows := 1, cols := 1 }
    Invariant s ∧ s.phase = .decInit ∧ s.host = [] :=
  ⟨{ capacities := Capacities.infinite_wf, inLenWidth := by decide, rowsWidth := by decide,
     colsWidth := by decide, outFits := by decide, hidden := .of_reset Capacities.infinite_wf, errReported := by decide, noLength := by decide,
     inOk := ⟨by decide, by decide⟩, outOk := ⟨by decide, by decide⟩, outListed := by decide,
     encoder := by simp [sample], decoder := by simp [sample] }, rfl, rfl⟩

/-- StepKeepsTheInvariant inside an ENCODE, where a sequence has been learned: `41 42 42` before its last
symbol, OUT = `41`. -/
theorem test_witness_invariant_inside_encode :
    let s := { withHid (sample .encSym [0x41, 0x42, 0x42])
        { bits 0 1 with ip := 2, omega := [0x42], fdict := [([0x41, 0x42], 256)], eNext := 257 } with
        outLen := 1, outBuf := [(0, 0x41)] }
    Invariant s ∧ nextIs (step s) (fun t => t.hid.eNext = 258) = true :=
  ⟨{ capacities := Capacities.infinite_wf, inLenWidth := by decide, rowsWidth := by decide,
     colsWidth := by decide, outFits := by decide, hidden := by constructor <;> decide,
     errReported := by decide, noLength := by decide,
     inOk := ⟨by decide, by decide⟩, outOk := ⟨by decide, by decide⟩, outListed := by decide,
     encoder := fun _ =>
       { inFits := by decide, ipInside := by decide, accBelow := by decide, cntSmall := by decide,
         dictOk := ⟨rfl, by decide, by decide, by decide, rfl⟩, dictFits := by decide, width := by decide,
         omegaKey := by decide, omegaEmpty := by decide },
     decoder := by simp [withHid, sample] }, by decide⟩

/-- StepKeepsTheInvariant inside a DECODE: `41 84 00 14 08` before its third code. -/
theorem test_witness_invariant_inside_decode : Invariant atThird :=
  { capacities := Capacities.infinite_wf, inLenWidth := by decide, rowsWidth := by decide,
    colsWidth := by decide, outFits := by decide, hidden := by constructor <;> decide,
    errReported := by decide, noLength := by decide,
    inOk := ⟨by decide, by decide⟩, outOk := ⟨by decide, by decide⟩, outListed := by decide,
    encoder := by simp [atThird, withHid, sample],
    decoder := fun _ =>
      { inFits := by decide, needFits := by decide, ipInside := by decide, accBelow := by decide,
        dictOk := ⟨rfl, by decide, rfl⟩, dictFits := by decide, width := by decide, atFirst := by decide,
        atNext := by decide, atFinish := by decide } }

/-- TheCoreNeverStops: moves allowed at the widest value and at the last index, and while BUSY = 1. -/
theorem test_witness_allowed_moves :
    moveAllowed (onCore State.reset small) (.write .inLen 15) ∧
      moveAllowed (onCore State.reset small) (.load 3 0xFF) ∧
      moveAllowed (onCore State.reset small) (.readOut 1) ∧ moveAllowed State.reset (.write .cmd 255) ∧
      moveAllowed (sample .encSym []) (.read .outLen) :=
  ⟨⟨by decide, by decide⟩, ⟨by decide, by decide⟩, rfl, Nat.lt_succ_self 255, trivial⟩

/-- PhaseTransitionsAreLegal, InstructionsKeepTheOperands, UnitsKeepToTheirRegisters,
OnlyTheWritersChangeOut, WidthsAreMonotone: instructions that answer a next state without an error. -/
theorem test_witness_next_states :
    nextIs (exec .encSym atSecond) (fun t => decide (t.phase ≠ .doneErr)) = true ∧
      nextIs (exec .decNext atThird) (fun t => decide (t.phase ≠ .doneErr)) = true ∧
      nextIs (exec (.known 9 256) atThird) (fun t => decide (t.phase ≠ .doneErr)) = true ∧
      nextIs (step (sample .encInit [])) (fun t => t.phase = .encSym) = true := by decide

/-- ErrorsAreEnteredWhole, ErrorsByInstruction: an instruction that ends in an error (TD8). -/
theorem test_witness_errors :
    isCommand (.invalid 9 257) = false ∧ (sample .decNext []).phase ≠ .doneErr ∧
      nextIs (exec (.invalid 9 257) (sample .decNext [])) (fun t => t.phase = .doneErr) = true := by decide

/-- HiddenStateDoesNotLeak: one step from each start. -/
theorem test_witness_HiddenStateDoesNotLeak :
    (sample .encInit [0x41]).phase = .encInit ∧ (sample .encInit [0x41]).host = [] ∧
      nextIs (core.run 1 (sample .encInit [0x41])) (fun t => t.phase = .encSym) = true ∧
      nextIs (core.run 1 (sample .decInit [0x41])) (fun t => t.phase = .decFirst) = true := by decide

/-- CommandsComputeTheFunctions: the start of ENCODE and of DECODE with two bytes in IN. -/
theorem test_witness_CommandsComputeTheFunctions :
    let s := sample .encInit [0x41, 0x42]
    s.phase = .encInit ∧ s.host = [] ∧ s.outLen = 0 ∧ s.outBuf = [] ∧ s.inLen = 2 ∧
      (∀ i, i < 2 → Memory.read s.inBuf i = [(0x41 : Byte), 0x42][i]?) ∧
      (sample .decInit [0x41, 0x00]).phase = .decInit := by decide

/-- RoundTrip and EncodedLengthIsBounded: TE2, TD3, and the empty sequence with 0 rows and 5 columns. -/
theorem test_witness_RoundTrip :
    1 * 1 = [(0x41 : Byte)].length ∧ encodeBytes [0x41] = some (.ok [0x41, 0x00]) ∧
      decodeBytes [0x41, 0x00] 1 1 = some (.ok [0x41]) ∧ 0 * 5 = ([] : ByteSeq).length := by decide

end Sys2Proof.Tests
end

section
/-! SUPPORT. STATUS (`10_state.md` R23): its bits are the flags, its values the classes of phase, and what a
host write to a register other than CMD does to a step. -/

namespace Sys2Proof.Machine

/-! ### The flags as sets of phases -/

theorem Phase.busy_iff_mem (p : Phase) :
    p.busy = true ↔
      p ∈ [.encInit, .encSym, .encFinal, .encFlush, .decInit, .decFirst, .decNext, .decFinish] := by
  cases p <;> decide

theorem Phase.done_iff_mem (p : Phase) : p.done = true ↔ p ∈ [.doneOk, .doneErr] := by
  cases p <;> decide

theorem Phase.errf_iff (p : Phase) : p.errf = true ↔ p = .doneErr := decide_eq_true_iff

/-! ### The bits of STATUS -/

section
variable (s : State)

@[simp] theorem status_getLsbD_zero : s.status.getLsbD 0 = s.phase.busy := by
  unfold State.status
  cases s.phase <;> rfl

@[simp] theorem status_getLsbD_one : s.status.getLsbD 1 = s.phase.done := by
  unfold State.status
  cases s.phase <;> rfl

@[simp] theorem status_getLsbD_two : s.status.getLsbD 2 = s.phase.errf := by
  unfold State.status
  cases s.phase <;> rfl

theorem status_toNat_lt : s.status.toNat < 2 ^ 3 := by
  unfold State.status
  cases s.phase <;> decide

/-- Above the three flags STATUS reads 0, also past its width: its number is below 8. -/
theorem status_getLsbD_of_three_le {i : Nat} (hi : 3 ≤ i) : s.status.getLsbD i = false :=
  Nat.testBit_eq_false_of_lt
    ((status_toNat_lt s).trans_le (Nat.pow_le_pow_right Nat.two_pos hi))

/-! ### The legal values of STATUS -/

theorem status_eq_idle_iff : s.status = 0x00 ↔ s.phase = .idle := by
  unfold State.status
  cases s.phase <;> decide

theorem status_eq_busy_iff : s.status = 0x01 ↔ s.phase.busy = true := by
  unfold State.status
  cases s.phase <;> decide

theorem status_eq_doneOk_iff : s.status = 0x02 ↔ s.phase = .doneOk := by
  unfold State.status
  cases s.phase <;> decide

theorem status_eq_doneErr_iff : s.status = 0x06 ↔ s.phase = .doneErr := by
  unfold State.status
  cases s.phase <;> decide

end

/-! ### Host writes of registers other than CMD -/

section
variable {s : State} {rest : List HostMove} {r : Reg} {v : Nat}

/-- A write to a register other than CMD is a move of the host's, not a command (`10_state.md` R22). -/
theorem step_write (hr : r ≠ .cmd) (h : s.host = .write r v :: rest) :
    step s = hostWrite r v { s with host := rest } := by
  rw [step, fetch, h]
  cases r with
  | cmd => exact absurd rfl hr
  | _ => rfl

/-- A write to STATUS leaves the host's list and changes nothing else (`10_state.md` R21, R23). -/
theorem step_write_status (h : s.host = .write .status v :: rest) :
    step s = .next { s with host := rest } :=
  step_write (by decide) h

end

/-- Settles O11: the bits by the flags, the values by the class of phase, the write by `step_write`. -/
theorem statusBits : Obligations.StatusBits := by
  intro s
  refine ⟨?bit0, ?bit1, ?bit2, fun _ => status_getLsbD_of_three_le s, status_eq_idle_iff s,
    status_eq_busy_iff s, status_eq_doneOk_iff s, status_eq_doneErr_iff s,
    fun _ _ => step_write_status⟩
  case bit0 => rw [status_getLsbD_zero, Phase.busy_iff_mem]
  case bit1 => rw [status_getLsbD_one, Phase.done_iff_mem]
  case bit2 => rw [status_getLsbD_two, Phase.errf_iff]

end Sys2Proof.Machine
end

section
/-! SUPPORT. The bit buffer as the instructions show it (`40_bitbuffer.md`): the bytes the drain loop leaves in
OUT, what becomes of the pending bits, and what an error leaves defined. -/

namespace Sys2Proof

theorem Cap.fits_succ_of_unbounded_or_lt {cap : Cap} {n : Nat}
    (h : cap = .unbounded ∨ ∃ c, cap = .upTo c ∧ n < c) : cap.fits (n + 1) = true := by
  rcases h with rfl | ⟨c, rfl, hc⟩
  · rfl
  · exact decide_eq_true hc

namespace Machine

section
variable (s : State)

/-! ### The instructions and their errors -/

theorem exec_bbClear : exec .bbClear s = .next (bbClear s) := rfl

theorem exec_bbFlush : exec .bbFlush s = conclude s (bbFlush s) := rfl

/-- A raised error leaves exactly what `60_exceptions.md` R206 and R208 keep. -/
theorem endedBy_raiseError {e : ErrCode} (he : e ≠ .none) : EndedBy e s (raiseError e s) where
  err := rfl
  isError := he
  outLen := rfl
  phase := rfl
  status := (status_eq_doneErr_iff _).mpr rfl
  cmd := rfl
  inLen := rfl
  rows := rfl
  cols := rfl
  inBuf := rfl
  cfg := rfl
  host := rfl
  seen := rfl
  era := rfl

end

/-! ### The drain loop -/

/-- Byte `k` of a number is the number shifted down by `k` bytes, cut to one. -/
theorem getElem?_leBytes {n k : Nat} (v : Nat) (hk : k < n) :
    (leBytes n v)[k]? = some (lowByte (v / 2 ^ (8 * k))) := by
  induction n generalizing k v with
  | zero => omega
  | succ n ih =>
    cases k with
    | zero => simp [leBytes]
    | succ k =>
      rw [leBytes, List.getElem?_cons_succ, ih _ (by omega), Nat.shiftRight_eq_div_pow,
        Nat.div_div_eq_div_mul, ← Nat.pow_add, Nat.mul_succ, Nat.add_comm 8]

section
variable {n : Nat} {s : State}

/-- Byte `k` that the loop moves out stands at OUT_LEN + `k`. -/
theorem read_drained {k : Nat} (hk : k < n) :
    Memory.read (drained n s).outBuf (s.outLen + k) = some (lowByte (s.hid.acc / 2 ^ (8 * k))) :=
  (read_loadBytes _ _ (by rwa [leBytes_length])).trans (getElem?_leBytes _ hk)

/-- Outside the bytes it appends the loop leaves OUT as it was. -/
theorem read_drained_outside {a : Nat} (ha : a < s.outLen ∨ s.outLen + n ≤ a) :
    Memory.read (drained n s).outBuf a = Memory.read s.outBuf a := by
  rcases ha with hlo | hhi
  · exact read_loadBytes_below _ _ hlo
  · exact read_loadBytes_above _ _ (by rwa [leBytes_length])

/-- Turns enough for every pending bit leave the bit buffer empty (`40_bitbuffer.md` R104). -/
theorem drained_of_cnt_le (hacc : s.hid.acc < 2 ^ s.hid.cnt) (hn : s.hid.cnt ≤ 8 * n) :
    drained n s =
      { s with
        hid := { s.hid with acc := 0, cnt := 0 }
        outBuf := (drained n s).outBuf
        outLen := s.outLen + n } := by
  have hcnt : s.hid.cnt - 8 * n = 0 := Nat.sub_eq_zero_of_le hn
  have hzero : s.hid.acc >>> (8 * n) = 0 := by
    simpa [hcnt] using shiftRight_lt (8 * n) hacc
  simp only [drained, hcnt, hzero]

/-- BB.FLUSH with room for its bytes (`40_bitbuffer.md` R104). -/
theorem bbFlush_ok (h : s.cfg.outCap.fits (s.outLen + (s.hid.cnt + 7) / 8) = true) :
    bbFlush s = .ok (drained ((s.hid.cnt + 7) / 8) s) := drain_ok _ h

/-- BB.FLUSH without room for its bytes. -/
theorem bbFlush_full (h₀ : s.cfg.outCap.fits s.outLen = true)
    (h : s.cfg.outCap.fits (s.outLen + (s.hid.cnt + 7) / 8) = false) :
    bbFlush s = .error (.raise .capacityExceeded) := drain_full _ h₀ h

end

/-- Settles O12: the instruction is the function `bbClear`. -/
theorem bbClearEmptiesTheBuffer : Obligations.BbClearEmptiesTheBuffer := exec_bbClear

/-- Settles O13: `outByte_full` where OUT is full, else `outByte_ok` and the reads after its one write. -/
theorem outByteAppends : Obligations.OutByteAppends := by
  intro b s
  refine ⟨fun hfull => outByte_full b ?_, fun hroom => ?_⟩
  · rw [hfull]
    exact decide_eq_true rfl
  · exact ⟨Memory.write s.outBuf s.outLen b, outByte_ok b (Cap.fits_succ_of_unbounded_or_lt hroom),
      Memory.read_write_same _ _ _, fun _ ha => Memory.read_write_other _ _ ha⟩

/-- Settles O15: with room the loop of ceil(cnt / 8) turns runs to its end, and those turns cover every
pending bit; without room it raises. -/
theorem bbFlushWritesThePendingBits : Obligations.BbFlushWritesThePendingBits := by
  intro s hacc
  refine ⟨fun hroom => ?_, fun hfits hfull => ⟨raiseError .capacityExceeded s, ?_, ?_⟩⟩
  · refine ⟨(drained ((s.hid.cnt + 7) / 8) s).outBuf, ?_, fun _ => read_drained,
      fun _ => read_drained_outside⟩
    rw [exec_bbFlush, bbFlush_ok hroom, conclude_ok, ← drained_of_cnt_le hacc (by omega)]
  · rw [exec_bbFlush, bbFlush_full hfits hfull, conclude_raise]
  · exact endedBy_raiseError s (by decide)

end Machine

end Sys2Proof
end

section
/-! SUPPORT. The encoder as the instructions show it (`41_encoder.md`): what ENC.INIT leaves, and the keys
of a forward dictionary that has learned nothing. -/

namespace Sys2Proof.Machine

/-! ### The instruction and its two outcomes -/

theorem exec_encInit (s : State) : exec .encInit s = conclude s (encInit s) := rfl

/-- ENC.INIT with more input than IN holds (`41_encoder.md` R120). -/
theorem encInit_full {s : State} (h : s.cfg.inCap.fits s.inLen = false) :
    encInit s = .error (.raise .capacityExceeded) := by
  rw [encInit_eq, h, if_neg Bool.false_ne_true]

/-! ### The fresh forward dictionary -/

/-- Before anything is learned only a single byte is a key (`10_state.md` R32). -/
theorem code?_nil_of_length_ne_one {q : ByteSeq} (hq : q.length ≠ 1) :
    Forward.code? [] q = none := by
  match q with
  | [] => rfl
  | [_] => exact absurd rfl hq
  | _ :: _ :: _ => rfl

/-- Settles O19: the two branches of `encInit_eq`, and the two kinds of key of a dictionary without learned
entries. -/
theorem encInitPreparesTheEncoder : Obligations.EncInitPreparesTheEncoder := by
  intro s
  refine ⟨fun hfits => ?_, fun hfull => ⟨raiseError .capacityExceeded s, ?_, ?_⟩, code?_single,
    fun _ => code?_nil_of_length_ne_one⟩
  · rw [exec_encInit, encInit_eq, if_pos hfits, conclude_ok]
  · rw [exec_encInit, encInit_full hfull, conclude_raise]
  · exact endedBy_raiseError s (by decide)

end Sys2Proof.Machine
end

section
/-! SUPPORT. The decoder as the instructions show it (`42_decoder.md`): what DEC.INIT leaves, how DEC.FIRST
classes the code it reads, and the two ways DEC.FINISH refuses a short result. -/

namespace Sys2Proof

/-! ### The class of a code -/

/-- A code below 256 is LITERAL, as the first code and as a later one (`30_encoding.md` R88). -/
theorem classOf_literal (first : Bool) (dNext : Nat) {c : Nat} (hc : c < 256) :
    classOf first dNext c = .literal := if_pos hc

/-- No first code of 256 or more is legal (`42_decoder.md` R143). -/
theorem classOf_first_invalid (dNext : Nat) {c : Nat} (hc : 256 ≤ c) :
    classOf true dNext c = .invalid := by
  rw [classOf, if_neg (Nat.not_lt.mpr hc), if_pos rfl]

namespace Machine

/-! ### The instructions -/

section
variable (s : State)

theorem exec_decInit : exec .decInit s = conclude s (decInit s) := rfl

theorem exec_decFirst : exec .decFirst s = conclude s (decFirst s) := rfl

theorem exec_decFinish : exec .decFinish s = conclude s (decFinish s) := rfl

end

/-- A micro-operation that raises an error leaves what `60_exceptions.md` R206 and R208 keep. -/
theorem exists_endedBy_of_raise {s : State} {e : ErrCode} {x : Run State} (he : e ≠ .none)
    (hx : x = .error (.raise e)) : ∃ t, conclude s x = .next t ∧ EndedBy e s t :=
  ⟨raiseError e s, by rw [hx, conclude_raise], endedBy_raiseError s he⟩

/-! ### DEC.INIT -/

/-- The reverse dictionary of DEC.INIT is in order: d_next is 256 and nothing has been learned
(`42_decoder.md` R140). -/
theorem reverse_ok_nil : Reverse.Ok [] 256 := rfl

/-- DEC.INIT where the stream or the requested output does not fit (`42_decoder.md` R140). -/
theorem decInit_full {s : State}
    (h : s.cfg.inCap.fits s.inLen = false ∨ s.cfg.outCap.fits s.need = false) :
    decInit s = .error (.raise .capacityExceeded) := by
  rw [decInit_eq, if_neg]
  rcases h with h | h <;> simp [h]

/-! ### DEC.FIRST -/

section
variable {s u : State} {c : Nat}

/-- DEC.FIRST on a literal: its sequence starts the result (`42_decoder.md` R142). -/
theorem decFirst_literal {q : ByteSeq} (hget : bbGet s.hid.dWidth s = .ok u)
    (hgot : u.hid.got = some c) (hc : c < 256) (hq : Reverse.seq? u.hid.rdict c = some q) :
    decFirst s = .ok (startSequence q u) := by
  rw [decFirst, readCode_eq hget, hgot]
  simp only [classOf_literal true _ hc, classCode, literalCode_first hq]

/-- DEC.FIRST on any other code (`42_decoder.md` R143). -/
theorem decFirst_corrupt (hget : bbGet s.hid.dWidth s = .ok u)
    (hgot : u.hid.got = some c) (hc : 256 ≤ c) :
    decFirst s = .error (.raise .decodeCorruption) := by
  rw [decFirst, readCode_eq hget, hgot]
  simp only [classOf_first_invalid _ hc, classCode, invalidCode]

end

/-! ### DEC.FINISH -/

section
variable {s : State}

/-- DEC.FINISH with a result long enough (`42_decoder.md` R155). -/
theorem decFinish_ok (hfits : s.cfg.outCap.fits s.need = true) (hlen : s.need ≤ s.hid.res.length) :
    decFinish s =
      .ok { s with
        outBuf := loadBytes 0 (s.hid.res.take s.need) s.outBuf
        outLen := s.need
        phase := .doneOk } := by
  obtain ⟨-, h⟩ | ⟨hshort, -⟩ | ⟨hshort, -⟩ := decFinish_cases hfits
  · exact h
  · omega
  · omega

/-- A short result where the stream is empty or leftover bits remain (`42_decoder.md` R156). -/
theorem decFinish_truncated (hshort : s.hid.res.length < s.need) (h : s.inLen = 0 ∨ 0 < s.hid.cnt) :
    decFinish s = .error (.raise .truncatedStream) := by
  unfold decFinish
  rcases h with h | h <;> simp [hshort, h]

/-- A short result of a stream that ends with its last code (`42_decoder.md` R156). -/
theorem decFinish_mismatch (hshort : s.hid.res.length < s.need) (hin : s.inLen ≠ 0)
    (hcnt : s.hid.cnt = 0) : decFinish s = .error (.raise .sizeMismatch) := by
  unfold decFinish
  simp [hshort, hin, hcnt]

/-- The copy loop puts byte `i` of the result at index `i` of OUT (`42_decoder.md` R155). -/
theorem read_loadBytes_take {q : ByteSeq} {n i : Nat} (m : Memory) (hn : n ≤ q.length) (hi : i < n) :
    Memory.read (loadBytes 0 (q.take n) m) i = q[i]? := by
  have hlen : i < (q.take n).length := by rwa [List.length_take_of_le hn]
  have h := read_loadBytes (i := 0) (q.take n) m hlen
  rwa [Nat.zero_add, List.getElem?_take_of_lt hi] at h

end

/-- Settles O26: BB.GET reads the whole code by `bbGet_code`; a code below 256 is LITERAL and one of 256 or
more INVALID, since it is the first. -/
theorem decFirstTakesALiteral : Obligations.DecFirstTakesALiteral := by
  intro s c hin hacc hwhole hc
  have hget := bbGet_code hin hacc hwhole
  have hgot := congrArg some hc.symm
  refine ⟨fun hlit hseq => ?_, fun hbig => ?_⟩
  · rw [exec_decFirst, decFirst_literal hget hgot hlit hseq, conclude_ok, hc,
      ← Nat.shiftRight_eq_div_pow]
    rfl
  · exact exists_endedBy_of_raise (by decide) (decFirst_corrupt hget hgot hbig)

/-- Settles O34: the closed form of the copy loop and its reads where the result is long enough, else the
two refusals. -/
theorem decFinishDeliversOrRefuses : Obligations.DecFinishDeliversOrRefuses := by
  intro s
  refine ⟨fun hlen hfits => ?_, fun hshort h => ?_, fun hshort hin hcnt => ?_⟩
  · refine ⟨_, _, ?_, (status_eq_doneOk_iff _).mpr rfl, rfl, fun i => read_loadBytes_take s.outBuf hlen,
      fun a ha => read_loadBytes_above _ _ ?_⟩
    · rw [exec_decFinish, decFinish_ok hfits hlen, conclude_ok]
      rfl
    · rwa [Nat.zero_add, List.length_take_of_le hlen]
  · exact exists_endedBy_of_raise (by decide) (decFinish_truncated hshort h)
  · exact exists_endedBy_of_raise (by decide) (decFinish_mismatch hshort hin hcnt)

/-- Settles O25: the two branches of `decInit_eq`, and the two kinds of code of a dictionary in order that
has learned nothing. -/
theorem decInitPreparesTheDecoder : Obligations.DecInitPreparesTheDecoder := by
  intro s
  refine ⟨fun hin hout => ?_, fun hfull => ?_, fun c => reverse_ok_nil.literal,
    fun c => (reverse_ok_nil.present_iff c).2⟩
  · have hfits : (s.cfg.inCap.fits s.inLen && s.cfg.outCap.fits s.need) = true :=
      Bool.and_eq_true_iff.mpr ⟨hin, hout⟩
    rw [exec_decInit, decInit_eq, if_pos hfits, conclude_ok]
  · exact exists_endedBy_of_raise (by decide) (decInit_full hfull)

end Machine

end Sys2Proof
end

section
/-! SUPPORT. The result of a command (`43_commands.md` R171, R179): what keeps it readable, and what the host's
moves do while the CORE has no step of its own. -/

namespace Sys2Proof.Machine

/-! ### States that show the same result -/

/-- What the host can read of a result agrees: phase, from which STATUS comes, ERR, OUT_LEN, and the bytes of
OUT, those outside the result too (`43_commands.md` R179). -/
structure SameResult (s t : State) : Prop where
  phase : t.phase = s.phase
  err : t.err = s.err
  outLen : t.outLen = s.outLen
  outBuf : t.outBuf = s.outBuf
  outEra : t.outEra = s.outEra

section
variable {s t : State} {rest : List HostMove} {m : HostMove}

theorem SameResult.refl (s : State) : SameResult s s := ⟨rfl, rfl, rfl, rfl, rfl⟩

/-- The host's moves still to come are no part of a result. -/
theorem SameResult.of_host (h : SameResult { s with host := rest } t) : SameResult s t :=
  ⟨h.phase, h.err, h.outLen, h.outBuf, h.outEra⟩

/-- What the host reads of a result: STATUS is a function of phase, and a byte of OUT one of phase, OUT_LEN,
the bytes written and how often OUT was given up. -/
theorem SameResult.readings (h : SameResult s t) :
    t.status = s.status ∧ t.err = s.err ∧ t.outLen = s.outLen ∧ t.outBuf = s.outBuf ∧
      ∀ i, t.outValue i = s.outValue i :=
  ⟨by rw [State.status, State.status, h.phase], h.err, h.outLen, h.outBuf,
    outValue_congr h.phase h.outLen h.outBuf h.outEra⟩

/-! ### NOP -/

theorem decodeCmd_zero : decodeCmd 0x00 = .nop := by decide

/-- NOP is dropped while BUSY = 1, else CMD alone changes (`43_commands.md` R170, R171). -/
theorem exec_nop (s : State) :
    exec .nop s = .next (if s.phase.busy then s else { s with cmd := 0x00 }) := acceptCmd_eq 0x00 id s

theorem exec_nop_sameResult (h : exec .nop s = .next t) : SameResult s t := by
  rw [exec_nop] at h
  split at h
  · cases h; exact .refl s
  · cases h; exact ⟨rfl, rfl, rfl, rfl, rfl⟩

/-- Settles O8: `exec_nop` while BUSY = 0, and the result is the same, busy or not. -/
theorem nopKeepsTheResult : Obligations.NopKeepsTheResult := by
  refine ⟨fun s hrest => ?_, fun _ _ h => (exec_nop_sameResult h).readings,
    fun _ => ⟨rfl, decodeCmd_zero⟩⟩
  rw [exec_nop, hrest, if_neg Bool.false_ne_true]

/-! ### The host's moves -/

/-- An accepted value goes to its register (`10_state.md` R21, `70_reset_and_hazards.md` R239). -/
theorem hostSet_ok {width : Cap} {v : Nat} (set : State → State) (hv : width.holdsValue v = true)
    (hrest : s.phase.busy = false) : hostSet width v set s = .next (set s) := by
  simp [hostSet, hv, hrest]

theorem hostSet_eq_next {width : Cap} {v : Nat} {set : State → State}
    (h : hostSet width v set s = .next t) : t = set s := by
  unfold hostSet at h
  split at h
  · cases h
  · split at h <;> cases h
    rfl

/-- A byte of IN is written while BUSY = 0 (`20_memory.md` R60). -/
theorem hostLoad_ok {i : Nat} (b : Byte) (hi : s.cfg.inCap.hasIndex i = true)
    (hrest : s.phase.busy = false) :
    hostLoad i b s = .next { s with inBuf := Memory.write s.inBuf i b } := by
  simp [hostLoad, hi, hrest]

theorem hostLoad_eq_next {i : Nat} {b : Byte} (h : hostLoad i b s = .next t) :
    t = { s with inBuf := Memory.write s.inBuf i b } := by
  unfold hostLoad at h
  split at h
  · cases h
  · split at h <;> cases h
    rfl

/-- A read of a register changes what the host has seen, and the count of free values, alone
(`20_memory.md` R70). -/
theorem hostRead_frame (r : Reg) (s : State) :
    hostRead r s = { s with seen := (hostRead r s).seen, free := (hostRead r s).free } := by
  unfold hostRead
  split <;> rfl

/-- A read of OUT changes what the host has seen, and the count of free values, alone
(`20_memory.md` R70). -/
theorem hostReadOut_frame {i : Nat} (h : hostReadOut i s = .next t) :
    t = { s with seen := t.seen, free := t.free } := by
  unfold hostReadOut at h
  split at h
  · cases h
  · split at h <;> cases h <;> rfl

/-- A write to a register other than CMD reaches no register of the result (`10_state.md` R21). -/
theorem hostWrite_sameResult {r : Reg} {v : Nat} (h : hostWrite r v s = .next t) :
    SameResult s t := by
  cases r with
  | cmd => cases h
  | status | err | outLen => cases h; exact .refl s
  | inLen | rows | cols =>
    rw [hostWrite] at h
    rw [hostSet_eq_next h]
    exact ⟨rfl, rfl, rfl, rfl, rfl⟩

/-- Of the host's moves that write no command only reset touches the result. -/
theorem hostMove_sameResult (hm : m ≠ .reset) (h : hostMove m s = .next t) : SameResult s t := by
  cases m with
  | write r v => exact hostWrite_sameResult h
  | load i b => rw [hostLoad_eq_next h]; exact ⟨rfl, rfl, rfl, rfl, rfl⟩
  | read r => cases h; rw [hostRead_frame]; exact ⟨rfl, rfl, rfl, rfl, rfl⟩
  | readOut i => rw [hostReadOut_frame h]; exact ⟨rfl, rfl, rfl, rfl, rfl⟩
  | wait | pause => cases h; exact .refl s
  | reset => exact absurd rfl hm

/-! ### Steps of a CORE at rest -/

/-- Where phase names no micro-operation the next act is nobody's, or a command the host writes, or another
move of the host's; a move made leaves the host's list (`10_state.md` R28). -/
theorem fetch_at_rest (hrest : microOp s.phase = none) :
    (∃ l, fetch s = (.still, { s with host := l })) ∨
      (∃ v l, s.host = .write .cmd v :: l ∧
        fetch s = (.run (decodeCmd (BitVec.ofNat 8 v)), { s with host := l })) ∨
      ∃ m l, s.host = m :: l ∧ fetch s = (.move m, { s with host := l }) := by
  have hstill : coreAct s = .still := by rw [coreAct, hrest]
  unfold fetch
  split
  case h_1 => exact .inl ⟨s.host, by rw [hstill]⟩
  case h_2 l _ => exact .inl ⟨l, by rw [hstill]⟩
  case h_3 l _ =>
    split
    · exact .inl ⟨l, rfl⟩
    · exact .inl ⟨s.host, by rw [hstill]⟩
  case h_4 v l hhost =>
    split
    · exact .inr (.inl ⟨v, l, hhost, rfl⟩)
    · exact .inr (.inr ⟨_, l, hhost, rfl⟩)
  case h_5 m l _ _ _ hhost => exact .inr (.inr ⟨m, l, hhost, rfl⟩)

/-- At rest the result stays the same through every step that neither runs a command but NOP nor resets. -/
theorem step_at_rest_sameResult (hrest : microOp s.phase = none)
    (hcmd : ∀ v l, s.host = .write .cmd v :: l → v = 0) (hreset : ∀ l, s.host ≠ .reset :: l)
    (h : step s = .next t) : SameResult s t := by
  rw [step] at h
  obtain ⟨l, hf⟩ | ⟨v, l, hhost, hf⟩ | ⟨m, l, hhost, hf⟩ := fetch_at_rest hrest
  · rw [hf] at h
    cases h
    exact ⟨rfl, rfl, rfl, rfl, rfl⟩
  · rw [hf, hcmd v l hhost] at h
    exact (exec_nop_sameResult h).of_host
  · rw [hf] at h
    have hm : m ≠ .reset := fun hm => hreset l (hm ▸ hhost)
    exact (hostMove_sameResult hm h).of_host

/-- The host's write of one byte of IN is a step (`20_memory.md` R60). -/
theorem step_load {i : Nat} {b : Byte} (h : s.host = .load i b :: rest) :
    step s = hostLoad i b { s with host := rest } := by
  rw [step, fetch, h]
  rfl

end

/-- Settles O41: `step_at_rest_sameResult` for the result, and for the operands the host's move by itself. -/
theorem resultsAreStable : Obligations.ResultsAreStable := by
  refine ⟨fun s t hdone hcmd hreset h => ?result, fun s rest hrest => ⟨fun i b hhost hi => ?load,
    fun v hhost hv => ?inLen, fun v hhost hv => ?rows, fun v hhost hv => ?cols⟩⟩
  case result =>
    have hmicro : microOp s.phase = none := by rcases hdone with hp | hp <;> rw [hp] <;> rfl
    exact (step_at_rest_sameResult hmicro hcmd hreset h).readings
  case load => exact ⟨_, (step_load hhost).trans (hostLoad_ok b hi hrest)⟩
  case inLen | rows | cols =>
    rw [step_write (by decide) hhost, hostWrite]
    exact hostSet_ok _ hv hrest

end Sys2Proof.Machine
end

section
/-! SUPPORT. The packed stream as a number (`40_bitbuffer.md` R111): what BB.PUT and BB.FLUSH make of a list
of codes, and what BB.GET reads back from the bytes. -/

namespace Sys2Proof

open Machine (leValue loadBytes)

/-! ### Bytes and the numbers they stand for -/

theorem leValue_append (p q : List Byte) :
    leValue (p ++ q) = leValue p + leValue q * 2 ^ (8 * p.length) := by
  induction p with
  | nil => simp [leValue]
  | cons b p ih =>
    rw [List.cons_append, leValue, leValue, ih, List.length_cons, Nat.mul_succ, Nat.pow_add]
    ring

/-- The low bytes of a number are followed by the bytes of what is left of it. -/
theorem leBytes_add (m n v : Nat) : leBytes (m + n) v = leBytes m v ++ leBytes n (v >>> (8 * m)) := by
  induction m generalizing v with
  | zero => simp [leBytes]
  | succ m ih =>
    rw [Nat.add_right_comm, leBytes, leBytes, ih, List.cons_append, ← Nat.shiftRight_add, Nat.mul_succ,
      Nat.add_comm 8]

theorem lowByte_add_mul (v c : Nat) : lowByte (v + 2 ^ 8 * c) = lowByte v :=
  BitVec.eq_of_toNat_eq <| by
    rw [lowByte_toNat, lowByte_toNat]
    exact Nat.add_mul_mod_self_left v 256 c

/-- What is added above the bytes of a number does not change them. -/
theorem leBytes_add_above {n e : Nat} (v c : Nat) (h : 8 * n ≤ e) :
    leBytes n (v + c * 2 ^ e) = leBytes n v := by
  induction n generalizing v e with
  | zero => rfl
  | succ n ih =>
    obtain ⟨f, rfl⟩ : ∃ f, e = 8 + f := ⟨e - 8, by omega⟩
    rw [show v + c * 2 ^ (8 + f) = v + 2 ^ 8 * (c * 2 ^ f) by ring, leBytes, leBytes, lowByte_add_mul,
      Nat.shiftRight_eq_div_pow, Nat.add_mul_div_left _ _ (by decide), ← Nat.shiftRight_eq_div_pow,
      ih _ (by omega)]

/-- Where a number ends in the code `c` of `w` bits, cutting them off its low part leaves the rest. -/
theorem split_low_bits {low high c rest w e : Nat} (hc : c < 2 ^ w)
    (h : low + high * 2 ^ (w + e) = c + rest * 2 ^ w) :
    low % 2 ^ w = c ∧ low / 2 ^ w + high * 2 ^ e = rest := by
  have hlow : low + 2 ^ w * (high * 2 ^ e) = c + 2 ^ w * rest := by
    rw [Nat.mul_comm _ rest, ← h, Nat.pow_add]; ring
  constructor
  · have hmod := congrArg (· % 2 ^ w) hlow
    simpa [Nat.mod_eq_of_lt hc] using hmod
  · have hdiv := congrArg (· / 2 ^ w) hlow
    simpa [Nat.add_mul_div_left, Nat.div_eq_of_lt hc] using hdiv

namespace Machine

theorem loadBytes_append (p q : List Byte) (i : Nat) (m : Memory) :
    loadBytes i (p ++ q) m = loadBytes (i + p.length) q (loadBytes i p m) := by
  induction p generalizing i m with
  | nil => rfl
  | cons b p ih =>
    rw [List.cons_append, loadBytes, loadBytes, ih, List.length_cons, Nat.add_assoc, Nat.add_comm 1]

/-- Reading the indexes of a list one after the other gives the list. -/
theorem filterMap_getElem?_range (q : List Byte) :
    (List.range q.length).filterMap (fun i => q[i]?) = q := by
  induction q using List.reverseRecOn with
  | nil => rfl
  | append_singleton q b ih =>
    have hlow : (List.range q.length).filterMap (fun i => (q ++ [b])[i]?) = q :=
      (List.filterMap_congr fun i hi => List.getElem?_append_left (List.mem_range.mp hi)).trans ih
    rw [List.length_append, List.length_singleton, List.range_succ, List.filterMap_append, hlow]
    simp

/-- A result written from index 0 up is the bytes written (`10_state.md` R38). -/
theorem resultBytes_of_loadBytes {s : State} {q : ByteSeq} (hbuf : s.outBuf = loadBytes 0 q [])
    (hlen : s.outLen = q.length) : s.resultBytes = q := by
  rw [State.resultBytes, hbuf, hlen]
  refine (List.filterMap_congr fun i hi => ?_).trans (filterMap_getElem?_range q)
  simpa using read_loadBytes (i := 0) q [] (List.mem_range.mp hi)

/-! ### Bytes of IN -/

theorem inBytes_congr {s t : State} (hbuf : t.inBuf = s.inBuf) (hera : t.era = s.era) (i n : Nat) :
    inBytes t i n = inBytes s i n := by
  induction n generalizing i with
  | zero => rfl
  | succ n ih => rw [inBytes, inBytes, ih, State.inValue, State.inValue, hbuf, hera]

theorem inBytes_add (s : State) (i m n : Nat) :
    inBytes s i (m + n) = inBytes s i m ++ inBytes s (i + m) n := by
  induction m generalizing i with
  | zero => simp [inBytes]
  | succ m ih =>
    rw [Nat.add_right_comm, inBytes, inBytes, ih, List.cons_append, Nat.add_assoc i, Nat.add_comm 1]

/-- The bytes the host has written are the bytes IN holds (`20_memory.md` R60). -/
theorem inBytes_of_read {s : State} {q : List Byte} {i : Nat}
    (h : ∀ k, k < q.length → Memory.read s.inBuf (i + k) = q[k]?) : inBytes s i q.length = q := by
  induction q generalizing i with
  | nil => rfl
  | cons b q ih =>
    have hhead : s.inValue i = b := by
      have hread := h 0 (by simp)
      rw [Nat.add_zero] at hread
      simp [State.inValue, hread]
    rw [List.length_cons, inBytes, hhead, ih fun k hk => ?_]
    rw [Nat.add_assoc, Nat.add_comm 1]
    exact h (k + 1) (by simpa using hk)

theorem inBytes_loadBytes {s : State} {q : List Byte} (hbuf : s.inBuf = loadBytes 0 q []) :
    inBytes s 0 q.length = q :=
  inBytes_of_read fun _ hk => hbuf ▸ read_loadBytes q [] hk

/-! ### Lists of codes -/

/-- The code fits its width, and no width is below 9 (`30_encoding.md` R80). -/
def CodesFit (l : List (Nat × Nat)) : Prop := ∀ x ∈ l, 9 ≤ x.2 ∧ x.1 < 2 ^ x.2

/-- pack(L): the bytes of the packed list, the last one padded (`40_bitbuffer.md` R111). -/
def packBytes (l : List (Nat × Nat)) : ByteSeq := leBytes ((packWidth l + 7) / 8) (packValue l)

theorem packWidth_append (l l' : List (Nat × Nat)) :
    packWidth (l ++ l') = packWidth l + packWidth l' := by
  induction l with
  | nil => simp [packWidth]
  | cons x l ih => rw [List.cons_append, packWidth, packWidth, ih, Nat.add_assoc]

theorem packValue_append (l l' : List (Nat × Nat)) :
    packValue (l ++ l') = packValue l + packValue l' * 2 ^ packWidth l := by
  induction l with
  | nil => simp [packValue, packWidth]
  | cons x l ih =>
    rw [List.cons_append, packValue, packValue, packWidth, ih, Nat.pow_add]
    ring

theorem CodesFit.packValue_lt {l : List (Nat × Nat)} (h : CodesFit l) : packValue l < 2 ^ packWidth l := by
  induction l with
  | nil => exact Nat.one_pos
  | cons x l ih =>
    obtain ⟨c, w⟩ := x
    obtain ⟨-, hc⟩ := h (c, w) List.mem_cons_self
    have := or_shiftLeft_lt hc (ih fun y hy => h y (List.mem_cons_of_mem _ hy))
    rwa [or_shiftLeft_eq_add _ hc] at this

theorem CodesFit.nine_mul_length_le {l : List (Nat × Nat)} (h : CodesFit l) :
    9 * l.length ≤ packWidth l := by
  induction l with
  | nil => exact Nat.le_refl _
  | cons x l ih =>
    obtain ⟨hw, -⟩ := h x List.mem_cons_self
    have := ih fun y hy => h y (List.mem_cons_of_mem _ hy)
    rw [packWidth, List.length_cons]
    omega

/-! ### Packing -/

/-- The bytes of OUT and the pending bits are the low and the high part of the number `v`. -/
structure Written (v : Nat) (s : State) : Prop where
  outBuf : s.outBuf = loadBytes 0 (leBytes s.outLen v) []
  acc : s.hid.acc = v >>> (8 * s.outLen)

/-- The drain loop moves bits of the number from acc to OUT. -/
theorem Written.drained {v : Nat} {s : State} (h : Written v s) (n : Nat) : Written v (drained n s) where
  outBuf := by
    have hlen : (leBytes s.outLen v).length = s.outLen := leBytes_length _ _
    have happ := loadBytes_append (leBytes s.outLen v) (leBytes n (v >>> (8 * s.outLen))) 0 []
    rw [← leBytes_add, hlen, Nat.zero_add, ← h.outBuf, ← h.acc] at happ
    exact happ.symm
  acc := by
    change s.hid.acc >>> (8 * n) = v >>> (8 * (s.outLen + n))
    rw [h.acc, ← Nat.shiftRight_add, Nat.mul_add]

/-- OUT and the bit buffer hold the packed list `l` and nothing else (`40_bitbuffer.md` R111). -/
structure Packed (l : List (Nat × Nat)) (s : State) : Prop where
  fit : CodesFit l
  written : Written (packValue l) s
  width : 8 * s.outLen + s.hid.cnt = packWidth l

section
variable {l : List (Nat × Nat)} {s t : State}

/-- `Packed` speaks of OUT and the bit buffer alone. -/
theorem Packed.congr (h : Packed l s) (hacc : t.hid.acc = s.hid.acc) (hcnt : t.hid.cnt = s.hid.cnt)
    (hbuf : t.outBuf = s.outBuf) (hlen : t.outLen = s.outLen) : Packed l t where
  fit := h.fit
  written := ⟨by rw [hbuf, hlen, h.written.outBuf], by rw [hacc, hlen, h.written.acc]⟩
  width := by rw [hlen, hcnt, h.width]

/-- BB.PUT appends its code to the packed list (`40_bitbuffer.md` R102, R111). -/
theorem Packed.putState {c w : Nat} (h : Packed l s) (hw : 9 ≤ w) (hc : c < 2 ^ w) :
    Packed (l ++ [(c, w)]) (putState c w s) where
  fit := by
    rintro x hx
    rcases List.mem_append.mp hx with hx | hx
    · exact h.fit x hx
    · obtain rfl := List.mem_singleton.mp hx
      exact ⟨hw, hc⟩
  written := by
    refine Written.drained ⟨?_, ?_⟩ _
    · have hpend : 8 * s.outLen ≤ packWidth l := by have := h.width; omega
      rw [packValue_append, leBytes_add_above _ _ hpend]
      exact h.written.outBuf
    · have hacc : s.hid.acc < 2 ^ s.hid.cnt := by
        have := shiftRight_lt (8 * s.outLen) h.fit.packValue_lt
        rwa [← h.written.acc, ← h.width, Nat.add_sub_cancel_left] at this
      have hval : packValue (l ++ [(c, w)]) = packValue l + 2 ^ (8 * s.outLen) * (c * 2 ^ s.hid.cnt) := by
        rw [packValue_append, ← h.width, Nat.pow_add]
        simp only [packValue, Nat.zero_mul, Nat.add_zero]
        ring
      change s.hid.acc ||| (c <<< s.hid.cnt) = packValue (l ++ [(c, w)]) >>> (8 * s.outLen)
      rw [or_shiftLeft_eq_add _ hacc, hval, h.written.acc, Nat.shiftRight_eq_div_pow,
        Nat.shiftRight_eq_div_pow, Nat.add_mul_div_left _ _ (Nat.two_pow_pos _)]
  width := by
    have := h.width
    rw [packWidth_append]
    change 8 * (s.outLen + (s.hid.cnt + w) / 8) + (s.hid.cnt + w - 8 * ((s.hid.cnt + w) / 8)) =
      packWidth l + (w + 0)
    omega

/-- BB.FLUSH leaves pack(L) in OUT (`40_bitbuffer.md` R104, R111). -/
theorem Packed.resultBytes_drained (h : Packed l s) :
    (drained ((s.hid.cnt + 7) / 8) s).resultBytes = packBytes l := by
  have hlen : (drained ((s.hid.cnt + 7) / 8) s).outLen = (packWidth l + 7) / 8 := by
    have := h.width
    change s.outLen + (s.hid.cnt + 7) / 8 = _
    omega
  refine resultBytes_of_loadBytes ?_ ?_
  · rw [(h.written.drained _).outBuf, hlen, packBytes]
  · rw [hlen, packBytes, leBytes_length]

end

/-! ### Reading -/

/-- The pending bits and the bytes of IN not yet read hold the packed list `l` and less than a byte of
padding (`40_bitbuffer.md` R106, R111). -/
structure Holds (l : List (Nat × Nat)) (s : State) : Prop where
  fit : CodesFit l
  inside : s.hid.ip ≤ s.inLen
  acc : s.hid.acc < 2 ^ s.hid.cnt
  value : pending s (s.inLen - s.hid.ip) = packValue l
  enough : packWidth l ≤ s.hid.cnt + 8 * (s.inLen - s.hid.ip)
  padding : s.hid.cnt + 8 * (s.inLen - s.hid.ip) < packWidth l + 8

section
variable {l : List (Nat × Nat)} {s t : State} {c w : Nat}

/-- `Holds` speaks of IN and the bit buffer alone. -/
theorem Holds.congr (h : Holds l s) (hip : t.hid.ip = s.hid.ip) (hacc : t.hid.acc = s.hid.acc)
    (hcnt : t.hid.cnt = s.hid.cnt) (hlen : t.inLen = s.inLen) (hbuf : t.inBuf = s.inBuf)
    (hera : t.era = s.era) : Holds l t where
  fit := h.fit
  inside := by rw [hip, hlen]; exact h.inside
  acc := by rw [hacc, hcnt]; exact h.acc
  value := by rw [pending, inBytes_congr hbuf hera, hip, hacc, hcnt, hlen]; exact h.value
  enough := by rw [hip, hcnt, hlen]; exact h.enough
  padding := by rw [hip, hcnt, hlen]; exact h.padding

/-- The bytes of pack(L), with nothing read yet, hold `l`. -/
theorem Holds.of_packBytes (hfit : CodesFit l) (hbuf : s.inBuf = loadBytes 0 (packBytes l) [])
    (hlen : s.inLen = (packBytes l).length) (hip : s.hid.ip = 0) (hacc : s.hid.acc = 0)
    (hcnt : s.hid.cnt = 0) : Holds l s := by
  have hbytes : s.inLen = (packWidth l + 7) / 8 := by rw [hlen, packBytes, leBytes_length]
  have hvalue : pending s (s.inLen - s.hid.ip) = packValue l := by
    have hlt : packValue l < 2 ^ (8 * ((packWidth l + 7) / 8)) :=
      hfit.packValue_lt.trans_le (Nat.pow_le_pow_right Nat.two_pos (by omega))
    rw [pending, hip, hacc, hcnt, Nat.sub_zero, hlen, inBytes_loadBytes hbuf, packBytes, leValue_leBytes,
      Nat.mod_eq_of_lt hlt]
    simp
  refine ⟨hfit, ?_, ?_, hvalue, ?_, ?_⟩
  · omega
  · rw [hacc]; positivity
  · omega
  · omega

theorem pending_add (s : State) (m n : Nat) :
    pending s (m + n) =
      pending s m + leValue (inBytes s (s.hid.ip + m) n) * 2 ^ (s.hid.cnt + 8 * m) := by
  rw [pending, pending, inBytes_add, leValue_append, inBytes_length, Nat.pow_add]
  ring

/-- The state after BB.GET(w) has read `m` bytes and taken a code (`40_bitbuffer.md` R106). -/
def codeTaken (w m : Nat) (s : State) : State :=
  { s with
    hid := { s.hid with
      got := some (lowbits (pending s m) w)
      acc := pending s m >>> w
      cnt := s.hid.cnt + 8 * m - w
      ip := s.hid.ip + m } }

/-- BB.GET takes the first code of the list (`40_bitbuffer.md` R106, R111). -/
theorem Holds.bbGet_code (h : Holds ((c, w) :: l) s) (hin : s.cfg.inCap.fits s.inLen = true) :
    ∃ m, bbGet w s = .ok (codeTaken w m s) ∧ (codeTaken w m s).hid.got = some c ∧
      Holds l (codeTaken w m s) := by
  obtain ⟨hfit, hinside, hacc, hvalue, henough, hpadding⟩ := h
  obtain ⟨-, hc⟩ := hfit (c, w) List.mem_cons_self
  rw [packWidth] at henough hpadding
  have hget := Machine.bbGet_code (w := w) hin hacc (by omega)
  generalize hm : (w - s.hid.cnt + 7) / 8 = m at hget
  obtain ⟨n, hn⟩ : ∃ n, s.inLen - s.hid.ip = m + n := ⟨s.inLen - s.hid.ip - m, by omega⟩
  obtain ⟨e, he⟩ : ∃ e, s.hid.cnt + 8 * m = w + e := ⟨s.hid.cnt + 8 * m - w, by omega⟩
  have hleft : (codeTaken w m s).inLen - (codeTaken w m s).hid.ip = n := by
    change s.inLen - (s.hid.ip + m) = n
    omega
  have hcnt : (codeTaken w m s).hid.cnt = e := by
    change s.hid.cnt + 8 * m - w = e
    omega
  rw [packValue, hn, pending_add, he] at hvalue
  obtain ⟨hcode, hrest⟩ := split_low_bits hc hvalue
  refine ⟨m, hget, congrArg some hcode, fun x hx => hfit x (List.mem_cons_of_mem _ hx), ?_,
    shiftRight_lt w (pending_lt m hacc), ?_, ?_, ?_⟩
  · change s.hid.ip + m ≤ s.inLen
    omega
  · rw [hleft, pending, inBytes_congr (t := codeTaken w m s) (s := s) rfl rfl, hcnt]
    change pending s m >>> w + _ = _
    rwa [Nat.shiftRight_eq_div_pow]
  · rw [hleft, hcnt]
    omega
  · rw [hleft, hcnt]
    omega

/-- After the last code only padding is left, and BB.GET answers none (`40_bitbuffer.md` R107, R111). -/
theorem Holds.bbGet_none (h : Holds [] s) (hw : 9 ≤ w) (hin : s.cfg.inCap.fits s.inLen = true) :
    ∃ u, bbGet w s = .ok u ∧ u.hid.got = none := by
  have hpadding : s.hid.cnt + 8 * (s.inLen - s.hid.ip) < 8 := h.padding
  exact ⟨_, Machine.bbGet_none hin h.acc h.inside (by omega), rfl⟩

end

end Machine

end Sys2Proof
end

section
/-! SUPPORT. The codes ENCODE emits, as a function of the symbols (`41_encoder.md` R122, R125), and why the
decoder's dictionary can read them (`44_properties.md` R196). -/

namespace Sys2Proof.Machine

/-! ### The codes of a byte sequence -/

/-- What is emitted for the match `omega` where e_next is `n`: nothing for the empty one, which is no key
(`41_encoder.md` R122, R125). -/
def emission (d : Forward) (n : Nat) (omega : ByteSeq) : List (Nat × Nat) :=
  (d.code? omega).toList.map fun c => (c, encWidthFor n)

/-- The codes ENC.SYM and ENC.FINAL emit, with their widths, from dictionary `d`, e_next `n` and match
`omega` on, for the symbols still to come (`41_encoder.md` R122, R125). -/
def codesOf (d : Forward) (n : Nat) (omega : ByteSeq) : ByteSeq → List (Nat × Nat)
  | [] => emission d n omega
  | k :: q =>
    if (d.code? (omega ++ [k])).isSome then codesOf d n (omega ++ [k]) q
    else emission d n omega ++ codesOf ((omega ++ [k], n) :: d) (n + 1) [k] q

section
variable {d : Forward} {n c : Nat} {omega q : ByteSeq} {k : Byte}

theorem emission_of_key (h : d.code? omega = some c) : emission d n omega = [(c, encWidthFor n)] := by
  rw [emission, h]
  rfl

theorem codesOf_hit (h : (d.code? (omega ++ [k])).isSome) :
    codesOf d n omega (k :: q) = codesOf d n (omega ++ [k]) q := if_pos h

theorem codesOf_miss (h : d.code? (omega ++ [k]) = none) (hc : d.code? omega = some c) :
    codesOf d n omega (k :: q) =
      (c, encWidthFor n) :: codesOf ((omega ++ [k], n) :: d) (n + 1) [k] q := by
  rw [codesOf, h, emission_of_key hc]
  rfl

/-! ### The match is a key -/

/-- The empty sequence is no key of a dictionary in order. -/
theorem Forward.Ok.code?_nil (h : d.Ok n) : d.code? [] = none := by
  induction d generalizing n with
  | nil => rfl
  | cons x d ih =>
    obtain ⟨p, c⟩ := x
    obtain ⟨-, hp, -, -, hd⟩ := h
    rw [code?_cons_other, ih hd]
    rintro rfl
    simp at hp

/-- The dictionary is in order and the match is empty or a key (`10_state.md` R31, R32). -/
structure Matched (d : Forward) (n : Nat) (omega : ByteSeq) : Prop where
  dict : d.Ok n
  key : omega = [] ∨ (d.code? omega).isSome

theorem Matched.hit (h : Matched d n omega) (hk : (d.code? (omega ++ [k])).isSome) :
    Matched d n (omega ++ [k]) := ⟨h.dict, .inr hk⟩

/-- On a miss the match is a key: "a miss never has an empty omega" (`41_encoder.md` R122). -/
theorem Matched.exists_code (h : Matched d n omega) (hk : d.code? (omega ++ [k]) = none) :
    ∃ c, d.code? omega = some c := by
  rcases h.key with rfl | hkey
  · rw [List.nil_append, h.dict.single] at hk
    cases hk
  · exact Option.isSome_iff_exists.mp hkey

/-- Learning after a miss keeps the dictionary in order, and the match restarts at a single byte. -/
theorem Matched.miss (h : Matched d n omega) (hk : d.code? (omega ++ [k]) = none) :
    Matched ((omega ++ [k], n) :: d) (n + 1) [k] := by
  obtain ⟨c, hc⟩ := h.exists_code hk
  have hne : omega ≠ [] := by
    rintro rfl
    rw [h.dict.code?_nil] at hc
    cases hc
  have hok : Forward.Ok ((omega ++ [k], n) :: d) (n + 1) := by
    refine ⟨rfl, ?_, hk, ?_, h.dict⟩
    · have := List.length_pos_of_ne_nil hne
      simp only [List.length_append, List.length_singleton]
      omega
    · rw [List.dropLast_concat, hc]
      rfl
  exact ⟨hok, .inr (by rw [hok.single]; rfl)⟩

/-- A code of the dictionary fits the encoder's width (`41_encoder.md` R123). -/
theorem Forward.Ok.code_lt (h : d.Ok n) (hc : d.code? omega = some c) : c < 2 ^ encWidthFor n :=
  (h.bounds.2 _ _ hc).trans_le (le_two_pow_encWidthFor n)

theorem Forward.Ok.emission_fit (h : d.Ok n) : CodesFit (emission d n omega) := by
  intro x hx
  obtain ⟨c, hc, rfl⟩ := List.mem_map.mp hx
  exact ⟨nine_le_encWidthFor n, h.code_lt (Option.mem_toList.mp hc)⟩

/-- Every emitted code fits its width (`44_properties.md` R188). -/
theorem Matched.codesOf_fit (h : Matched d n omega) : CodesFit (codesOf d n omega q) := by
  induction q generalizing d n omega with
  | nil => exact h.dict.emission_fit
  | cons k q ih =>
    rcases hk : d.code? (omega ++ [k]) with _ | c
    · obtain ⟨c, hc⟩ := h.exists_code hk
      rw [codesOf_miss hk hc]
      intro x hx
      rcases List.mem_cons.mp hx with rfl | hx
      · exact ⟨nine_le_encWidthFor n, h.dict.code_lt hc⟩
      · exact ih (h.miss hk) x hx
    · have hsome : (d.code? (omega ++ [k])).isSome := hk ▸ rfl
      rw [codesOf_hit hsome]
      exact ih (h.hit hsome)

/-! ### The two dictionaries -/

/-- The reverse dictionary that holds what a forward dictionary has learned. -/
def Forward.mirror (d : Forward) : Reverse := d.map Prod.swap

/-- It gives every code of the forward dictionary its sequence back (`44_properties.md` R196). -/
theorem Forward.Ok.seq?_mirror (h : d.Ok n) (hc : d.code? q = some c) : d.mirror.seq? c = some q := by
  induction d generalizing n with
  | nil =>
    match q, hc with
    | [b], hc =>
      obtain rfl : b.toNat = c := Option.some.inj hc
      simp [mirror, Reverse.seq?, b.isLt, lowByte]
  | cons x d ih =>
    obtain ⟨p, m⟩ := x
    obtain ⟨-, -, -, -, hd⟩ := h
    change Reverse.seq? ((m, p) :: Forward.mirror d) c = some q
    by_cases hq : q = p
    · subst hq
      rw [code?_cons_same] at hc
      obtain rfl := Option.some.inj hc
      exact seq?_cons_same _ _ _
    · rw [code?_cons_other _ _ hq] at hc
      have := hd.bounds.2 _ _ hc
      rw [seq?_cons_other _ _ (by omega), ih hd hc]

end

end Sys2Proof.Machine
end

section
/-! SUPPORT. ENCODE with infinite capacities: its N + 4 micro-operations leave pack of `codesOf` in OUT
(`41_encoder.md`, `44_properties.md` R192). -/

namespace Sys2Proof.Machine

/-! ### Runs of a command -/

section
variable {s t : State} {j k : Nat}

theorem coreRun_succ (h : coreStep s = .next t) : coreRun (k + 1) s = coreRun k t := by
  rw [coreRun, h]

/-- A command that has ended with its result has it for good (`43_commands.md` R179). -/
theorem commandResult_of_done (h : coreRun j s = .next t) (hdone : t.phase = .doneOk) (hk : j ≤ k) :
    commandResult k s = some (.ok t.resultBytes) := by
  have hrun : coreRun k s = .next t := by
    obtain ⟨i, rfl⟩ := Nat.exists_eq_add_of_le hk
    rw [coreRun_add, h]
    exact coreRun_still (by rw [hdone]; rfl) i
  rw [commandResult, hrun]
  exact if_pos hdone

theorem outCap_fits_of_infinite (h : s.cfg = Capacities.infinite) (n : Nat) :
    s.cfg.outCap.fits n = true := by rw [h]; rfl

theorem inCap_fits_of_infinite (h : s.cfg = Capacities.infinite) (n : Nat) :
    s.cfg.inCap.fits n = true := by rw [h]; rfl

theorem dictCap_isFull_of_infinite (h : s.cfg = Capacities.infinite) (n : Nat) :
    s.cfg.dictCap.isFull n = false := by rw [h]; rfl

end

/-! ### The encoder's loop -/

/-- ENC.SYM is next, the codes `l` are packed and the symbols `q` are still to come. -/
structure EncoderAt (l : List (Nat × Nat)) (q : ByteSeq) (s : State) : Prop where
  cfg : s.cfg = Capacities.infinite
  phase : s.phase = .encSym
  packed : Packed l s
  matched : Matched s.hid.fdict s.hid.eNext s.hid.omega
  width : s.hid.eWidth = encWidthFor s.hid.eNext
  symbols : inBytes s s.hid.ip q.length = q
  left : s.hid.ip + q.length = s.inLen

section
variable {l : List (Nat × Nat)} {q : ByteSeq} {k : Byte} {s : State} {c : Nat}

/-- While a symbol is to come, IN holds it and the ones behind it. -/
theorem EncoderAt.symbol (h : EncoderAt l (k :: q) s) :
    s.hid.ip ≠ s.inLen ∧ s.cfg.inCap.hasIndex s.hid.ip = true ∧ s.inValue s.hid.ip = k ∧
      inBytes s (s.hid.ip + 1) q.length = q ∧ s.hid.ip + 1 + q.length = s.inLen := by
  have hleft := h.left
  rw [List.length_cons] at hleft
  obtain ⟨hhead, htail⟩ := List.cons.inj h.symbols
  exact ⟨by omega, Cap.hasIndex_of_lt (inCap_fits_of_infinite h.cfg s.inLen) (by omega), hhead, htail,
    by omega⟩

/-- A hit extends the match (`41_encoder.md` R122). -/
theorem EncoderAt.hit (h : EncoderAt l (k :: q) s)
    (hk : (s.hid.fdict.code? (s.hid.omega ++ [k])).isSome) :
    coreStep s = .next (encHit k (symbolTaken s)) ∧ EncoderAt l q (encHit k (symbolTaken s)) := by
  obtain ⟨hip, hindex, hhead, htail, hleft⟩ := h.symbol
  have hstep := encSym_hit hip hindex (by rw [hhead]; exact hk)
  rw [hhead] at hstep
  refine ⟨by simp only [coreStep, h.phase, hstep, conclude_ok], h.cfg, rfl,
    h.packed.congr rfl rfl rfl rfl, h.matched.hit hk, h.width, ?_, hleft⟩
  exact (inBytes_congr (t := encHit k (symbolTaken s)) (s := s) rfl rfl _ _).trans htail

/-- The state after the miss arm has emitted `c` and learned (`41_encoder.md` R122). -/
def missed (k : Byte) (c : Nat) (s : State) : State :=
  learn k (putState c s.hid.eWidth (symbolTaken s))

/-- A miss emits the code of the match, learns and restarts (`41_encoder.md` R122). -/
theorem EncoderAt.miss (h : EncoderAt l (k :: q) s) (hk : s.hid.fdict.code? (s.hid.omega ++ [k]) = none)
    (hc : s.hid.fdict.code? s.hid.omega = some c) :
    coreStep s = .next (missed k c s) ∧
      EncoderAt (l ++ [(c, encWidthFor s.hid.eNext)]) q (missed k c s) := by
  obtain ⟨hip, hindex, hhead, htail, hleft⟩ := h.symbol
  have hstep : encSym s = .ok (missed k c s) := by
    rw [encSym_miss hip hindex (by rw [hhead, Hidden.hit, hk]; rfl), hhead]
    rcases encMiss_cases (s := symbolTaken s) k (outCap_fits_of_infinite h.cfg _) hc with
      ⟨-, -, hmiss⟩ | ⟨hout | hdict, -⟩
    · exact hmiss
    · rw [outCap_fits_of_infinite (s := symbolTaken s) h.cfg] at hout
      cases hout
    · rw [dictCap_isFull_of_infinite (s := symbolTaken s) h.cfg] at hdict
      cases hdict
  refine ⟨by simp only [coreStep, h.phase, hstep, conclude_ok], h.cfg, rfl, ?_, h.matched.miss hk, ?_, ?_,
    hleft⟩
  · have hput := h.packed.putState (nine_le_encWidthFor s.hid.eNext) (h.matched.dict.code_lt hc)
    rw [← h.width] at hput ⊢
    exact hput.congr rfl rfl rfl rfl
  · change grownEncWidth (s.hid.eNext + 1) s.hid.eWidth = encWidthFor (s.hid.eNext + 1)
    rw [h.width, grownEncWidth_encWidthFor h.matched.dict.bounds.1]
  · exact (inBytes_congr (t := missed k c s) (s := s) rfl rfl _ _).trans htail

/-- ENC.FINAL emits the last match, if there is one (`41_encoder.md` R125). -/
theorem encFinal_packed (hcfg : s.cfg = Capacities.infinite) (hl : Packed l s)
    (hm : Matched s.hid.fdict s.hid.eNext s.hid.omega) (hw : s.hid.eWidth = encWidthFor s.hid.eNext) :
    ∃ t, encFinal s = .ok t ∧ t.cfg = s.cfg ∧ t.phase = .encFlush ∧
      Packed (l ++ emission s.hid.fdict s.hid.eNext s.hid.omega) t := by
  by_cases ho : s.hid.omega = []
  · refine ⟨_, encFinal_empty ho, rfl, rfl, ?_⟩
    rw [emission, ho, hm.dict.code?_nil, Option.toList_none, List.map_nil, List.append_nil]
    exact hl.congr rfl rfl rfl rfl
  · obtain ⟨c, hc⟩ := Option.isSome_iff_exists.mp (hm.key.resolve_left ho)
    rcases encFinal_cases ho (outCap_fits_of_infinite hcfg _) hc with ⟨-, hfinal⟩ | ⟨hout, -⟩
    · refine ⟨_, hfinal, rfl, rfl, ?_⟩
      have hput := hl.putState (nine_le_encWidthFor s.hid.eNext) (hm.dict.code_lt hc)
      rw [← hw] at hput
      rw [emission_of_key hc, ← hw]
      exact hput.congr rfl rfl rfl rfl
    · rw [outCap_fits_of_infinite hcfg] at hout
      cases hout

/-- ENC.FLUSH ends the command with the packed list as its result (`41_encoder.md` R126). -/
theorem encFlush_packed (hcfg : s.cfg = Capacities.infinite) (hl : Packed l s) :
    ∃ t, encFlush s = .ok t ∧ t.phase = .doneOk ∧ t.resultBytes = packBytes l := by
  rcases encFlush_cases (outCap_fits_of_infinite hcfg s.outLen) with ⟨-, hflush⟩ | ⟨hout, -⟩
  · exact ⟨_, hflush, rfl, hl.resultBytes_drained⟩
  · rw [outCap_fits_of_infinite hcfg] at hout
    cases hout

/-- With no symbol left three micro-operations end the command. -/
theorem EncoderAt.finish (h : EncoderAt l [] s) :
    ∃ t, coreRun 3 s = .next t ∧ t.phase = .doneOk ∧
      t.resultBytes = packBytes (l ++ emission s.hid.fdict s.hid.eNext s.hid.omega) := by
  have hend : coreStep s = .next { s with phase := .encFinal } := by
    simp only [coreStep, h.phase, encSym_end h.left, conclude_ok]
  obtain ⟨u, hfinal, hcfg, hphase, hpacked⟩ :=
    encFinal_packed (s := { s with phase := .encFinal }) h.cfg (h.packed.congr rfl rfl rfl rfl) h.matched
      h.width
  obtain ⟨t, hflush, hdone, hresult⟩ := encFlush_packed (hcfg.trans h.cfg) hpacked
  refine ⟨t, ?_, hdone, hresult⟩
  rw [coreRun_succ hend, coreRun_succ (t := u) (by simp only [coreStep, hfinal, conclude_ok]),
    coreRun_succ (t := t) (by simp only [coreStep, hphase, hflush, conclude_ok]), coreRun]

/-- From ENC.SYM on ENCODE packs the codes of the symbols to come, one micro-operation each. -/
theorem EncoderAt.completes (h : EncoderAt l q s) :
    ∃ t, coreRun (q.length + 3) s = .next t ∧ t.phase = .doneOk ∧
      t.resultBytes = packBytes (l ++ codesOf s.hid.fdict s.hid.eNext s.hid.omega q) := by
  induction q generalizing l s with
  | nil =>
    rw [codesOf]
    exact h.finish
  | cons k q ih =>
    rw [List.length_cons, Nat.add_right_comm]
    rcases hk : s.hid.fdict.code? (s.hid.omega ++ [k]) with _ | c
    · obtain ⟨c, hc⟩ := h.matched.exists_code hk
      obtain ⟨hstep, hnext⟩ := h.miss hk hc
      rw [coreRun_succ hstep, codesOf_miss hk hc, List.append_cons]
      exact ih hnext
    · have hsome : (s.hid.fdict.code? (s.hid.omega ++ [k])).isSome := hk ▸ rfl
      obtain ⟨hstep, hnext⟩ := h.hit hsome
      rw [coreRun_succ hstep, codesOf_hit hsome]
      exact ih hnext

end

/-- The codes of the stream ENCODE makes of some bytes. -/
def streamCodes (bytes : ByteSeq) : List (Nat × Nat) := codesOf [] 256 [] bytes

theorem encWidthFor_256 : encWidthFor 256 = 9 := by decide

theorem matched_nil : Matched [] 256 [] := ⟨rfl, .inl rfl⟩

theorem streamCodes_fit (bytes : ByteSeq) : CodesFit (streamCodes bytes) := matched_nil.codesOf_fit

/-- The state ENC.INIT leaves (`41_encoder.md` R120). -/
def encStarted (s : State) : State :=
  { s with
    hid := { s.hid with acc := 0, cnt := 0, fdict := [], eNext := 256, eWidth := 9, omega := [], ip := 0 }
    phase := .encSym }

/-- ENC.INIT prepares the encoder for the bytes the host has written (`41_encoder.md` R120). -/
theorem encoderAt_encStarted {s : State} {bytes : ByteSeq} (hcfg : s.cfg = Capacities.infinite)
    (hphase : s.phase = .encInit) (hin : s.inBuf = loadBytes 0 bytes []) (hlen : s.inLen = bytes.length)
    (hout : s.outBuf = []) (houtLen : s.outLen = 0) :
    coreStep s = .next (encStarted s) ∧ EncoderAt [] bytes (encStarted s) := by
  have hinit : encInit s = .ok (encStarted s) :=
    (encInit_eq s).trans (if_pos (inCap_fits_of_infinite hcfg s.inLen))
  have hpacked : Packed [] (encStarted s) := by
    refine ⟨by simp [CodesFit], ⟨?_, ?_⟩, ?_⟩
    · change s.outBuf = loadBytes 0 (leBytes s.outLen 0) []
      rw [hout, houtLen]
      rfl
    · exact (Nat.zero_shiftRight _).symm
    · change 8 * s.outLen + 0 = 0
      omega
  exact ⟨by simp only [coreStep, hphase, hinit, conclude_ok], hcfg, rfl, hpacked, matched_nil,
    encWidthFor_256.symm, inBytes_loadBytes hin, (Nat.zero_add _).trans hlen.symm⟩

/-- encode(B) is the packed list of the codes of B (`43_commands.md` R176). -/
theorem encodeBytes_eq (bytes : ByteSeq) :
    encodeBytes bytes = some (.ok (packBytes (streamCodes bytes))) := by
  obtain ⟨hinit, hat⟩ := encoderAt_encStarted (bytes := bytes)
    (s := startCommand .encInit { withOperands Capacities.infinite bytes 0 0 with cmd := 0x01 })
    rfl rfl rfl rfl rfl rfl
  obtain ⟨t, hrun, hdone, hresult⟩ := hat.completes
  rw [encodeBytes, encodeOn, commandResult_of_done ((coreRun_succ hinit).trans hrun) hdone (Nat.le_refl _),
    hresult]
  rfl

end Sys2Proof.Machine
end

section
/-! SUPPORT. DECODE of what ENCODE has packed: in lock-step with the encoder it rebuilds the bytes
(`42_decoder.md`, `44_properties.md` R190), and with that the round trip (R185). -/

namespace Sys2Proof.Machine

/-! ### The class of an encoder-made code -/

section
variable {s : State} {c : Nat} {q : ByteSeq} {k : Byte}

/-- A later code below d_next stands for its entry, LITERAL and KNOWN alike (`42_decoder.md` R148). -/
theorem classCode_of_lt (hc : c < s.hid.dNext) (hq : s.hid.rdict.seq? c = some q) :
    classCode (classOf false s.hid.dNext c) false c s = processEntry q s := by
  by_cases hlit : c < 256
  · rw [classOf_literal false _ hlit]
    exact literalCode_later hq
  · have hclass : classOf false s.hid.dNext c = .known := by simp [classOf, hlit, hc]
    rw [hclass]
    exact knownCode_later hq

/-- The later code d_next stands for the previous sequence and its first byte (`42_decoder.md` R149). -/
theorem classCode_of_eq (hc : c = s.hid.dNext) (hn : 256 ≤ c) (hs : s.hid.s = k :: q) :
    classCode (classOf false s.hid.dNext c) false c s = processEntry (k :: q ++ [k]) s := by
  have hclass : classOf false s.hid.dNext c = .selfRef := by
    simp [classOf, ← hc, Nat.not_lt.mpr hn]
  rw [hclass]
  exact selfCode_later hs

end

/-! ### The decoder between two codes -/

/-- The decoder has the entries of the forward dictionary `d` with `n` codes, has decoded `out`, and the codes
`l` are still to be read. -/
structure DecoderAt (d : Forward) (n : Nat) (out : ByteSeq) (l : List (Nat × Nat)) (s : State) : Prop where
  cfg : s.cfg = Capacities.infinite
  outBuf : s.outBuf = []
  rdict : s.hid.rdict = d.mirror
  next : s.hid.dNext = n
  width : s.hid.dWidth = decWidthFor n
  res : s.hid.res = out
  stream : Holds l s

section
variable {d : Forward} {n c : Nat} {prev out p q : ByteSeq} {k b : Byte} {l : List (Nat × Nat)} {s : State}

/-- An encoder-made code, which is one of the encoder's dictionary, one entry ahead of the decoder's, stands
for the same sequence on both sides (`44_properties.md` R190). -/
theorem classCode_lockstep (hrdict : s.hid.rdict = d.mirror) (hnext : s.hid.dNext = n)
    (hprev : s.hid.s = prev) (hok : Forward.Ok ((prev ++ [k], n) :: d) (n + 1))
    (hc : Forward.code? ((prev ++ [k], n) :: d) (k :: p) = some c) :
    classCode (classOf false s.hid.dNext c) false c s = processEntry (k :: p) s := by
  obtain ⟨-, hlen, -, -, hd⟩ := hok
  by_cases hself : k :: p = prev ++ [k]
  · rw [hself, code?_cons_same] at hc
    obtain rfl := Option.some.inj hc
    match prev, hprev, hself with
    | [], _, _ => simp at hlen
    | k' :: q, hprev, hself =>
      obtain ⟨rfl, rfl⟩ := List.cons.inj hself
      exact classCode_of_eq hnext.symm hd.bounds.1 hprev
  · rw [code?_cons_other _ _ hself] at hc
    refine classCode_of_lt ?_ ?_
    · rw [hnext]
      exact hd.bounds.2 _ _ hc
    · rw [hrdict]
      exact hd.seq?_mirror hc

/-- DEC.NEXT on an encoder-made code appends its sequence and learns what the encoder has learned
(`44_properties.md` R190). -/
theorem DecoderAt.nextCode (h : DecoderAt d n out ((c, encWidthFor (n + 1)) :: l) s)
    (hphase : s.phase = .decNext) (hprev : s.hid.s = prev)
    (hok : Forward.Ok ((prev ++ [k], n) :: d) (n + 1))
    (hc : Forward.code? ((prev ++ [k], n) :: d) (k :: p) = some c) :
    ∃ t, coreStep s = .next t ∧ t.phase = .decNext ∧ t.hid.s = k :: p ∧ t.need = s.need ∧
      DecoderAt ((prev ++ [k], n) :: d) (n + 1) (out ++ k :: p) l t := by
  obtain ⟨m, hget, hgot, hstream⟩ := h.stream.bbGet_code (inCap_fits_of_infinite h.cfg _)
  rw [show encWidthFor (n + 1) = s.hid.dWidth from h.width.symm] at hget hgot hstream
  generalize hu : codeTaken s.hid.dWidth m s = u at hget hgot hstream
  have hrdict : u.hid.rdict = d.mirror := hu ▸ h.rdict
  have hnext : u.hid.dNext = n := hu ▸ h.next
  have hwidth : u.hid.dWidth = decWidthFor n := hu ▸ h.width
  have hs : u.hid.s = prev := hu ▸ hprev
  have hcfg : u.cfg = Capacities.infinite := hu ▸ h.cfg
  have hprocess : processEntry (k :: p) u = .ok (entryProcessed (k :: p) k u) := by
    have hw : u.hid.dNext < 2 ^ u.hid.dWidth := by
      rw [hnext, hwidth]
      exact lt_two_pow_decWidthFor n
    rcases processEntry_cases k p hw with ⟨-, hentry⟩ | ⟨hfull, -⟩
    · exact hentry
    · rw [dictCap_isFull_of_infinite hcfg] at hfull
      cases hfull
  have hstep : decNext s = .ok (entryProcessed (k :: p) k u) := by
    rw [decNext, readCode_eq hget, hgot]
    exact (classCode_lockstep hrdict hnext hs hok hc).trans hprocess
  refine ⟨entryProcessed (k :: p) k u, by simp only [coreStep, hphase, hstep, conclude_ok], rfl, rfl, ?_,
    hcfg, ?_, ?_, ?_, ?_, ?_, hstream.congr rfl rfl rfl rfl rfl rfl⟩
  · rw [← hu]
    rfl
  · rw [← hu]
    exact h.outBuf
  · change (u.hid.dNext, u.hid.s ++ [k]) :: u.hid.rdict = _
    rw [hrdict, hnext, hs]
    rfl
  · exact congrArg (· + 1) hnext
  · change grownDecWidth (u.hid.dNext + 1) u.hid.dWidth = decWidthFor (n + 1)
    rw [hnext, hwidth, grownDecWidth_decWidthFor]
  · change u.hid.res ++ k :: p = out ++ k :: p
    rw [← hu]
    exact congrArg (· ++ k :: p) h.res

/-- DEC.FIRST on the code of a single byte (`42_decoder.md` R142). -/
theorem DecoderAt.firstCode (h : DecoderAt [] 256 [] ((b.toNat, encWidthFor 256) :: l) s)
    (hphase : s.phase = .decFirst) :
    ∃ t, coreStep s = .next t ∧ t.phase = .decNext ∧ t.hid.s = [b] ∧ t.need = s.need ∧
      DecoderAt [] 256 [b] l t := by
  obtain ⟨m, hget, hgot, hstream⟩ := h.stream.bbGet_code (inCap_fits_of_infinite h.cfg _)
  have hw : encWidthFor 256 = s.hid.dWidth := h.width.symm ▸ (by decide)
  rw [hw] at hget hgot hstream
  have hseq : Reverse.seq? (codeTaken s.hid.dWidth m s).hid.rdict b.toNat = some [b] := by
    change Reverse.seq? s.hid.rdict b.toNat = some [b]
    rw [h.rdict]
    exact Forward.Ok.seq?_mirror (n := 256) rfl rfl
  have hstep := decFirst_literal hget hgot b.isLt hseq
  refine ⟨startSequence [b] (codeTaken s.hid.dWidth m s),
    by simp only [coreStep, hphase, hstep, conclude_ok], rfl, rfl, rfl, h.cfg, h.outBuf, h.rdict, h.next,
    h.width, ?_, hstream.congr rfl rfl rfl rfl rfl rfl⟩
  change s.hid.res ++ [b] = [b]
  rw [h.res]
  rfl

/-- After the last code the padding is no code (`44_properties.md` R193), and DEC.FINISH delivers the result
(`42_decoder.md` R155). -/
theorem DecoderAt.finish (h : DecoderAt d n out [] s) (hphase : s.phase = .decFirst ∨ s.phase = .decNext)
    (hneed : s.need = out.length) :
    ∃ t, coreRun 2 s = .next t ∧ t.phase = .doneOk ∧ t.resultBytes = out := by
  have hw : 9 ≤ s.hid.dWidth := h.width ▸ nine_le_decWidthFor n
  obtain ⟨u, hget, hgot⟩ := h.stream.bbGet_none hw (inCap_fits_of_infinite h.cfg _)
  have hframe := bbGet_frame hget
  have hread (first : Bool) : readCode first s = .ok { u with phase := .decFinish } := by
    rw [readCode_eq hget, hgot]
  have hend : coreStep s = .next { u with phase := .decFinish } := by
    rcases hphase with hp | hp
    · simp only [coreStep, hp, decFirst, hread, conclude_ok]
    · simp only [coreStep, hp, decNext, hread, conclude_ok]
  have hcfg : u.cfg = Capacities.infinite := by rw [hframe]; exact h.cfg
  have hbuf : u.outBuf = [] := by rw [hframe]; exact h.outBuf
  have hres : u.hid.res = out := by rw [hframe]; exact h.res
  have hlen : u.need = out.length := by rw [hframe]; exact hneed
  have hfinish := decFinish_ok (s := { u with phase := .decFinish }) (outCap_fits_of_infinite hcfg _)
    (by change u.need ≤ u.hid.res.length; rw [hlen, hres])
  refine ⟨_, (coreRun_succ hend).trans (coreRun_succ (congrArg (conclude _) hfinish)), rfl,
    resultBytes_of_loadBytes ?_ hlen⟩
  change loadBytes 0 (u.hid.res.take u.need) u.outBuf = loadBytes 0 out []
  rw [hres, hlen, hbuf, List.take_length]

/-- From DEC.NEXT on, where the encoder is one entry ahead and has the match `k :: p`, DECODE rebuilds the
match and the symbols behind it (`44_properties.md` R190). -/
theorem DecoderAt.completes
    (h : DecoderAt d n out (codesOf ((prev ++ [k], n) :: d) (n + 1) (k :: p) q) s)
    (hphase : s.phase = .decNext) (hprev : s.hid.s = prev)
    (hmatched : Matched ((prev ++ [k], n) :: d) (n + 1) (k :: p))
    (hneed : s.need = (out ++ k :: p ++ q).length) :
    ∃ t, coreRun ((codesOf ((prev ++ [k], n) :: d) (n + 1) (k :: p) q).length + 2) s = .next t ∧
      t.phase = .doneOk ∧ t.resultBytes = out ++ k :: p ++ q := by
  induction q generalizing d n out prev p k s with
  | nil =>
    obtain ⟨c, hc⟩ := Option.isSome_iff_exists.mp (hmatched.key.resolve_left (List.cons_ne_nil _ _))
    rw [codesOf, emission_of_key hc] at h ⊢
    rw [List.append_nil] at hneed ⊢
    obtain ⟨t, hstep, hphase', -, hneed', hat⟩ := h.nextCode hphase hprev hmatched.dict hc
    obtain ⟨u, hrun, hresult⟩ := hat.finish (.inr hphase') (hneed'.trans hneed)
    exact ⟨u, (coreRun_succ hstep).trans hrun, hresult⟩
  | cons k' q ih =>
    rcases hk : Forward.code? ((prev ++ [k], n) :: d) (k :: p ++ [k']) with _ | c
    · obtain ⟨c, hc⟩ := hmatched.exists_code hk
      rw [codesOf_miss hk hc] at h ⊢
      obtain ⟨t, hstep, hphase', hprev', hneed', hat⟩ := h.nextCode hphase hprev hmatched.dict hc
      have hsplit : out ++ k :: p ++ k' :: q = out ++ k :: p ++ [k'] ++ q := by simp
      rw [hsplit] at hneed ⊢
      obtain ⟨u, hrun, hresult⟩ := ih hat hphase' hprev' (hmatched.miss hk) (hneed'.trans hneed)
      exact ⟨u, (coreRun_succ hstep).trans hrun, hresult⟩
    · have hsome : (Forward.code? ((prev ++ [k], n) :: d) (k :: p ++ [k'])).isSome := hk ▸ rfl
      have hsplit : out ++ k :: p ++ k' :: q = out ++ k :: (p ++ [k']) ++ q := by simp
      rw [codesOf_hit hsome] at h ⊢
      rw [hsplit] at hneed ⊢
      exact ih h hphase hprev (hmatched.hit hsome) hneed

end

/-! ### The round trip -/

section
variable {s : State} {bytes : ByteSeq}

/-- From DEC.FIRST on DECODE rebuilds the bytes of an encoder-made stream, one micro-operation for each code
and two more. -/
theorem DecoderAt.completes_first (h : DecoderAt [] 256 [] (streamCodes bytes) s)
    (hphase : s.phase = .decFirst) (hneed : s.need = bytes.length) :
    ∃ t, coreRun ((streamCodes bytes).length + 2) s = .next t ∧ t.phase = .doneOk ∧
      t.resultBytes = bytes := by
  match bytes with
  | [] => exact h.finish (.inl hphase) hneed
  | [b] =>
    have hcodes : streamCodes [b] = [(b.toNat, encWidthFor 256)] := rfl
    rw [hcodes] at h ⊢
    obtain ⟨t, hstep, hphase', -, hneed', hat⟩ := h.firstCode hphase
    obtain ⟨u, hrun, hresult⟩ := hat.finish (.inr hphase') (hneed'.trans hneed)
    exact ⟨u, (coreRun_succ hstep).trans hrun, hresult⟩
  | b :: k :: q =>
    have hmatched : Matched [] 256 [b] := matched_nil.hit rfl
    have hcodes : streamCodes (b :: k :: q) =
        (b.toNat, encWidthFor 256) :: codesOf [([b] ++ [k], 256)] 257 [k] q := rfl
    rw [hcodes] at h ⊢
    obtain ⟨t, hstep, hphase', hprev, hneed', hat⟩ := h.firstCode hphase
    obtain ⟨u, hrun, hresult⟩ := hat.completes hphase' hprev (hmatched.miss rfl) (hneed'.trans hneed)
    exact ⟨u, (coreRun_succ hstep).trans hrun, hresult⟩

/-- The state DEC.INIT leaves (`42_decoder.md` R140). -/
def decStarted (s : State) : State :=
  { s with
    hid := { s.hid with acc := 0, cnt := 0, rdict := [], dNext := 256, dWidth := 9, res := [], ip := 0 }
    phase := .decFirst }

/-- DEC.INIT prepares the decoder for a packed list of codes the host has written (`42_decoder.md` R140). -/
theorem decoderAt_decStarted {l : List (Nat × Nat)} (hfit : CodesFit l)
    (hcfg : s.cfg = Capacities.infinite) (hphase : s.phase = .decInit)
    (hin : s.inBuf = loadBytes 0 (packBytes l) []) (hlen : s.inLen = (packBytes l).length)
    (hout : s.outBuf = []) :
    coreStep s = .next (decStarted s) ∧ DecoderAt [] 256 [] l (decStarted s) := by
  have hfits : (s.cfg.inCap.fits s.inLen && s.cfg.outCap.fits s.need) = true := by
    rw [inCap_fits_of_infinite hcfg, outCap_fits_of_infinite hcfg]
    rfl
  have hinit : decInit s = .ok (decStarted s) := (decInit_eq s).trans (if_pos hfits)
  exact ⟨by simp only [coreStep, hphase, hinit, conclude_ok],
    hcfg, hout, rfl, rfl, (by decide : 9 = decWidthFor 256), rfl, .of_packBytes hfit hin hlen rfl rfl rfl⟩

/-- A stream holds at most one code for every nine bits (`44_properties.md` R192). -/
theorem CodesFit.length_le {l : List (Nat × Nat)} (h : CodesFit l) :
    l.length ≤ 8 * (packBytes l).length / 9 := by
  have := h.nine_mul_length_le
  rw [packBytes, leBytes_length]
  omega

/-- DECODE of the codes of B, with the extent of B, gives B (`43_commands.md` R177). -/
theorem decodeBytes_streamCodes {rows cols : Nat} (hneed : rows * cols = bytes.length) :
    decodeBytes (packBytes (streamCodes bytes)) rows cols = some (.ok bytes) := by
  have hfit := streamCodes_fit bytes
  obtain ⟨hinit, hat⟩ := decoderAt_decStarted hfit
    (s := startCommand .decInit
      { withOperands Capacities.infinite (packBytes (streamCodes bytes)) rows cols with cmd := 0x02 })
    rfl rfl rfl rfl rfl
  obtain ⟨t, hrun, hdone, hresult⟩ := hat.completes_first rfl hneed
  have hsteps := Nat.add_le_add_right hfit.length_le 3
  rw [decodeBytes, decodeOn, commandResult_of_done ((coreRun_succ hinit).trans hrun) hdone hsteps, hresult]

end

/-- Settles O58: ENCODE packs the codes of the bytes, by `encodeBytes_eq`, and DECODE rebuilds the bytes from
them, by `decodeBytes_streamCodes`. -/
theorem roundTrip : Obligations.RoundTrip :=
  ⟨fun bytes _ _ hneed => ⟨_, encodeBytes_eq bytes, decodeBytes_streamCodes hneed⟩, encodeBytes_eq []⟩

end Sys2Proof.Machine
end

section
/-! SUPPORT. The decoder and the encoder of instructions: codes as bits of the stream (`30_encoding.md` R92),
commands as values of CMD (R81), and the least widths (`44_properties.md` R189). -/

namespace Sys2Proof

open Machine

/-! ### The bits of a stream -/

/-- Bit `i` of a code is the stream bit `i` places on, and no code has a bit at its width or above. -/
theorem testBit_codeAt (bytes : List Byte) (p w i : Nat) :
    (codeAt bytes p w).testBit i = (decide (i < w) && streamBit bytes (p + i)) := by
  induction w generalizing p i with
  | zero => simp [codeAt]
  | succ w ih =>
    rw [codeAt]
    cases i with
    | zero => cases streamBit bytes p <;> simp
    | succ i =>
      have hhalf : ((streamBit bytes p).toNat + 2 * codeAt bytes (p + 1) w) / 2 =
          codeAt bytes (p + 1) w := by
        have := (streamBit bytes p).toNat_le
        omega
      rw [Nat.testBit_add_one, hhalf, ih]
      simp [Nat.add_right_comm, Nat.add_assoc]

/-- The stream's bits are the bits of the number its bytes stand for. -/
theorem streamBit_eq_testBit (bytes : List Byte) (p : Nat) :
    streamBit bytes p = (leValue bytes).testBit p := by
  induction bytes generalizing p with
  | nil => simp [streamBit, leValue]
  | cons b q ih =>
    have hvalue : leValue (b :: q) = 2 ^ 8 * leValue q + b.toNat := Nat.add_comm _ _
    rw [hvalue, Nat.testBit_two_pow_mul_add _ b.isLt]
    by_cases hp : p < 8
    · simp [streamBit, hp, Nat.div_eq_of_lt hp, Nat.mod_eq_of_lt hp, BitVec.getLsbD]
    · have hdiv : p / 8 = (p - 8) / 8 + 1 := by omega
      have hmod : p % 8 = (p - 8) % 8 := by omega
      rw [if_neg hp, ← ih, streamBit, streamBit, hdiv, hmod, List.getD_cons_succ]

/-- The first code of a stream is the low part of the number its bytes stand for (`20_memory.md` R64). -/
theorem codeAt_zero (bytes : List Byte) (w : Nat) : codeAt bytes 0 w = leValue bytes % 2 ^ w := by
  refine Nat.eq_of_testBit_eq fun i => ?_
  rw [testBit_codeAt, Nat.testBit_mod_two_pow, Nat.zero_add, streamBit_eq_testBit]

/-- Settles O5: `testBit_codeAt`, with the stream bit written out. -/
theorem codeBitsAreStreamBits : Obligations.CodeBitsAreStreamBits := testBit_codeAt

/-! ### The class of a later code -/

section
variable {dNext c : Nat}

theorem classOf_known (hc : 256 ≤ c) (hn : c < dNext) : classOf false dNext c = .known := by
  simp [classOf, Nat.not_lt.mpr hc, hn]

theorem classOf_selfRef (hc : 256 ≤ c) : classOf false c c = .selfRef := by
  simp [classOf, Nat.not_lt.mpr hc]

theorem classOf_invalid (hc : 256 ≤ c) (hn : dNext < c) : classOf false dNext c = .invalid := by
  simp [classOf, Nat.not_lt.mpr hc, Nat.not_lt.mpr hn.le, hn.ne']

end

/-- Settles O4: a code is below 256, or from there below, at or above d_next, and each place has its class. -/
theorem codeClasses : Obligations.CodeClasses := by
  intro dNext c hn
  by_cases hlit : c < 256
  · simp only [classOf_literal _ dNext hlit, reduceCtorEq, true_iff, false_iff]
    omega
  · have hc := Nat.not_lt.mp hlit
    rcases Nat.lt_trichotomy c dNext with hlt | rfl | hgt
    · simp only [classOf_first_invalid dNext hc, classOf_known hc hlt, reduceCtorEq, true_iff, false_iff]
      omega
    · simp only [classOf_first_invalid c hc, classOf_selfRef hc, reduceCtorEq, true_iff, false_iff,
        true_and]
      omega
    · simp only [classOf_first_invalid dNext hc, classOf_invalid hc hgt, reduceCtorEq, true_iff, false_iff]
      omega

/-! ### Decoding what was encoded -/

/-- A code read back from its bytes, the padding left aside (`20_memory.md` R64, R65). -/
theorem decode_leBytes {w c dNext : Nat} {first : Bool} (hw : 9 ≤ w) (hc : c < 2 ^ w) :
    decode (.code w first dNext) (leBytes ((w + 7) / 8) c) = .ok (decodeCode w first dNext c) := by
  have hpow : 2 ^ w ≤ 2 ^ (8 * ((w + 7) / 8)) := Nat.pow_le_pow_right Nat.two_pos (by omega)
  rw [decode, if_neg (by omega), leBytes_length, if_neg (by omega), codeAt_zero, leValue_leBytes,
    Nat.mod_eq_of_lt (hc.trans_le hpow), Nat.mod_eq_of_lt hc]

theorem nine_le_of_widthOk {cfg : Capacities} {w : Nat} (h : widthOk cfg w = true) : 9 ≤ w := by
  simp only [widthOk, Bool.and_eq_true, decide_eq_true_eq] at h
  exact h.1

theorem bounds_of_sequenceCodeOk {cfg : Capacities} {w c : Nat} (h : sequenceCodeOk cfg w c = true) :
    9 ≤ w ∧ 256 ≤ c ∧ c < 2 ^ w := by
  simp only [sequenceCodeOk, Bool.and_eq_true, decide_eq_true_eq] at h
  obtain ⟨⟨hw, hc⟩, hlt⟩ := h
  exact ⟨nine_le_of_widthOk hw, hc, hlt⟩

/-- Settles O3: a command by the values of its operand, a code by `decode_leBytes` and the class its context
puts it in. -/
theorem decodeOfEncode : Obligations.DecodeOfEncode := by
  intro cfg i x bytes hwf hencode hread
  cases i with
  | nop | encode | decode | reserved0303 => cases hread; cases hencode; decide
  | reserved0407 v | reserved080F v | reserved101F v | reserved203F v | reserved407F v | reserved80FF v =>
    cases hread
    cases hencode
    clear hwf
    revert v
    decide
  | bbClear | bbPut | bbFlush | bbGet | encInit | encSym | encFinal | encFlush | decInit | decFirst
  | decNext | decFinish => cases hencode
  | literal w c =>
    obtain ⟨first, dNext, rfl⟩ := hread
    cases hencode
    have hw := nine_le_of_widthOk hwf
    have hc : c.toNat < 2 ^ w := c.isLt.trans_le (Nat.pow_le_pow_right Nat.two_pos (by omega))
    have hbyte : lowByte c.toNat = c := BitVec.ofNat_toNat 8 c
    rw [decode_leBytes hw hc, decodeCode, classOf_literal first dNext c.isLt]
    exact congrArg (fun b => Except.ok (Instr.literal w b)) hbyte
  | known w c =>
    obtain ⟨dNext, hn, rfl⟩ := hread
    cases hencode
    obtain ⟨hw, hc, hlt⟩ := bounds_of_sequenceCodeOk hwf
    rw [decode_leBytes hw hlt, decodeCode, classOf_known hc hn]
  | selfRef w c =>
    cases hread
    cases hencode
    obtain ⟨hw, hc, hlt⟩ := bounds_of_sequenceCodeOk hwf
    rw [decode_leBytes hw hlt, decodeCode, classOf_selfRef hc]
  | invalid w c =>
    obtain ⟨first, dNext, hn, rfl⟩ := hread
    cases hencode
    obtain ⟨hw, hc, hlt⟩ := bounds_of_sequenceCodeOk hwf
    rw [decode_leBytes hw hlt, decodeCode]
    cases first with
    | true => rw [classOf_first_invalid dNext hc]
    | false => rw [classOf_invalid hc (hn.resolve_left Bool.false_ne_true)]

/-- Settles O1: the words are concrete bytes. -/
theorem specWordsDecode : Obligations.SpecWordsDecode := by
  unfold Obligations.SpecWordsDecode
  decide

/-- Settles O2: the 256 values of CMD, each looked at. -/
theorem commandValuesEncodeBack : Obligations.CommandValuesEncodeBack := by
  unfold Obligations.CommandValuesEncodeBack
  decide

/-! ### The least widths -/

theorem encWidthFor_le_iff (n w : Nat) : encWidthFor n ≤ w ↔ 9 ≤ w ∧ n ≤ 2 ^ w := by
  have hpow := Nat.two_pow_pos w
  rw [encWidthFor, max_le_iff, bitlen_le_iff]
  omega

theorem decWidthFor_le_iff (n w : Nat) : decWidthFor n ≤ w ↔ 9 ≤ w ∧ n < 2 ^ w := by
  rw [decWidthFor, max_le_iff, bitlen_le_iff]

/-- Settles O6: both widths are a maximum of 9 and a bit length. -/
theorem widthsAreLeast : Obligations.WidthsAreLeast := by
  refine ⟨encWidthFor_le_iff, decWidthFor_le_iff, fun j _ => ⟨rfl, ?_⟩⟩
  rw [decWidthFor, codeWidth, encWidthFor, Nat.add_right_comm 254 1 j, Nat.add_sub_cancel]

end Sys2Proof
end

section
/-! SUPPORT. What an instruction is, said once: a command is accepted or dropped (`43_commands.md` R170), every
other instruction is the run of its micro-operation or of its class of code. -/

namespace Sys2Proof.Machine

/-! ### Commands -/

/-- What the command of the value `v` does beyond CMD (`43_commands.md` R171, R172, R173, R175). -/
def commandAct (v : Byte) : State → State :=
  if v = 0x00 then id
  else if v = 0x01 then startCommand .encInit
  else if v = 0x02 then startCommand .decInit
  else illegalCommand

theorem commandAct_reserved {v : Byte} (hv : 0x03 ≤ v) : commandAct v = illegalCommand := by
  have hne (a : Byte) (ha : a < 0x03) : v ≠ a := by
    rintro rfl
    exact absurd ha (BitVec.not_lt.mpr hv)
  rw [commandAct, if_neg (hne _ (by decide)), if_neg (hne _ (by decide)), if_neg (hne _ (by decide))]

/-- Every reserved row is of a value of 3 or more, and its instruction refuses that value. -/
theorem exec_reserved {i : Instr} {v : Byte} (hi : isReserved i = true) (hv : encode i = some [v]) (s : State) :
    0x03 ≤ v ∧ exec i s = acceptCmd v illegalCommand s := by
  cases i with
  | reserved0303 => cases hv; exact ⟨by decide, rfl⟩
  | reserved0407 x | reserved080F x | reserved101F x | reserved203F x | reserved407F x | reserved80FF x =>
    cases hv
    refine ⟨?_, rfl⟩
    clear hi
    revert x
    decide
  | _ => cases hi

/-- A command is the write of its value to CMD (`43_commands.md` R170). -/
theorem exec_command {i : Instr} {v : Byte} (hi : isCommand i = true) (hv : encode i = some [v]) (s : State) :
    exec i s = acceptCmd v (commandAct v) s := by
  cases hr : isReserved i with
  | true =>
    obtain ⟨hge, hexec⟩ := exec_reserved hr hv s
    rw [hexec, commandAct_reserved hge]
  | false =>
    cases i with
    | nop | encode | decode => cases hv; rfl
    | _ => exact absurd (hr.symm.trans hi) Bool.false_ne_true

/-- The instruction of a value written to CMD is a command, and that value's. -/
theorem exec_decodeCmd (v : Byte) (s : State) : exec (decodeCmd v) s = acceptCmd v (commandAct v) s := by
  obtain ⟨hcommand, hvalue⟩ := commandValuesEncodeBack v
  exact exec_command hcommand hvalue s

theorem exists_value_of_command {i : Instr} (hi : isCommand i = true) : ∃ v, encode i = some [v] := by
  cases i with
  | nop | encode | decode | reserved0303 | reserved0407 | reserved080F | reserved101F | reserved203F
  | reserved407F | reserved80FF => exact ⟨_, rfl⟩
  | _ => cases hi

/-- Settles O7: `exec_decodeCmd` and, value by value, what the command does. -/
theorem writeToCmd : Obligations.WriteToCmd := by
  intro s v
  simp only [exec_decodeCmd, acceptCmd_eq]
  refine ⟨fun hbusy => ?busy, fun hrest hv => ?nop, fun hrest hv => ?encode, fun hrest hv => ?decode,
    fun hrest hv => ?reserved⟩
  case busy => rw [if_pos hbusy]
  case nop => subst hv; rw [hrest]; rfl
  case encode => subst hv; rw [hrest]; exact ⟨_, _, rfl⟩
  case decode => subst hv; rw [hrest]; exact ⟨_, _, rfl⟩
  case reserved => rw [hrest, commandAct_reserved hv]; rfl

/-- Settles O9: an accepted command is `startCommand`, whose phase is busy. -/
theorem commandsStart : Obligations.CommandsStart := by
  intro s hrest
  refine ⟨⟨startCommand .encInit { s with cmd := 0x01 }, [], s.outEra + 1, ?_, ?_, rfl⟩,
    ⟨startCommand .decInit { s with cmd := 0x02 }, [], s.outEra + 1, ?_, ?_, rfl⟩⟩
  · rw [exec_command rfl rfl, acceptCmd_eq, hrest]; rfl
  · exact (status_eq_busy_iff _).mpr rfl
  · rw [exec_command rfl rfl, acceptCmd_eq, hrest]; rfl
  · exact (status_eq_busy_iff _).mpr rfl

/-- Settles O10: `exec_reserved`, and what `illegalCommand` leaves. -/
theorem reservedValuesAreIllegal : Obligations.ReservedValuesAreIllegal := by
  intro i v s hi hv hrest
  refine ⟨illegalCommand { s with cmd := v }, ?_, (status_eq_doneErr_iff _).mpr rfl, rfl, rfl⟩
  rw [(exec_reserved hi hv s).2, acceptCmd_eq, hrest]
  rfl

/-! ### The other instructions -/

/-- The run of an instruction that is no command; a command has none. -/
def microRun : Instr → State → Run State
  | .bbClear, s => .ok (bbClear s)
  | .bbPut c w, s => bbPut c w s
  | .bbFlush, s => bbFlush s
  | .bbGet w, s => bbGet w s
  | .encInit, s => encInit s
  | .encSym, s => encSym s
  | .encFinal, s => encFinal s
  | .encFlush, s => encFlush s
  | .decInit, s => decInit s
  | .decFirst, s => readCode true s
  | .decNext, s => readCode false s
  | .decFinish, s => decFinish s
  | .literal _ c, s => classCode .literal s.atFirstCode c.toNat s
  | .known _ c, s => classCode .known s.atFirstCode c s
  | .selfRef _ c, s => classCode .selfRef s.atFirstCode c s
  | .invalid _ c, s => classCode .invalid s.atFirstCode c s
  | _, s => .ok s

theorem exec_micro {i : Instr} (hi : isCommand i = false) (s : State) :
    exec i s = conclude s (microRun i s) := by
  cases i with
  | nop | encode | decode | reserved0303 | reserved0407 | reserved080F | reserved101F | reserved203F
  | reserved407F | reserved80FF => cases hi
  | _ => rfl

/-- An instruction ends in a next state by a command, by running to its end, or by raising an error. -/
theorem exec_eq_next {i : Instr} {s t : State} (h : exec i s = .next t) :
    (isCommand i = true ∧ ∃ v, t = if s.phase.busy then s else commandAct v { s with cmd := v }) ∨
      (isCommand i = false ∧ microRun i s = .ok t) ∨
      (isCommand i = false ∧ ∃ e, microRun i s = .error (.raise e) ∧ t = raiseError e s) := by
  cases hi : isCommand i with
  | true =>
    obtain ⟨v, hv⟩ := exists_value_of_command hi
    rw [exec_command hi hv, acceptCmd_eq] at h
    cases h
    exact .inl ⟨rfl, v, rfl⟩
  | false =>
    rw [exec_micro hi] at h
    exact .inr ((conclude_eq_next h).imp (⟨rfl, ·⟩) (⟨rfl, ·⟩))

/-- An instruction whose run raises an error ends the command with it. -/
theorem exec_endedBy {i : Instr} {s : State} {e : ErrCode} (hi : isCommand i = false) (he : e ≠ .none)
    (h : microRun i s = .error (.raise e)) : ∃ t, exec i s = .next t ∧ EndedBy e s t := by
  rw [exec_micro hi]
  exact exists_endedBy_of_raise he h

end Sys2Proof.Machine
end

section
/-! SUPPORT. BB.PUT and BB.GET as the instructions show them (`40_bitbuffer.md` R102, R106, R107), and the sizes
their loops keep to (R110). -/

namespace Sys2Proof.Machine

section
variable {c w : Nat} {s t : State}

/-! ### BB.PUT -/

/-- The pending bits after BB.PUT, as arithmetic (`40_bitbuffer.md` R102). -/
theorem putState_eq (hacc : s.hid.acc < 2 ^ s.hid.cnt) :
    putState c w s =
      { s with
        hid := { s.hid with
          acc := (s.hid.acc + c * 2 ^ s.hid.cnt) / 2 ^ (8 * ((s.hid.cnt + w) / 8))
          cnt := (s.hid.cnt + w) % 8 }
        outBuf := (putState c w s).outBuf
        outLen := s.outLen + (s.hid.cnt + w) / 8 } := by
  have hcnt : s.hid.cnt + w - 8 * ((s.hid.cnt + w) / 8) = (s.hid.cnt + w) % 8 := by omega
  simp only [putState, drained, or_shiftLeft_eq_add c hacc, Nat.shiftRight_eq_div_pow, hcnt]

/-- Outside the bytes it appends BB.PUT leaves OUT as it was (`40_bitbuffer.md` R103). -/
theorem read_putState_outside {a : Nat} (ha : a < s.outLen ∨ s.outLen + (s.hid.cnt + w) / 8 ≤ a) :
    Memory.read (putState c w s).outBuf a = Memory.read s.outBuf a := by
  unfold putState
  exact read_drained_outside ha

/-- Settles O14: with room the drain loop runs to its end, and its bytes are those of the number the code
makes with the pending bits; without room it raises. -/
theorem bbPutPacksTheCode : Obligations.BbPutPacksTheCode := by
  intro c w s
  refine ⟨fun hacc hroom => ⟨(putState c w s).outBuf, ?_, fun k hk => ?_, fun _ => read_putState_outside⟩,
    fun hfits hfull => exec_endedBy rfl (by decide) (bbPut_full hfits hfull)⟩
  · rw [exec_micro rfl, microRun, bbPut_ok hroom, conclude_ok, ← putState_eq hacc]
  · rw [← or_shiftLeft_eq_add c hacc]
    exact read_drained hk

/-! ### BB.GET -/

/-- Settles O16: `bbGet_code`, its bit operations written as arithmetic. -/
theorem bbGetReadsACode : Obligations.BbGetReadsACode := by
  intro w s hin hacc hwhole
  rw [exec_micro rfl, microRun, bbGet_code hin hacc hwhole, conclude_ok, lowbits, Nat.shiftRight_eq_div_pow]

/-- Settles O17: `bbGet_none`. -/
theorem bbGetFindsTheEnd : Obligations.BbGetFindsTheEnd := by
  intro w s hin hacc hip hend
  refine ⟨by omega, ?_⟩
  rw [exec_micro rfl, microRun, bbGet_none hin hacc hip hend, conclude_ok]

/-! ### The sizes of acc and cnt -/

/-- A turn of the drain loop keeps acc < 2^cnt and adds no bit (`40_bitbuffer.md` R101). -/
theorem drain_small (n : Nat) (hacc : s.hid.acc < 2 ^ s.hid.cnt) (h : drain n s = .ok t) :
    t.hid.acc < 2 ^ t.hid.cnt ∧ t.hid.cnt ≤ s.hid.cnt := by
  induction n generalizing s with
  | zero => cases h; exact ⟨hacc, Nat.le_refl _⟩
  | succ n ih =>
    obtain ⟨u, hu, h⟩ := bind_eq_ok h
    rw [outByte_frame hu] at h
    obtain ⟨hlt, hle⟩ := ih (shiftRight_lt 8 hacc) h
    exact ⟨hlt, hle.trans (Nat.sub_le _ 8)⟩

/-- Bits in order of which there are at most w + 7 fit the accumulator (`40_bitbuffer.md` R110). -/
theorem accumulator_fits {cfg : Capacities} {h : Hidden} (hw : cfg.wMax.fits w = true)
    (hacc : h.acc < 2 ^ h.cnt) (hcnt : h.cnt ≤ w + 7) :
    cfg.accBits.holdsValue h.acc = true ∧ cfg.accBits.fits h.cnt = true :=
  have hfits := Capacities.accBits_fits hw hcnt
  ⟨acc_fits hacc hfits, hfits⟩

end

/-- Settles O60: the loops keep acc < 2^cnt and cnt at w + 7 or less, by `drain_small` and `fill_small`. -/
theorem accumulatorHoldsTheBits : Obligations.AccumulatorHoldsTheBits := by
  refine ⟨fun cfg n hn => ⟨Capacities.wMax_fits_encWidthFor hn, Capacities.wMax_fits_decWidthFor hn⟩,
    fun c w turns s t hw hcnt hacc hc h => ?put, fun w turns s t hw hcnt hacc h => ?get,
    fun _ _ => Capacities.cntBits_holdsValue⟩
  case put =>
    obtain ⟨hlt, hle⟩ := drain_small turns (or_shiftLeft_lt hacc hc) h
    have hcfg : t.cfg = s.cfg := by rw [drain_frame turns h]
    rw [hcfg]
    exact accumulator_fits hw hlt (hle.trans (by simp only; omega))
  case get =>
    obtain ⟨hlt, hle⟩ := fill_small w turns hacc (by omega) h
    have hcfg : t.cfg = s.cfg := by rw [fill_frame w turns h]
    rw [hcfg]
    exact accumulator_fits hw hlt hle

end Sys2Proof.Machine
end

section
/-! SUPPORT. pack(L) and its inverse, whatever OUT held before and the hidden registers of the reader hold
(`40_bitbuffer.md` R111). -/

namespace Sys2Proof.Machine

/-! ### The bytes OUT has been given -/

/-- Two states that differ in OUT alone, and there not in the bytes below OUT_LEN. -/
structure SameWritten (s t : State) : Prop where
  rest : ∃ m, t = { s with outBuf := m }
  written : ∀ k, k < s.outLen → Memory.read t.outBuf k = Memory.read s.outBuf k

section
variable {s t : State} {l : List (Nat × Nat)}

/-- What the drain loop writes does not depend on OUT. -/
theorem SameWritten.drained (h : SameWritten s t) (n : Nat) : SameWritten (drained n s) (drained n t) := by
  obtain ⟨⟨m, rfl⟩, hwritten⟩ := h
  refine ⟨⟨_, rfl⟩, fun k hk => ?_⟩
  by_cases hlow : k < s.outLen
  · rw [read_drained_outside (s := s) (.inl hlow)]
    exact (read_drained_outside (s := { s with outBuf := m }) (.inl hlow)).trans (hwritten k hlow)
  · obtain ⟨j, rfl⟩ := Nat.exists_eq_add_of_le (Nat.not_lt.mp hlow)
    have hj : j < n := Nat.lt_of_add_lt_add_left hk
    exact (read_drained (s := { s with outBuf := m }) hj).trans (read_drained (s := s) hj).symm

theorem SameWritten.putState (h : SameWritten s t) (c w : Nat) :
    SameWritten (putState c w s) (putState c w t) := by
  obtain ⟨⟨m, rfl⟩, hwritten⟩ := h
  unfold Machine.putState
  refine SameWritten.drained ?_ _
  exact ⟨⟨m, rfl⟩, hwritten⟩

/-! ### Packing -/

/-- The effect of BB.PUT of a list of codes, one after the other. -/
def putStates : List (Nat × Nat) → State → State
  | [], s => s
  | (c, w) :: l, s => putStates l (putState c w s)

theorem putAll_eq (hcfg : s.cfg = Capacities.infinite) : putAll l s = .ok (putStates l s) := by
  induction l generalizing s with
  | nil => rfl
  | cons x l ih =>
    obtain ⟨c, w⟩ := x
    rw [putAll, bbPut_ok (outCap_fits_of_infinite hcfg _), ok_bind]
    exact ih hcfg

theorem putStates_cfg (l : List (Nat × Nat)) (s : State) : (putStates l s).cfg = s.cfg := by
  induction l generalizing s with
  | nil => rfl
  | cons x l ih => exact ih _

/-- The effect of BB.CLEAR, the BB.PUTs and BB.FLUSH. -/
def packState (l : List (Nat × Nat)) (s : State) : State :=
  drained (((putStates l (bbClear s)).hid.cnt + 7) / 8) (putStates l (bbClear s))

theorem packRun_eq (hcfg : s.cfg = Capacities.infinite) : packRun l s = .ok (packState l s) := by
  rw [packRun, putAll_eq (s := bbClear s) hcfg, ok_bind]
  exact bbFlush_ok (outCap_fits_of_infinite ((putStates_cfg l (bbClear s)).trans hcfg) _)

theorem SameWritten.putStates (h : SameWritten s t) : SameWritten (putStates l s) (putStates l t) := by
  induction l generalizing s t with
  | nil => exact h
  | cons x l ih => exact ih (h.putState x.1 x.2)

theorem Packed.putStates {l' : List (Nat × Nat)} (h : Packed l' s) (hfit : CodesFit l) :
    Packed (l' ++ l) (putStates l s) := by
  induction l generalizing l' s with
  | nil => rwa [List.append_nil]
  | cons x l ih =>
    obtain ⟨hw, hc⟩ := hfit x List.mem_cons_self
    rw [List.append_cons]
    exact ih (h.putState hw hc) fun y hy => hfit y (List.mem_cons_of_mem _ hy)

/-- From an empty OUT the bytes written are pack(L). -/
theorem packState_of_empty (hfit : CodesFit l) (hlen : s.outLen = 0) (hbuf : s.outBuf = []) :
    (packState l s).outBuf = loadBytes 0 (packBytes l) [] ∧
      (packState l s).outLen = (packWidth l + 7) / 8 := by
  have hempty : Packed [] (bbClear s) := by
    refine ⟨by simp [CodesFit], ⟨?_, ?_⟩, ?_⟩
    · rw [bbClear_outBuf, bbClear_outLen, hbuf, hlen]; rfl
    · exact (Nat.zero_shiftRight _).symm
    · rw [bbClear_outLen, hlen]; rfl
  have hpacked := hempty.putStates hfit
  rw [List.nil_append] at hpacked
  have hlen' : (packState l s).outLen = (packWidth l + 7) / 8 := by
    have := hpacked.width
    change (putStates l (bbClear s)).outLen + ((putStates l (bbClear s)).hid.cnt + 7) / 8 = _
    omega
  refine ⟨?_, hlen'⟩
  rw [packBytes, ← hlen']
  exact (hpacked.written.drained _).outBuf

/-- Whatever OUT held, from OUT_LEN = 0 on the bytes of the result are those of pack(L). -/
theorem read_packState (hfit : CodesFit l) (hlen : s.outLen = 0) :
    (packState l s).outLen = (packWidth l + 7) / 8 ∧
      ∀ k, k < (packWidth l + 7) / 8 → Memory.read (packState l s).outBuf k = (packBytes l)[k]? := by
  let e : State := { s with outBuf := [] }
  obtain ⟨hbuf, hlength⟩ := packState_of_empty (s := e) hfit hlen rfl
  have hsame : SameWritten (bbClear e) (bbClear s) := by
    refine ⟨⟨s.outBuf, rfl⟩, fun k hk => absurd hk ?_⟩
    change ¬k < s.outLen
    omega
  have hputs := hsame.putStates (l := l)
  have hpack : SameWritten (packState l e) (packState l s) := by
    obtain ⟨m, hm⟩ := hputs.rest
    have hcnt : (putStates l (bbClear s)).hid.cnt = (putStates l (bbClear e)).hid.cnt := by rw [hm]
    rw [packState, packState, hcnt]
    exact hputs.drained _
  have hout : (packState l s).outLen = (packState l e).outLen := by
    obtain ⟨m, hm⟩ := hpack.rest
    rw [hm]
  refine ⟨hout.trans hlength, fun k hk => ?_⟩
  rw [hpack.written k (hlength.symm ▸ hk), hbuf]
  have hread := read_loadBytes (i := 0) (packBytes l) [] (k := k) (by rwa [packBytes, leBytes_length])
  rwa [Nat.zero_add] at hread

/-! ### Reading -/

/-- IN holds the bytes of pack(L), with nothing read yet. -/
theorem Holds.of_read (hfit : CodesFit l) (hlen : s.inLen = (packBytes l).length)
    (hread : ∀ k, k < (packBytes l).length → Memory.read s.inBuf k = (packBytes l)[k]?)
    (hip : s.hid.ip = 0) (hacc : s.hid.acc = 0) (hcnt : s.hid.cnt = 0) : Holds l s := by
  have h := Holds.of_packBytes (s := { s with inBuf := loadBytes 0 (packBytes l) [] }) hfit rfl hlen hip hacc
    hcnt
  refine ⟨hfit, h.inside, h.acc, Eq.trans ?_ h.value, h.enough, h.padding⟩
  have hbytes : inBytes s 0 (packBytes l).length = packBytes l :=
    inBytes_of_read fun k hk => (Nat.zero_add k).symm ▸ hread k hk
  simp only [pending, hip, hlen, Nat.sub_zero, hbytes, inBytes_loadBytes]

/-- Reading the widths of a packed list gives its codes back, and leaves padding alone. -/
theorem Holds.getAll (h : Holds l s) (hcfg : s.cfg = Capacities.infinite) :
    ∃ t, getAll (l.map Prod.snd) s = .ok (l.map fun x => some x.1, t) ∧ Holds [] t ∧
      t.cfg = Capacities.infinite := by
  induction l generalizing s with
  | nil => exact ⟨s, rfl, h, hcfg⟩
  | cons x l ih =>
    obtain ⟨c, w⟩ := x
    obtain ⟨m, hget, hgot, hrest⟩ := h.bbGet_code (inCap_fits_of_infinite hcfg _)
    obtain ⟨t, hall, hend, hcfg'⟩ := ih hrest hcfg
    refine ⟨t, ?_, hend, hcfg'⟩
    rw [List.map_cons, Machine.getAll, hget, ok_bind, hall, ok_bind, hgot]
    rfl

end

/-- Settles O18: the bytes are those of `packBytes` by `read_packState`, and `Holds.getAll` reads them. -/
theorem packThenGetReturnsTheCodes : Obligations.PackThenGetReturnsTheCodes := by
  intro l s hfit hcfg hlen
  obtain ⟨hlength, hread⟩ := read_packState hfit hlen
  have hbytes : (packBytes l).length = (packWidth l + 7) / 8 := by rw [packBytes, leBytes_length]
  refine ⟨packState l s, packRun_eq hcfg, hlength, fun k hk => ?_, fun u hucfg hin hinLen hip hacc hcnt => ?_⟩
  · rw [hlength] at hk
    rw [hread k hk]
    exact getElem?_leBytes _ hk
  · have hholds : Holds l u := by
      refine .of_read hfit ?_ (fun k hk => ?_) hip hacc hcnt
      · rw [hinLen, hlength, hbytes]
      · rw [hin]
        exact hread k (hbytes ▸ hk)
    obtain ⟨v, hall, hend, hvcfg⟩ := hholds.getAll hucfg
    exact ⟨v, hall, fun w hw => hend.bbGet_none hw (inCap_fits_of_infinite hvcfg _)⟩

end Sys2Proof.Machine
end

section
/-! SUPPORT. ENC.SYM, ENC.FINAL and ENC.FLUSH as the instructions show them (`41_encoder.md` R122, R125,
R126). -/

namespace Sys2Proof.Machine

section
variable {s : State} {c : Nat}

theorem isFull_of_eq {cap : Cap} {n : Nat} (h : cap = .upTo n) : cap.isFull n = true :=
  h ▸ decide_eq_true rfl

/-- ENC.SYM on a miss with room in OUT and in the dictionary (`41_encoder.md` R122). -/
theorem encSym_learns (hip : s.hid.ip < s.inLen) (hin : s.cfg.inCap.fits s.inLen = true)
    (hk : s.hid.fdict.code? (s.hid.omega ++ [s.inValue s.hid.ip]) = none)
    (hc : s.hid.fdict.code? s.hid.omega = some c)
    (hroom : s.cfg.outCap.fits (s.outLen + (s.hid.cnt + s.hid.eWidth) / 8) = true)
    (hdict : s.cfg.dictCap.isFull s.hid.eNext = false) :
    encSym s = .ok (missed (s.inValue s.hid.ip) c s) := by
  rw [encSym_miss hip.ne (Cap.hasIndex_of_lt hin hip) (by rw [Hidden.hit, hk]; rfl)]
  obtain ⟨-, -, hlearn⟩ | ⟨hfull, -⟩ := encMiss_cases (s := symbolTaken s) (s.inValue s.hid.ip)
    (Cap.fits_mono hroom (Nat.le_add_right _ _)) hc
  · exact hlearn
  · rcases hfull with hout | hfull
    · exact absurd (hout.symm.trans hroom) Bool.false_ne_true
    · exact absurd (hdict.symm.trans hfull) Bool.false_ne_true

/-- ENC.SYM on a miss without room in OUT, or with the dictionary full (`41_encoder.md` R122, R124). -/
theorem encSym_overflows (hip : s.hid.ip < s.inLen) (hin : s.cfg.inCap.fits s.inLen = true)
    (hk : s.hid.fdict.code? (s.hid.omega ++ [s.inValue s.hid.ip]) = none)
    (hc : s.hid.fdict.code? s.hid.omega = some c) (hout : s.cfg.outCap.fits s.outLen = true)
    (hfull : s.cfg.outCap.fits (s.outLen + (s.hid.cnt + s.hid.eWidth) / 8) = false ∨
      s.cfg.dictCap.isFull s.hid.eNext = true) :
    encSym s = .error (.raise .capacityExceeded) := by
  rw [encSym_miss hip.ne (Cap.hasIndex_of_lt hin hip) (by rw [Hidden.hit, hk]; rfl)]
  obtain ⟨hroom, hdict, -⟩ | ⟨-, hraise⟩ := encMiss_cases (s := symbolTaken s) (s.inValue s.hid.ip) hout hc
  · rcases hfull with hout | hfull
    · exact absurd (hout.symm.trans hroom) Bool.false_ne_true
    · exact absurd (hdict.symm.trans hfull) Bool.false_ne_true
  · exact hraise

/-- ENC.FINAL with a match and room in OUT (`41_encoder.md` R125). -/
theorem encFinal_emits (homega : s.hid.omega ≠ []) (hc : s.hid.fdict.code? s.hid.omega = some c)
    (hroom : s.cfg.outCap.fits (s.outLen + (s.hid.cnt + s.hid.eWidth) / 8) = true) :
    encFinal s = .ok { putState c s.hid.eWidth s with phase := .encFlush } := by
  obtain ⟨-, h⟩ | ⟨hfull, -⟩ := encFinal_cases homega (Cap.fits_mono hroom (Nat.le_add_right _ _)) hc
  · exact h
  · exact absurd (hfull.symm.trans hroom) Bool.false_ne_true

/-- ENC.FINAL with a match and no room in OUT (`41_encoder.md` R125). -/
theorem encFinal_overflows (homega : s.hid.omega ≠ []) (hc : s.hid.fdict.code? s.hid.omega = some c)
    (hout : s.cfg.outCap.fits s.outLen = true)
    (hfull : s.cfg.outCap.fits (s.outLen + (s.hid.cnt + s.hid.eWidth) / 8) = false) :
    encFinal s = .error (.raise .capacityExceeded) := by
  obtain ⟨hroom, -⟩ | ⟨-, h⟩ := encFinal_cases homega hout hc
  · exact absurd (hfull.symm.trans hroom) Bool.false_ne_true
  · exact h

/-- ENC.FLUSH with room in OUT (`41_encoder.md` R126). -/
theorem encFlush_ok (hroom : s.cfg.outCap.fits (s.outLen + (s.hid.cnt + 7) / 8) = true) :
    encFlush s = .ok { drained ((s.hid.cnt + 7) / 8) s with phase := .doneOk } := by
  rw [encFlush, bbFlush_ok hroom, ok_bind]

/-- ENC.FLUSH without room in OUT (`41_encoder.md` R126). -/
theorem encFlush_overflows (hout : s.cfg.outCap.fits s.outLen = true)
    (hfull : s.cfg.outCap.fits (s.outLen + (s.hid.cnt + 7) / 8) = false) :
    encFlush s = .error (.raise .capacityExceeded) := by
  rw [encFlush, bbFlush_full hout hfull, error_bind]

end

/-- Settles O20: `encSym_end` and `encSym_hit`. -/
theorem encSymExtendsTheMatch : Obligations.EncSymExtendsTheMatch := by
  intro s
  refine ⟨fun hend => ?_, fun hip hin hhit => ?_⟩
  · rw [exec_micro rfl, microRun, encSym_end hend, conclude_ok]
  · rw [exec_micro rfl, microRun, encSym_hit hip.ne (Cap.hasIndex_of_lt hin hip) hhit, conclude_ok]
    rfl

/-- Settles O21: `encSym_learns`, and the lookups in a dictionary with one entry more. -/
theorem encSymEmitsAndLearns : Obligations.EncSymEmitsAndLearns := by
  intro s c hip hin hk hc hroom hdict
  refine ⟨putState c s.hid.eWidth s, missed (s.inValue s.hid.ip) c s, ?_, ?_, rfl, fun q => ?_⟩
  · rw [exec_micro rfl, microRun, bbPut_ok hroom, conclude_ok]
  · rw [exec_micro rfl, microRun, encSym_learns hip hin hk hc hroom hdict, conclude_ok]
  · split
    · next hq => rw [hq]; exact code?_cons_same _ _ _
    · next hq => exact code?_cons_other _ _ hq

/-- Settles O22: `encSym_overflows`. -/
theorem encSymCapacity : Obligations.EncSymCapacity := fun _ _ hip hin hk hc hout hfull =>
  exec_endedBy rfl (by decide) (encSym_overflows hip hin hk hc hout (hfull.imp_right isFull_of_eq))

/-- Settles O23: `encFinal_empty`, `encFinal_emits` and `encFinal_overflows`. -/
theorem encFinalEmitsTheLastMatch : Obligations.EncFinalEmitsTheLastMatch := by
  intro s
  refine ⟨fun hempty => ?_, fun c homega hc hroom => ⟨putState c s.hid.eWidth s, ?_, ?_⟩,
    fun c homega hc hout hfull =>
      exec_endedBy rfl (by decide) (encFinal_overflows homega hc hout hfull)⟩
  · rw [exec_micro rfl, microRun, encFinal_empty hempty, conclude_ok]
  · rw [exec_micro rfl, microRun, bbPut_ok hroom, conclude_ok]
  · rw [exec_micro rfl, microRun, encFinal_emits homega hc hroom, conclude_ok]

/-- Settles O24: `encFlush_ok` and `encFlush_overflows`. -/
theorem encFlushEndsTheCommand : Obligations.EncFlushEndsTheCommand := by
  intro s
  refine ⟨fun hroom => ⟨drained ((s.hid.cnt + 7) / 8) s, _, ?_, ?_, rfl, (status_eq_doneOk_iff _).mpr rfl⟩,
    fun hout hfull => exec_endedBy rfl (by decide) (encFlush_overflows hout hfull)⟩
  · rw [exec_bbFlush, bbFlush_ok hroom, conclude_ok]
  · rw [exec_micro rfl, microRun, encFlush_ok hroom, conclude_ok]

end Sys2Proof.Machine
end

section
/-! SUPPORT. The classes of code and DEC.NEXT as the instructions show them (`42_decoder.md` R142 to R153). -/

namespace Sys2Proof.Machine

/-! ### Processing an entry -/

section
variable {s u : State} {c m : Nat} {k : Byte} {q entry : ByteSeq}

/-- An entry with room in the dictionary (`42_decoder.md` R145, R152). -/
theorem processEntry_ok (hw : s.hid.dNext < 2 ^ s.hid.dWidth)
    (hdict : s.cfg.dictCap.isFull s.hid.dNext = false) :
    processEntry (k :: q) s = .ok (entryProcessed (k :: q) k s) := by
  obtain ⟨-, h⟩ | ⟨hfull, -⟩ := processEntry_cases k q hw
  · exact h
  · exact absurd (hdict.symm.trans hfull) Bool.false_ne_true

/-- An insertion that is due with the dictionary full, whatever the entry (`42_decoder.md` R152). -/
theorem processEntry_full (hw : s.hid.dNext < 2 ^ s.hid.dWidth)
    (hfull : s.cfg.dictCap.isFull s.hid.dNext = true) :
    processEntry entry s = .error (.raise .capacityExceeded) := by
  unfold processEntry insertEntry
  rw [if_pos hw, hfull, raiseIf_true, error_bind, error_bind]

/-- Where d_next has reached 2^d_width nothing is inserted and the width grows (`42_decoder.md` R152, R153). -/
theorem processEntry_wide (hw : 2 ^ s.hid.dWidth ≤ s.hid.dNext) :
    processEntry entry s =
      .ok { s with
        hid := { s.hid with res := s.hid.res ++ entry, dWidth := s.hid.dWidth + 1, s := entry }
        phase := .decNext } := by
  unfold processEntry insertEntry
  rw [if_neg (Nat.not_lt.mpr hw), ok_bind, grownDecWidth, if_pos hw]

/-! ### The classes as instructions -/

/-- Outside DEC.FIRST a legal code is the processing of its entry (`42_decoder.md` R148, R149). -/
theorem microRun_later {i : Instr} (hphase : s.phase ≠ .decFirst)
    (hi : (∃ w c, i = .literal w c ∧ Reverse.seq? s.hid.rdict c.toNat = some (k :: q)) ∨
      (∃ w c, i = .known w c ∧ Reverse.seq? s.hid.rdict c = some (k :: q)) ∨
      (∃ w c r, i = .selfRef w c ∧ s.hid.s = k :: r ∧ q = r ++ [k])) :
    isCommand i = false ∧ microRun i s = processEntry (k :: q) s := by
  have hlater : s.atFirstCode = false := decide_eq_false hphase
  obtain ⟨w, c, rfl, hq⟩ | ⟨w, c, rfl, hq⟩ | ⟨w, c, r, rfl, hs, rfl⟩ := hi
  · exact ⟨rfl, by rw [microRun, hlater]; exact literalCode_later hq⟩
  · exact ⟨rfl, by rw [microRun, hlater]; exact knownCode_later hq⟩
  · exact ⟨rfl, by rw [microRun, hlater]; exact selfCode_later hs⟩

/-- Settles O30: `microRun_later`, and the two ways an entry is processed. -/
theorem laterCodesAreProcessed : Obligations.LaterCodesAreProcessed := by
  intro i s k q hphase hi
  obtain ⟨hmicro, hrun⟩ := microRun_later hphase hi
  rw [exec_micro hmicro, hrun]
  refine ⟨fun hw hdict => ?_, fun hw => ?_⟩
  · rw [processEntry_ok hw hdict, conclude_ok]
    rfl
  · rw [processEntry_wide hw, conclude_ok]

/-- Settles O33: `microRun_later` and `processEntry_full`. -/
theorem laterCodesWithDictionaryFull : Obligations.LaterCodesWithDictionaryFull := by
  intro i s k q hphase hi hw hcap
  obtain ⟨p, hmicro, hrun⟩ : ∃ p, isCommand i = false ∧ microRun i s = processEntry p s := by
    rcases hi with hlit | hknown | ⟨w, c, hself, hs⟩
    · exact ⟨k :: q, microRun_later hphase (.inl hlit)⟩
    · exact ⟨k :: q, microRun_later hphase (.inr (.inl hknown))⟩
    · exact ⟨k :: (q ++ [k]), microRun_later hphase (.inr (.inr ⟨w, c, q, hself, hs, rfl⟩))⟩
  exact exec_endedBy hmicro (by decide) (hrun.trans (processEntry_full hw (isFull_of_eq hcap)))

/-- Settles O31: the arms for the first code, which phase tells. -/
theorem firstCodes : Obligations.FirstCodes := by
  intro s hphase
  have hfirst : s.atFirstCode = true := decide_eq_true hphase
  refine ⟨fun w c q hq => ?_, fun w c => ?_, fun w c => ?_, fun w c => ?_⟩
  · rw [exec_micro rfl, microRun, hfirst, classCode, literalCode_first hq, conclude_ok]
    rfl
  · exact exec_endedBy rfl (by decide) (by rw [microRun, hfirst]; rfl)
  · exact exec_endedBy rfl (by decide) (by rw [microRun, hfirst]; rfl)
  · exact exec_endedBy rfl (by decide) rfl

/-- Settles O32: the class INVALID raises whatever the state. -/
theorem invalidCodeIsCorruption : Obligations.InvalidCodeIsCorruption :=
  fun _ _ _ => exec_endedBy rfl (by decide) rfl

/-! ### DEC.NEXT -/

/-- With a whole code left, DEC.FIRST and DEC.NEXT process it by its class (`42_decoder.md` R142, R145). -/
theorem readCode_code {first : Bool} (hget : bbGet s.hid.dWidth s = .ok u) (hgot : u.hid.got = some c) :
    readCode first s = classCode (classOf first u.hid.dNext c) first c u := by
  rw [readCode_eq hget, hgot]

/-- At the end of the stream they hand over (`42_decoder.md` R142, R146). -/
theorem readCode_end {first : Bool} (hget : bbGet s.hid.dWidth s = .ok u) (hgot : u.hid.got = none) :
    readCode first s = .ok { u with phase := .decFinish } := by
  rw [readCode_eq hget, hgot]

end

/-- Settles O27: `bbGet_none` and `readCode_end`. -/
theorem endOfStreamHandsOver : Obligations.EndOfStreamHandsOver := by
  intro i s hi hin hacc hip hend
  have hget := bbGet_none hin hacc hip hend
  rcases hi with rfl | rfl <;>
    rw [exec_micro rfl, microRun, readCode_end hget rfl, conclude_ok]

/-- A later code that is legal is the processing of its entry: of one the dictionary holds, or of the previous
sequence and its first byte (`42_decoder.md` R148, R149). -/
theorem classCode_entry {s : State} {c : Nat} {k : Byte} {q : ByteSeq} (hn : 256 ≤ s.hid.dNext)
    (hentry : c < s.hid.dNext ∧ Reverse.seq? s.hid.rdict c = some (k :: q) ∨
      c = s.hid.dNext ∧ ∃ r, s.hid.s = k :: r ∧ q = r ++ [k]) :
    classCode (classOf false s.hid.dNext c) false c s = processEntry (k :: q) s := by
  obtain ⟨hlt, hq⟩ | ⟨heq, r, hs, rfl⟩ := hentry
  · exact classCode_of_lt hlt hq
  · exact classCode_of_eq heq (heq ▸ hn) hs

/-- A later code above d_next is INVALID (`42_decoder.md` R150). -/
theorem classCode_above {s : State} {c : Nat} (hn : 256 ≤ s.hid.dNext) (hc : s.hid.dNext < c) :
    classCode (classOf false s.hid.dNext c) false c s = .error (.raise .decodeCorruption) := by
  rw [classOf_invalid (hn.trans hc.le) hc]
  rfl

/-- Settles O28: above d_next the class is INVALID; at or below it there is an entry, whose insertion
raises. -/
theorem decNextErrors : Obligations.DecNextErrors := by
  intro s c hin hacc hwhole hc hn
  have hread := readCode_code (first := false) (bbGet_code hin hacc hwhole) (congrArg some hc.symm)
  refine ⟨fun habove => exec_endedBy rfl (by decide) (hread.trans (classCode_above hn habove)),
    fun hle hw hcap hseq hs => exec_endedBy rfl (by decide) (hread.trans ?_)⟩
  have hfull := isFull_of_eq hcap
  rcases Nat.lt_or_eq_of_le hle with hlt | heq
  · obtain ⟨q, hq⟩ := Option.isSome_iff_exists.mp (hseq hlt)
    exact (classCode_of_lt (s := codeTaken _ _ s) hlt hq).trans (processEntry_full hw hfull)
  · obtain ⟨k, q, hkq⟩ := List.exists_cons_of_ne_nil hs
    exact (classCode_of_eq (s := codeTaken _ _ s) heq (heq ▸ hn) hkq).trans (processEntry_full hw hfull)

/-- Settles O29: the class gives the entry, `processEntry_ok` its processing, and the lookups are those of a
dictionary with one entry more. -/
theorem decNextProcessesACode : Obligations.DecNextProcessesACode := by
  intro s c k q hin hacc hwhole hc hn hw hdict hentry
  have hread := readCode_code (first := false) (bbGet_code hin hacc hwhole) (congrArg some hc.symm)
  have hrun : decNext s =
      .ok (entryProcessed (k :: q) k (codeTaken s.hid.dWidth ((s.hid.dWidth - s.hid.cnt + 7) / 8) s)) := by
    refine hread.trans (Eq.trans ?_ (processEntry_ok hw hdict))
    exact classCode_entry hn hentry
  refine ⟨_, (exec_micro rfl s).trans (congrArg (conclude s) hrun), ?_, fun d => ?_⟩
  · rw [hc, ← Nat.shiftRight_eq_div_pow]
    rfl
  · split
    · next hd => rw [hd]; exact seq?_cons_same _ _ _
    · next hd => exact seq?_cons_other _ _ hd

end Sys2Proof.Machine
end

section
/-! SUPPORT. What a step is, for each thing that can happen next (`10_state.md` R28; log 6): the CORE's own step, a
command, or another move of the host's. -/

namespace Sys2Proof.Machine

section
variable {s t : State} {rest : List HostMove} {i : Instr}

/-! ### The CORE's own step -/

theorem coreStep_micro (h : microOp s.phase = some i) : coreStep s = exec i s := by
  rw [coreStep_eq, h]

theorem coreStep_rest (h : microOp s.phase = none) : coreStep s = .next s := by
  rw [coreStep_eq, h]

/-- With no move, or a pause, the CORE makes its step (`10_state.md` R28). -/
theorem step_free (h : s.host = [] ∧ rest = [] ∨ s.host = .pause :: rest) :
    step s = coreStep { s with host := rest } := by
  rcases h with ⟨hhost, rfl⟩ | hhost
  · have hs : { s with host := [] } = s := by rw [← hhost]
    rw [step_alone hhost, hs]
  · rw [coreStep_eq, step, fetch, hhost]
    simp only [coreAct]
    cases microOp s.phase <;> rfl

/-- A wait stays until DONE = 1, and the CORE steps meanwhile (`30_encoding.md` R94). -/
theorem step_wait (h : s.host = .wait :: rest) :
    step s = if s.phase.done then .next { s with host := rest } else coreStep s := by
  rw [coreStep_eq, step, fetch, h]
  cases s.phase.done with
  | true => rfl
  | false =>
    simp only [coreAct]
    cases microOp s.phase <;> rfl

/-! ### Commands and the host's other moves -/

/-- A value of 8 bits written to CMD runs the instruction it decodes to (`43_commands.md` R170). -/
theorem step_command {v : Nat} (hv : v < 256) (h : s.host = .write .cmd v :: rest) :
    step s = exec (decodeCmd (BitVec.ofNat 8 v)) { s with host := rest } := by
  rw [step, fetch, h]
  simp only [if_pos hv]

/-- A wider value for CMD is a move the model refuses (log 9). -/
theorem step_write_wide {v : Nat} (hv : ¬v < 256) (h : s.host = .write .cmd v :: rest) :
    step s = hostWrite .cmd v { s with host := rest } := by
  rw [step, fetch, h]
  simp only [if_neg hv]
  rfl

theorem step_read {r : Reg} (h : s.host = .read r :: rest) :
    step s = .next (hostRead r { s with host := rest }) := by
  rw [step, fetch, h]
  rfl

theorem step_readOut {a : Nat} (h : s.host = .readOut a :: rest) :
    step s = hostReadOut a { s with host := rest } := by
  rw [step, fetch, h]
  rfl

theorem step_reset (h : s.host = .reset :: rest) : step s = .next (resetCore { s with host := rest }) := by
  rw [step, fetch, h]
  rfl

/-- Everything a step can be. -/
theorem step_cases (s : State) :
    (∃ l, step s = coreStep { s with host := l }) ∨
      (∃ v l, s.host = .write .cmd v :: l ∧ v < 256 ∧
        step s = exec (decodeCmd (BitVec.ofNat 8 v)) { s with host := l }) ∨
      ∃ m l, s.host = m :: l ∧ (∀ v, m = .write .cmd v → ¬v < 256) ∧
        step s = hostMove m { s with host := l } := by
  match h : s.host with
  | [] => exact .inl ⟨[], step_free (.inl ⟨h, rfl⟩)⟩
  | .pause :: l => exact .inl ⟨l, step_free (.inr h)⟩
  | .wait :: l =>
    cases hd : s.phase.done with
    | true => exact .inr (.inr ⟨.wait, l, rfl, nofun, by rw [step_wait h, hd]; rfl⟩)
    | false => exact .inl ⟨s.host, by rw [step_wait h, hd]; rfl⟩
  | .write r v :: l =>
    by_cases hr : r = .cmd
    · subst hr
      by_cases hv : v < 256
      · exact .inr (.inl ⟨v, l, rfl, hv, step_command hv h⟩)
      · exact .inr (.inr ⟨_, l, rfl, fun _ hm => by cases hm; exact hv, step_write_wide hv h⟩)
    · exact .inr (.inr ⟨_, l, rfl, fun _ hm => by cases hm; exact absurd rfl hr, step_write hr h⟩)
  | .load a b :: l => exact .inr (.inr ⟨_, l, rfl, nofun, step_load h⟩)
  | .read r :: l => exact .inr (.inr ⟨_, l, rfl, nofun, step_read h⟩)
  | .readOut a :: l => exact .inr (.inr ⟨_, l, rfl, nofun, step_readOut h⟩)
  | .reset :: l => exact .inr (.inr ⟨_, l, rfl, nofun, step_reset h⟩)

/-! ### The code a step runs -/

/-- How a run ends does not depend on the hidden registers it began with: an error sets them anew
(`60_exceptions.md` R208). -/
theorem conclude_hid (s : State) (h : Hidden) (x : Run State) :
    conclude { s with hid := h } x = conclude s x := by
  match x with
  | .ok _ => rfl
  | .error (.raise _) => rfl
  | .error (.fault _) => rfl

/-- The instruction of a code does what the code's class asks for (`30_encoding.md` R88). -/
theorem exec_decodeCode (w : Nat) (first : Bool) (dNext c : Nat) (s : State) :
    exec (decodeCode w first dNext c) s =
      conclude s (classCode (classOf first dNext c) s.atFirstCode c s) := by
  unfold decodeCode
  cases hk : classOf first dNext c with
  | literal =>
    have hc : c < 256 := by
      by_contra hc
      unfold classOf at hk
      rw [if_neg hc] at hk
      split_ifs at hk
    have hbyte : (lowByte c).toNat = c := (lowByte_toNat c).trans (Nat.mod_eq_of_lt hc)
    rw [exec_micro rfl, microRun, hbyte]
  | known | selfRef | invalid => rfl

theorem decode_code_eq_ok {w dNext : Nat} {first : Bool} {bytes : List Byte}
    (h : decode (.code w first dNext) bytes = .ok i) :
    i = decodeCode w first dNext (leValue bytes % 2 ^ w) := by
  rw [decode] at h
  split at h
  · cases h
  · split at h
    · cases h
    · cases h
      rw [codeAt_zero]

end

/-- Settles O35: `step_command`; a placed command is the host's next move. -/
theorem stepRunsTheCommand : Obligations.StepRunsTheCommand := by
  refine ⟨fun s v rest h => ⟨rfl, ?_⟩, fun s v => ?_⟩
  · rw [step_command v.isLt h, BitVec.ofNat_toNat, BitVec.setWidth_eq]
  · have hlow : lowbits v.toNat 8 = v.toNat := Nat.mod_eq_of_lt v.isLt
    have hhost : (s.withFetchWord 8 v.toNat).host = .write .cmd (lowbits v.toNat 8) :: s.host := rfl
    rw [hlow] at hhost
    rw [step_command v.isLt hhost, BitVec.ofNat_toNat, BitVec.setWidth_eq]
    rfl

/-- Settles O36: `step_free`, and the CORE's own step by phase. -/
theorem stepRunsTheMicroOperation : Obligations.StepRunsTheMicroOperation := by
  intro s rest h
  rw [step_free h]
  refine ⟨fun hrest => coreStep_rest ?_, ?_⟩
  · rcases hrest with hp | hp | hp <;> simp only [hp, microOp]
  · refine ⟨?_, ?_, ?_, ?_, ?_, ?_, ?_, ?_⟩ <;>
      exact fun hp => coreStep_micro (by simp only [hp, microOp])

/-- Settles O37: BB.GET reads the code the bytes hold, and its instruction is what DEC.FIRST or DEC.NEXT goes on
with. -/
theorem stepRunsTheDecodedCode : Obligations.StepRunsTheDecodedCode := by
  intro s bytes i hhost hphase hin hacc hwhole hvalue hdecode
  have hget : bbGet s.hid.dWidth s = .ok (codeTaken s.hid.dWidth ((s.hid.dWidth - s.hid.cnt + 7) / 8) s) :=
    bbGet_code hin hacc hwhole
  generalize hu : codeTaken s.hid.dWidth ((s.hid.dWidth - s.hid.cnt + 7) / 8) s = u at hget
  have hgot : u.hid.got = some (leValue bytes % 2 ^ s.hid.dWidth) := by
    rw [hvalue, ← hu]
    rfl
  have hphaseU : u.phase = s.phase := hu ▸ rfl
  have hnext : u.hid.dNext = s.hid.dNext := hu ▸ rfl
  have hstep : coreStep s = conclude s (readCode (decide (s.phase = .decFirst)) s) := by
    rcases hphase with hp | hp <;> simp only [coreStep, hp] <;> rfl
  refine ⟨u, ?_, hphaseU, ?_⟩
  · rw [exec_micro rfl, microRun, hget, conclude_ok]
  · rw [step_alone hhost, hstep, readCode_code hget hgot, decode_code_eq_ok hdecode, exec_decodeCode,
      State.atFirstCode, hphaseU, hnext, ← hu]
    exact (conclude_hid s _ _).symm

/-- Settles O38: `step_wait`, and the CORE's own step until DONE = 1. -/
theorem waitEndsAtDone : Obligations.WaitEndsAtDone := by
  intro s rest h
  rw [status_getLsbD_one, step_wait h]
  refine ⟨fun hdone => if_pos hdone, fun hdone hidle => ?_, fun hdone i hi => ?_⟩
  · rw [hdone, if_neg Bool.false_ne_true, coreStep_rest (by rw [hidle]; rfl)]
  · rw [hdone, if_neg Bool.false_ne_true, coreStep_micro hi]

/-! ### The host's accesses -/

/-- A register the host sets is not written while BUSY = 1 (`70_reset_and_hazards.md` R239, log 7). -/
theorem hostSet_busy {width : Cap} {v : Nat} {s : State} (set : State → State)
    (hv : width.holdsValue v = true) (hbusy : s.phase.busy = true) :
    hostSet width v set s = .refused .busyWrite := by
  rw [hostSet, hv, hbusy]
  rfl

/-- Settles O39: `step_write` and the register's own arm, `step_load` for IN. -/
theorem hostWritesRegisters : Obligations.HostWritesRegisters := by
  intro s v a b rest
  refine ⟨?ignored, fun hbusy => ⟨fun hv h => ?_, ?_, fun ha h => ?_⟩⟩
  case ignored =>
    rintro (h | h | h) <;> exact step_write (by decide) h
  · rw [step_write (by decide) h, hostWrite]
    exact hostSet_busy (s := { s with host := rest }) _ hv hbusy
  · rintro hv (h | h) <;> rw [step_write (by decide) h, hostWrite] <;>
      exact hostSet_busy (s := { s with host := rest }) _ hv hbusy
  · rw [step_load h, hostLoad, ha, hbusy]
    rfl

/-- Settles O40: the host's move by itself, `hostReadOut_rest` while BUSY = 0. -/
theorem hostAccessesBuffers : Obligations.HostAccessesBuffers := by
  refine ⟨fun s a b rest h hrest ha => ?load, fun s a b rest h hdone hlt ha hread => ?result,
    fun s a rest h ha => ?readOut, fun s a rest h hrest ha => ?twice, fun s r rest h => ?read⟩
  case load =>
    exact ⟨_, (step_load h).trans (hostLoad_ok b ha hrest), Memory.read_write_same _ _ _,
      fun _ hne => Memory.read_write_other _ _ hne⟩
  case result =>
    have hvalue : { s with host := rest }.outValue a = b := outValue_result hdone hlt hread
    rw [step_readOut h, hostReadOut_rest (s := { s with host := rest }) ha (by rw [hdone]; rfl), hvalue]
  case readOut =>
    rw [step_readOut h]
    cases hb : s.phase.busy with
    | true => exact ⟨_, _, hostReadOut_busy ha hb, nofun⟩
    | false => exact ⟨_, _, hostReadOut_rest ha hb, fun _ => rfl⟩
  case twice =>
    exact ⟨_, _, s.outValue a, (step_readOut h).trans (hostReadOut_rest ha hrest),
      (step_readOut rfl).trans (hostReadOut_rest ha hrest), rfl⟩
  case read =>
    rw [step_read h, hostRead]
    split
    · next hbusy =>
      refine ⟨_, _, rfl, fun hrest => absurd hbusy ?_⟩
      rcases hrest with hrest | rfl | rfl <;> simp_all [Reg.alwaysReadable]
    · exact ⟨_, _, rfl, fun _ => rfl⟩

/-- Settles O42: the registers of `State.resetOf`, which a reset event leaves but for the host's own fields. -/
theorem resetValues : Obligations.ResetValues := by
  have hreg (cfg : Capacities) (r : Reg) : (State.resetOf cfg).reg r = 0 := by
    cases r with
    | status => exact congrArg BitVec.toNat ((status_eq_idle_iff (State.resetOf cfg)).mpr rfl)
    | _ => rfl
  refine ⟨fun cfg r => ⟨hreg cfg r, rfl, rfl⟩, fun s rest h => ⟨_, step_reset h, fun r => ?_, rfl, rfl, rfl,
    rfl, rfl, rfl⟩⟩
  exact (by cases r <;> rfl : _ = (State.resetOf s.cfg).reg r).trans (hreg _ r)

end Sys2Proof.Machine
end

section
/-! SUPPORT. Frames over all instructions (`10_state.md` R20): what a command, a micro-operation of each unit and
an error leave as it was, and how phase moves (R28). -/

namespace Sys2Proof.Machine

section
variable {s t : State} {i : Instr}

/-! ### Commands -/

/-- A command acts on ERR, OUT_LEN, phase and OUT alone (`43_commands.md` R171, R172, R173, R175). -/
theorem commandAct_frame (v : Byte) (s : State) :
    commandAct v s =
      { s with
        err := (commandAct v s).err
        outLen := (commandAct v s).outLen
        phase := (commandAct v s).phase
        outBuf := (commandAct v s).outBuf
        outEra := (commandAct v s).outEra } := by
  unfold commandAct
  split_ifs <;> rfl

theorem commandAct_phase (v : Byte) (s : State) :
    (commandAct v s).phase = s.phase ∨ (commandAct v s).phase ∈ [.encInit, .decInit, .doneErr] := by
  unfold commandAct
  split_ifs <;> simp

/-! ### The units -/

/-- The micro-operations of ENC change its registers, the bit buffer, OUT, OUT_LEN and phase (`10_state.md`
R31). -/
theorem microRun_encoder (hi : isEncoder i = true) (h : microRun i s = .ok t) :
    t = { s with
        hid := s.hid.withEncoder t.hid
        outBuf := t.outBuf
        outLen := t.outLen
        phase := t.phase } ∧
      t.phase ∈ [.encSym, .encFinal, .encFlush, .doneOk] ∧
      (i ≠ .encInit → s.hid.eWidth ≤ t.hid.eWidth ∧ t.hid.eWidth ≤ s.hid.eWidth + 1) := by
  cases i with
  | encInit =>
    have hf := encInit_frame h
    exact ⟨by rw [hf]; rfl, by rw [hf]; simp, fun hne => absurd rfl hne⟩
  | encSym =>
    obtain ⟨hf, hphase, hwidth⟩ := encSym_frame h
    exact ⟨hf, by rcases hphase with hp | hp <;> simp [hp], fun _ => hwidth⟩
  | encFinal =>
    have hf := encFinal_frame h
    exact ⟨by rw [hf]; rfl, by rw [hf]; simp, fun _ => by rw [hf]; exact ⟨Nat.le_refl _, Nat.le_succ _⟩⟩
  | encFlush =>
    have hf := encFlush_frame h
    exact ⟨by rw [hf]; rfl, by rw [hf]; simp, fun _ => by rw [hf]; exact ⟨Nat.le_refl _, Nat.le_succ _⟩⟩
  | _ => cases hi

/-- The micro-operations of DEC and the classes of code change its registers, the bit buffer, OUT, OUT_LEN and
phase (`10_state.md` R34). -/
theorem microRun_decoder (hi : isDecoder i = true) (h : microRun i s = .ok t) :
    t = { s with
        hid := s.hid.withDecoder t.hid
        outBuf := t.outBuf
        outLen := t.outLen
        phase := t.phase } ∧
      t.phase ∈ [.decFirst, .decNext, .decFinish, .doneOk] ∧
      (i ≠ .decInit → s.hid.dWidth ≤ t.hid.dWidth ∧ t.hid.dWidth ≤ s.hid.dWidth + 1) := by
  cases i with
  | decInit =>
    have hf := decInit_frame h
    exact ⟨by rw [hf]; rfl, by rw [hf]; simp, fun hne => absurd rfl hne⟩
  | decFirst | decNext =>
    obtain ⟨hf, hphase, hwidth⟩ := readCode_frame h
    exact ⟨by rw [hf]; rfl, by rcases hphase with hp | hp <;> simp [hp], fun _ => hwidth⟩
  | decFinish =>
    have hf := decFinish_frame h
    exact ⟨by rw [hf]; rfl, by rw [hf]; simp, fun _ => by rw [hf]; exact ⟨Nat.le_refl _, Nat.le_succ _⟩⟩
  | literal | known | selfRef | invalid =>
    rw [microRun] at h
    obtain ⟨hf, hwidth⟩ := classCode_frame h
    exact ⟨by rw [hf]; rfl, by rw [hf]; simp, fun _ => hwidth⟩
  | _ => cases hi

/-- The bit buffer's own micro-operations change its registers, OUT and OUT_LEN (`10_state.md` R30). -/
theorem microRun_bitBuffer (hc : isCommand i = false) (he : isEncoder i = false) (hd : isDecoder i = false)
    (h : microRun i s = .ok t) :
    t = { s with
      hid := { s.hid with acc := t.hid.acc, cnt := t.hid.cnt, ip := t.hid.ip, got := t.hid.got }
      outBuf := t.outBuf
      outLen := t.outLen } := by
  cases i with
  | bbClear => cases h; rfl
  | bbPut => rw [bbPut_frame h]
  | bbFlush => rw [bbFlush_frame h]
  | bbGet => rw [bbGet_frame h]
  | nop | encode | decode | reserved0303 | reserved0407 | reserved080F | reserved101F | reserved203F
  | reserved407F | reserved80FF => cases hc
  | encInit | encSym | encFinal | encFlush => cases he
  | decInit | decFirst | decNext | decFinish | literal | known | selfRef | invalid => cases hd

/-- A run to its end changes hidden registers, OUT, OUT_LEN and phase, and does not lead to DONE_ERR. -/
theorem microRun_frame (hc : isCommand i = false) (h : microRun i s = .ok t) :
    t = { s with hid := t.hid, outBuf := t.outBuf, outLen := t.outLen, phase := t.phase } ∧
      (t.phase = s.phase ∨ t.phase ≠ .doneErr) := by
  have hphase {l : List Phase} (hl : .doneErr ∉ l) (hp : t.phase ∈ l) : t.phase ≠ .doneErr :=
    fun he => hl (he ▸ hp)
  cases he : isEncoder i with
  | true =>
    obtain ⟨hf, hp, -⟩ := microRun_encoder he h
    exact ⟨by rw [hf], .inr (hphase (by decide) hp)⟩
  | false =>
    cases hd : isDecoder i with
    | true =>
      obtain ⟨hf, hp, -⟩ := microRun_decoder hd h
      exact ⟨by rw [hf], .inr (hphase (by decide) hp)⟩
    | false =>
      have hf := microRun_bitBuffer hc he hd h
      exact ⟨by rw [hf], .inl (by rw [hf])⟩

/-- Which error a run can raise (`60_exceptions.md` R210). -/
theorem microRun_raise {e : ErrCode} (h : microRun i s = .error (.raise e)) :
    (isDecoder i = false ∧ e = .capacityExceeded) ∨
      (isDecoder i = true ∧
        e ∈ [.decodeCorruption, .truncatedStream, .sizeMismatch, .capacityExceeded]) := by
  have hcap {x : Stop} (hx : x = .raise .capacityExceeded ∨ ∃ f, x = .fault f) (he : x = .raise e) :
      e = .capacityExceeded := by
    subst he
    rcases hx with hx | ⟨f, hx⟩ <;> cases hx
    rfl
  have hcode (hx : Stop.raise e = .raise .decodeCorruption ∨ Stop.raise e = .raise .capacityExceeded ∨
      ∃ f, Stop.raise e = .fault f) :
      e ∈ [.decodeCorruption, .truncatedStream, .sizeMismatch, .capacityExceeded] := by
    rcases hx with hx | hx | ⟨f, hx⟩ <;> cases hx <;> simp
  cases i with
  | bbPut => exact .inl ⟨rfl, hcap ((bbPut_stop h).imp_right fun hx => ⟨_, hx⟩) rfl⟩
  | bbFlush => exact .inl ⟨rfl, hcap ((bbFlush_stop h).imp_right fun hx => ⟨_, hx⟩) rfl⟩
  | bbGet => cases bbGet_stop h
  | encInit => exact .inl ⟨rfl, hcap (.inl (encInit_stop h)) rfl⟩
  | encSym => exact .inl ⟨rfl, hcap (encSym_stop h) rfl⟩
  | encFinal => exact .inl ⟨rfl, hcap (encFinal_stop h) rfl⟩
  | encFlush => exact .inl ⟨rfl, hcap (encFlush_stop h) rfl⟩
  | decInit => exact .inr ⟨rfl, hcode (.inr (.inl (decInit_stop h)))⟩
  | decFirst | decNext => exact .inr ⟨rfl, hcode (readCode_stop h)⟩
  | literal | known | selfRef | invalid =>
    rw [microRun] at h
    exact .inr ⟨rfl, hcode (classCode_stop h)⟩
  | decFinish =>
    refine .inr ⟨rfl, ?_⟩
    rcases decFinish_stop h with hx | hx | ⟨f, hx⟩ <;> cases hx <;> simp
  | _ => cases h

/-! ### Instructions -/

/-- An instruction that does not end in DONE_ERR is a command or has run to its end. -/
theorem microRun_of_exec (hc : isCommand i = false) (h : exec i s = .next t) (hp : t.phase ≠ .doneErr) :
    microRun i s = .ok t := by
  obtain ⟨hc', -⟩ | ⟨-, hrun⟩ | ⟨-, e, -, rfl⟩ := exec_eq_next h
  · exact absurd (hc.symm.trans hc') Bool.false_ne_true
  · exact hrun
  · exact absurd rfl hp

/-- A command keeps the hidden registers (`10_state.md` R20; log 17). -/
theorem exec_command_hid (hc : isCommand i = true) (h : exec i s = .next t) : t.hid = s.hid := by
  obtain ⟨-, v, rfl⟩ | ⟨hc', -⟩ | ⟨hc', -⟩ := exec_eq_next h
  · split
    · rfl
    · rw [commandAct_frame]
  · exact absurd (hc'.symm.trans hc) Bool.false_ne_true
  · exact absurd (hc'.symm.trans hc) Bool.false_ne_true

end

/-- Settles O47: the frames of commands, of runs and of errors. -/
theorem instructionsKeepTheOperands : Obligations.InstructionsKeepTheOperands := by
  intro i s t h
  obtain ⟨hc, v, rfl⟩ | ⟨hc, hrun⟩ | ⟨hc, e, -, rfl⟩ := exec_eq_next h
  · have hcmd (p : Prop) : isCommand i = false → p := fun hc' => absurd (hc'.symm.trans hc) Bool.false_ne_true
    split
    · exact ⟨rfl, rfl, rfl, rfl, rfl, rfl, rfl, rfl, hcmd _⟩
    · rw [commandAct_frame]
      exact ⟨rfl, rfl, rfl, rfl, rfl, rfl, rfl, rfl, hcmd _⟩
  · rw [(microRun_frame hc hrun).1]
    exact ⟨rfl, rfl, rfl, rfl, rfl, rfl, rfl, rfl, fun _ => rfl⟩
  · exact ⟨rfl, rfl, rfl, rfl, rfl, rfl, rfl, rfl, fun _ => rfl⟩

/-- Settles O48: commands keep the hidden registers, and each unit's frame keeps the other's. -/
theorem unitsKeepToTheirRegisters : Obligations.UnitsKeepToTheirRegisters := by
  intro i s t h
  refine ⟨fun hc => exec_command_hid hc h, fun hp hd => ?_, fun hp he => ?_⟩
  · cases hc : isCommand i with
    | true => rw [exec_command_hid hc h]; exact ⟨rfl, rfl, rfl, rfl, rfl⟩
    | false =>
      have hrun := microRun_of_exec hc h hp
      cases he : isEncoder i with
      | true => rw [(microRun_encoder he hrun).1]; exact ⟨rfl, rfl, rfl, rfl, rfl⟩
      | false => rw [microRun_bitBuffer hc he hd hrun]; exact ⟨rfl, rfl, rfl, rfl, rfl⟩
  · cases hc : isCommand i with
    | true => rw [exec_command_hid hc h]; exact ⟨rfl, rfl, rfl, rfl⟩
    | false =>
      have hrun := microRun_of_exec hc h hp
      cases hd : isDecoder i with
      | true => rw [(microRun_decoder hd hrun).1]; exact ⟨rfl, rfl, rfl, rfl⟩
      | false => rw [microRun_bitBuffer hc he hd hrun]; exact ⟨rfl, rfl, rfl, rfl⟩

/-- Settles O49: the frames that leave OUT out. -/
theorem onlyTheWritersChangeOut : Obligations.OnlyTheWritersChangeOut := by
  intro i s t hi h hp
  have hkeep : t.outLen = s.outLen ∧ t.outBuf = s.outBuf := by
    have hread {first : Bool} (hr : readCode first s = .ok t) :
        t.outLen = s.outLen ∧ t.outBuf = s.outBuf := by
      rw [(readCode_frame hr).1]
      exact ⟨rfl, rfl⟩
    rcases hi with hi | ⟨w, rfl⟩ | hi
    · simp only [List.mem_cons, List.not_mem_nil, or_false] at hi
      rcases hi with rfl | rfl | rfl | rfl | rfl | rfl
      · have hsame := exec_nop_sameResult h
        exact ⟨hsame.outLen, hsame.outBuf⟩
      · cases h; exact ⟨rfl, rfl⟩
      · rw [encInit_frame (microRun_of_exec rfl h hp)]; exact ⟨rfl, rfl⟩
      · rw [decInit_frame (microRun_of_exec rfl h hp)]; exact ⟨rfl, rfl⟩
      · exact hread (microRun_of_exec rfl h hp)
      · exact hread (microRun_of_exec rfl h hp)
    · rw [bbGet_frame (microRun_of_exec rfl h hp)]; exact ⟨rfl, rfl⟩
    · obtain ⟨hc, k, c, hk⟩ :
          isCommand i = false ∧ ∃ k c, microRun i s = classCode k s.atFirstCode c s := by
        rcases hi with ⟨w, c, rfl⟩ | ⟨w, c, rfl⟩ | ⟨w, c, rfl⟩ <;>
          exact ⟨rfl, _, _, by rw [microRun]⟩
      rw [(classCode_frame (hk.symm.trans (microRun_of_exec hc h hp))).1]
      exact ⟨rfl, rfl⟩
  exact ⟨hkeep.1, fun a => by rw [hkeep.2]⟩

/-- Settles O50: a run to its end does not lead to DONE_ERR, so an error was raised. -/
theorem errorsAreEnteredWhole : Obligations.ErrorsAreEnteredWhole := by
  intro i s t hc hs h ht
  obtain ⟨hc', -⟩ | ⟨-, hrun⟩ | ⟨-, e, hraise, rfl⟩ := exec_eq_next h
  · exact absurd (hc.symm.trans hc') Bool.false_ne_true
  · rcases (microRun_frame hc hrun).2 with hp | hp
    · exact absurd (hp.symm.trans ht) hs
    · exact absurd ht hp
  · refine ⟨e, endedBy_raiseError s ?_⟩
    rintro rfl
    rcases microRun_raise hraise with ⟨-, he⟩ | ⟨-, he⟩
    · cases he
    · simp at he

/-- Settles O51: a command by its row, a run to its end keeps ERR, an error by `microRun_raise`. -/
theorem errorsByInstruction : Obligations.ErrorsByInstruction := by
  intro i s t h
  cases hc : isCommand i with
  | true =>
    cases hr : isReserved i with
    | true =>
      obtain ⟨v, hv⟩ := exists_value_of_command hc
      rw [(exec_reserved hr hv s).2, acceptCmd_eq] at h
      split at h <;> cases h
      · exact .inl rfl
      · exact .inr (.inl ⟨rfl, rfl⟩)
    | false =>
      cases i with
      | nop => exact .inl (exec_nop_sameResult h).err
      | encode =>
        rw [exec_command rfl rfl, acceptCmd_eq] at h
        split at h <;> cases h
        · exact .inl rfl
        · exact .inr (.inr (.inl ⟨.inl rfl, rfl⟩))
      | decode =>
        rw [exec_command rfl rfl, acceptCmd_eq] at h
        split at h <;> cases h
        · exact .inl rfl
        · exact .inr (.inr (.inl ⟨.inr rfl, rfl⟩))
      | _ => exact absurd (hr.symm.trans hc) Bool.false_ne_true
  | false =>
    obtain ⟨hc', -⟩ | ⟨-, hrun⟩ | ⟨-, e, hraise, rfl⟩ := exec_eq_next h
    · exact absurd (hc.symm.trans hc') Bool.false_ne_true
    · exact .inl (by rw [(microRun_frame hc hrun).1])
    · exact .inr (.inr (.inr ((microRun_raise hraise).imp (⟨rfl, ·⟩) id)))

theorem isCommand_of_isEncoder {i : Instr} (h : isEncoder i = true) : isCommand i = false := by
  cases i with
  | encInit | encSym | encFinal | encFlush => rfl
  | _ => cases h

theorem isCommand_of_isDecoder {i : Instr} (h : isDecoder i = true) : isCommand i = false := by
  cases i with
  | decInit | decFirst | decNext | decFinish | literal | known | selfRef | invalid => rfl
  | _ => cases h

/-- Settles O52: each unit's frame bounds its width and keeps the other's. -/
theorem widthsAreMonotone : Obligations.WidthsAreMonotone := by
  intro i s t h hp
  have hsame {a b : Nat} (hab : b = a) : a ≤ b ∧ b ≤ a + 1 := by omega
  obtain ⟨-, hdec, henc⟩ := unitsKeepToTheirRegisters i s t h
  refine ⟨fun hi => ?_, fun hi => ?_⟩
  · cases he : isEncoder i with
    | true =>
      obtain ⟨-, -, hwidth⟩ := microRun_encoder he (microRun_of_exec (isCommand_of_isEncoder he) h hp)
      exact hwidth hi
    | false =>
      obtain ⟨-, hwidth, -⟩ := henc hp he
      exact hsame hwidth
  · cases hd : isDecoder i with
    | true =>
      obtain ⟨-, -, hwidth⟩ := microRun_decoder hd (microRun_of_exec (isCommand_of_isDecoder hd) h hp)
      exact hwidth hi
    | false =>
      obtain ⟨-, hwidth, -⟩ := hdec hp hd
      exact hsame hwidth

/-! ### Transitions of phase -/

section
variable {s t : State} {i : Instr}

/-- The micro-operation a phase names runs to one of the phases that may follow it (`10_state.md` R28). -/
theorem mayBecome_of_microRun (hi : microOp s.phase = some i) (h : microRun i s = .ok t) :
    s.phase.mayBecome t.phase = true := by
  cases hp : s.phase with
  | idle | doneOk | doneErr => rw [hp] at hi; cases hi
  | encInit => rw [hp] at hi; cases hi; rw [encInit_frame h]; rfl
  | encSym =>
    rw [hp] at hi
    cases hi
    rcases (encSym_frame h).2.1 with hq | hq <;> rw [hq] <;> rfl
  | encFinal => rw [hp] at hi; cases hi; rw [encFinal_frame h]; rfl
  | encFlush => rw [hp] at hi; cases hi; rw [encFlush_frame h]; rfl
  | decInit => rw [hp] at hi; cases hi; rw [decInit_frame h]; rfl
  | decFirst | decNext =>
    rw [hp] at hi
    cases hi
    rcases (readCode_frame h).2.1 with hq | hq <;> rw [hq] <;> rfl
  | decFinish => rw [hp] at hi; cases hi; rw [decFinish_frame h]; rfl

theorem microOp_isCommand {p : Phase} (hi : microOp p = some i) : isCommand i = false := by
  cases p <;> cases hi <;> rfl

/-- From each of the phases at rest a command leads to the same three (`10_state.md` R28). -/
theorem mayBecome_of_rest {p q : Phase} (hp : p.busy = false) (hq : q ∈ [.encInit, .decInit, .doneErr]) :
    p.mayBecome q = true := by
  simp only [List.mem_cons, List.not_mem_nil, or_false] at hq
  cases p with
  | idle | doneOk | doneErr => rcases hq with rfl | rfl | rfl <;> rfl
  | _ => cases hp

/-- An error or a reserved value leads to DONE_ERR from every phase (`10_state.md` R28). -/
theorem mayBecome_doneErr (p : Phase) : p.mayBecome .doneErr = true := by
  cases p <;> rfl

/-- The CORE's own step makes a transition of its phase (`10_state.md` R28). -/
theorem coreStep_phase (h : coreStep s = .next t) :
    t.phase = s.phase ∨ s.phase.mayBecome t.phase = true := by
  cases hi : microOp s.phase with
  | none =>
    rw [coreStep_rest hi] at h
    cases h
    exact .inl rfl
  | some i =>
    rw [coreStep_micro hi] at h
    have hc := microOp_isCommand hi
    obtain ⟨hc', -⟩ | ⟨-, hrun⟩ | ⟨-, e, -, rfl⟩ := exec_eq_next h
    · exact absurd (hc.symm.trans hc') Bool.false_ne_true
    · exact .inr (mayBecome_of_microRun hi hrun)
    · exact .inr (mayBecome_doneErr s.phase)

/-- A command makes a transition of its phase, and none while BUSY = 1 (`43_commands.md` R170). -/
theorem exec_command_phase (hc : isCommand i = true) (h : exec i s = .next t) :
    t.phase = s.phase ∨ s.phase.mayBecome t.phase = true := by
  obtain ⟨-, v, rfl⟩ | ⟨hc', -⟩ | ⟨hc', -⟩ := exec_eq_next h
  · split
    · exact .inl rfl
    · next hrest =>
      exact (commandAct_phase v { s with cmd := v }).imp id
        (mayBecome_of_rest (Bool.eq_false_of_not_eq_true hrest))
  · exact absurd (hc'.symm.trans hc) Bool.false_ne_true
  · exact absurd (hc'.symm.trans hc) Bool.false_ne_true

end

/-- Settles O46: the CORE's own step, a command, or a move of the host's, of which only reset moves phase. -/
theorem phaseTransitionsAreLegal : Obligations.PhaseTransitionsAreLegal := by
  intro s t h
  obtain ⟨l, hstep⟩ | ⟨v, l, -, -, hstep⟩ | ⟨m, l, hhost, -, hstep⟩ := step_cases s
  · rw [hstep] at h
    exact (coreStep_phase h).imp id .inl
  · rw [hstep] at h
    exact (exec_command_phase (commandValuesEncodeBack _).1 h).imp id .inl
  · rw [hstep] at h
    by_cases hm : m = .reset
    · subst hm
      cases h
      exact .inr (.inr ⟨rfl, l, hhost⟩)
    · exact .inl (hostMove_sameResult hm h).phase

end Sys2Proof.Machine
end

section
/-! SUPPORT. The state inside ENCODE and inside DECODE, with no regard to DICT_CAP, and how the invariant is put
together from it (`10_state.md` R29 to R36). -/

namespace Sys2Proof.Machine

section
variable {s t : State} {c n : Nat}

/-! ### OUT -/

/-- OUT holds exactly OUT_LEN bytes, in canonical form and inside OUT_CAP (`10_state.md` R38). -/
structure OutOk (s : State) : Prop where
  fits : s.cfg.outCap.fits s.outLen = true
  buffer : BufferOk s.cfg.outCap s.outBuf
  listed : s.outBuf.map Prod.fst = List.range s.outLen

theorem OutOk.of_empty (hlen : s.outLen = 0) (hbuf : s.outBuf = []) : OutOk s where
  fits := by rw [hlen]; cases s.cfg.outCap <;> simp [Cap.fits]
  buffer := hbuf ▸ Memory.ok_nil _
  listed := by rw [hbuf, hlen]; rfl

theorem OutOk.drained (h : OutOk s) (hroom : s.cfg.outCap.fits (s.outLen + n) = true) :
    OutOk (drained n s) where
  fits := hroom
  buffer := loadBytes_ok _ h.buffer (by rwa [leBytes_length])
  listed := by
    have := loadBytes_keys (leBytes n s.hid.acc) h.listed
    rwa [leBytes_length] at this

/-! ### Inside ENCODE -/

/-- Between two micro-operations of ENC after ENC.INIT: `EncoderOk` but for DICT_CAP, and OUT in order. -/
structure EncLoop (s : State) : Prop where
  inFits : s.cfg.inCap.fits s.inLen = true
  out : OutOk s
  ipInside : s.hid.ip ≤ s.inLen
  accBelow : s.hid.acc < 2 ^ s.hid.cnt
  cntSmall : s.hid.cnt < 8
  matched : Matched s.hid.fdict s.hid.eNext s.hid.omega
  width : s.hid.eWidth = encWidthFor s.hid.eNext
  omegaEmpty : s.hid.omega = [] → s.hid.ip = 0

theorem EncLoop.of_encoderOk (h : EncoderOk s) (hout : OutOk s) : EncLoop s where
  inFits := h.inFits
  out := hout
  ipInside := h.ipInside
  accBelow := h.accBelow
  cntSmall := h.cntSmall
  matched := ⟨h.dictOk, or_iff_not_imp_left.mpr h.omegaKey⟩
  width := h.width
  omegaEmpty := h.omegaEmpty

theorem EncLoop.encoderOk (h : EncLoop s) (hdict : s.cfg.dictCap.fits s.hid.eNext = true) : EncoderOk s where
  inFits := h.inFits
  ipInside := h.ipInside
  accBelow := h.accBelow
  cntSmall := h.cntSmall
  dictOk := h.matched.dict
  dictFits := hdict
  width := h.width
  omegaKey := or_iff_not_imp_left.mp h.matched.key
  omegaEmpty := h.omegaEmpty

theorem EncLoop.withPhase (h : EncLoop s) (p : Phase) : EncLoop { s with phase := p } :=
  ⟨h.inFits, ⟨h.out.fits, h.out.buffer, h.out.listed⟩, h.ipInside, h.accBelow, h.cntSmall, h.matched, h.width,
    h.omegaEmpty⟩

/-- ENC.INIT starts the loop (`41_encoder.md` R120). -/
theorem encLoop_encStarted (hin : s.cfg.inCap.fits s.inLen = true) (hout : OutOk s) :
    EncLoop (encStarted s) :=
  ⟨hin, ⟨hout.fits, hout.buffer, hout.listed⟩, Nat.zero_le _, Nat.one_pos, (by decide : 0 < 8),
    matched_nil, encWidthFor_256.symm, fun _ => rfl⟩

/-- BB.PUT of the match's code keeps the loop (`41_encoder.md` R122, R125). -/
theorem EncLoop.put (h : EncLoop s) (hc : s.hid.fdict.code? s.hid.omega = some c)
    (hroom : s.cfg.outCap.fits (s.outLen + (s.hid.cnt + s.hid.eWidth) / 8) = true) :
    EncLoop (putState c s.hid.eWidth s) where
  inFits := h.inFits
  out := by
    unfold putState
    refine OutOk.drained ?_ hroom
    exact ⟨h.out.fits, h.out.buffer, h.out.listed⟩
  ipInside := h.ipInside
  accBelow := by
    have hfit := h.matched.dict.code_lt hc
    rw [← h.width] at hfit
    exact shiftRight_lt _ (or_shiftLeft_lt h.accBelow hfit)
  cntSmall := by
    change s.hid.cnt + s.hid.eWidth - 8 * ((s.hid.cnt + s.hid.eWidth) / 8) < 8
    omega
  matched := h.matched
  width := h.width
  omegaEmpty := h.omegaEmpty

/-- BB.FLUSH keeps it (`41_encoder.md` R126). -/
theorem EncLoop.drained (h : EncLoop s) (hroom : s.cfg.outCap.fits (s.outLen + n) = true) :
    EncLoop (drained n s) :=
  ⟨h.inFits, h.out.drained hroom, h.ipInside, shiftRight_lt _ h.accBelow,
    (Nat.sub_le _ _).trans_lt h.cntSmall, h.matched, h.width, h.omegaEmpty⟩

/-- A hit keeps it (`41_encoder.md` R122). -/
theorem EncLoop.hit {k : Byte} (h : EncLoop s) (hip : s.hid.ip < s.inLen)
    (hk : (s.hid.fdict.code? (s.hid.omega ++ [k])).isSome) : EncLoop (encHit k (symbolTaken s)) :=
  ⟨h.inFits, ⟨h.out.fits, h.out.buffer, h.out.listed⟩, hip, h.accBelow, h.cntSmall, h.matched.hit hk, h.width,
    fun ho => absurd ho (by simp [symbolTaken])⟩

/-- A miss that learns keeps it (`41_encoder.md` R122, R123). -/
theorem EncLoop.missed {k : Byte} (h : EncLoop s) (hip : s.hid.ip < s.inLen)
    (hk : s.hid.fdict.code? (s.hid.omega ++ [k]) = none) (hc : s.hid.fdict.code? s.hid.omega = some c)
    (hroom : s.cfg.outCap.fits (s.outLen + (s.hid.cnt + s.hid.eWidth) / 8) = true) :
    EncLoop (missed k c s) := by
  have hput := h.put hc hroom
  refine ⟨h.inFits, ⟨hput.out.fits, hput.out.buffer, hput.out.listed⟩, hip, hput.accBelow, hput.cntSmall,
    h.matched.miss hk, ?_, fun ho => absurd ho (List.cons_ne_nil _ _)⟩
  change grownEncWidth (s.hid.eNext + 1) s.hid.eWidth = encWidthFor (s.hid.eNext + 1)
  rw [h.width, grownEncWidth_encWidthFor h.matched.dict.bounds.1]

/-! ### Inside DECODE -/

/-- Between two micro-operations of DEC after DEC.INIT: `DecoderOk` but for DICT_CAP. -/
structure DecLoop (s : State) : Prop where
  inFits : s.cfg.inCap.fits s.inLen = true
  needFits : s.cfg.outCap.fits s.need = true
  ipInside : s.hid.ip ≤ s.inLen
  accBelow : s.hid.acc < 2 ^ s.hid.cnt
  dictOk : Reverse.Ok s.hid.rdict s.hid.dNext
  width : s.hid.dWidth = decWidthFor s.hid.dNext
  atFirst : s.phase = .decFirst → s.hid.ip = 0 ∧ s.hid.cnt = 0 ∧ s.hid.dNext = 256 ∧ s.hid.res = []
  atNext : s.phase = .decNext → s.hid.cnt < 8 ∧ s.hid.s ≠ []
  atFinish : s.phase = .decFinish → s.hid.cnt < s.hid.dWidth ∧ s.hid.ip = s.inLen

theorem DecLoop.of_decoderOk (h : DecoderOk s) : DecLoop s :=
  ⟨h.inFits, h.needFits, h.ipInside, h.accBelow, h.dictOk, h.width, h.atFirst, h.atNext, h.atFinish⟩

theorem DecLoop.decoderOk (h : DecLoop s) (hdict : s.cfg.dictCap.fits s.hid.dNext = true) : DecoderOk s :=
  ⟨h.inFits, h.needFits, h.ipInside, h.accBelow, h.dictOk, hdict, h.width, h.atFirst, h.atNext, h.atFinish⟩

/-- DEC.INIT starts the loop (`42_decoder.md` R140). -/
theorem decLoop_decStarted (hin : s.cfg.inCap.fits s.inLen = true)
    (hneed : s.cfg.outCap.fits s.need = true) : DecLoop (decStarted s) :=
  ⟨hin, hneed, Nat.zero_le _, Nat.one_pos, rfl, (by decide : 9 = decWidthFor 256), fun _ => ⟨rfl, rfl, rfl, rfl⟩,
    nofun, nofun⟩

/-- Less than a byte is pending when DEC.FIRST or DEC.NEXT is next. -/
theorem DecLoop.cnt_lt (h : DecLoop s) (hp : s.phase = .decFirst ∨ s.phase = .decNext) : s.hid.cnt < 8 := by
  rcases hp with hp | hp
  · obtain ⟨-, hcnt, -⟩ := h.atFirst hp
    omega
  · exact (h.atNext hp).1

theorem DecLoop.nine_le (h : DecLoop s) : 9 ≤ s.hid.dWidth := h.width ▸ nine_le_decWidthFor _

/-! ### The invariant -/

/-- `Invariant` speaks neither of CMD nor of what is the host's and the model's own. -/
theorem Invariant.congr (h : Invariant s)
    (ht : t = { s with
      cmd := t.cmd, host := t.host, seen := t.seen, era := t.era, outEra := t.outEra, free := t.free }) :
    Invariant t := by
  rw [ht]
  refine ⟨h.capacities, h.inLenWidth, h.rowsWidth, h.colsWidth, h.outFits, h.hidden, h.errReported, h.noLength,
    h.inOk, h.outOk, h.outListed, fun hp => ?_, fun hp => ?_⟩
  · obtain ⟨h1, h2, h3, h4, h5, h6, h7, h8, h9⟩ := h.encoder hp
    exact ⟨h1, h2, h3, h4, h5, h6, h7, h8, h9⟩
  · obtain ⟨h1, h2, h3, h4, h5, h6, h7, h8, h9, h10⟩ := h.decoder hp
    exact ⟨h1, h2, h3, h4, h5, h6, h7, h8, h9, h10⟩

/-- The fields of `Invariant` that an end in DONE_ERR, a start or a reset leaves to be checked: OUT_LEN is 0 and
the loops are not entered. -/
theorem Invariant.of_rest (h : Invariant s) (hcfg : t.cfg = s.cfg) (hinLen : t.inLen = s.inLen)
    (hrows : t.rows = s.rows) (hcols : t.cols = s.cols) (hinBuf : t.inBuf = s.inBuf)
    (henc : t.phase ∉ [.encSym, .encFinal, .encFlush]) (hdec : t.phase ∉ [.decFirst, .decNext, .decFinish])
    (hlen : t.outLen = 0) (hhid : HiddenFits s.cfg t.hid) (herr : t.err ≠ .none ↔ t.phase = .doneErr)
    (hout : BufferOk s.cfg.outCap t.outBuf)
    (hlisted : t.phase ≠ .doneErr → t.outBuf = []) : Invariant t where
  capacities := hcfg ▸ h.capacities
  inLenWidth := by rw [hcfg, hinLen]; exact h.inLenWidth
  rowsWidth := by rw [hcfg, hrows]; exact h.rowsWidth
  colsWidth := by rw [hcfg, hcols]; exact h.colsWidth
  outFits := by rw [hcfg, hlen]; exact Cap.fits_mono h.outFits (Nat.zero_le _)
  hidden := hcfg ▸ hhid
  errReported := herr
  noLength := fun _ => hlen
  inOk := by rw [hcfg, hinBuf]; exact h.inOk
  outOk := hcfg ▸ hout
  outListed := fun hp => by rw [hlisted hp, hlen]; rfl
  encoder := fun hp => absurd hp henc
  decoder := fun hp => absurd hp hdec

/-- An error keeps the invariant (`60_exceptions.md` R206, R208). -/
theorem Invariant.raise (h : Invariant s) {e : ErrCode} (he : e ≠ .none) : Invariant (raiseError e s) :=
  h.of_rest rfl rfl rfl rfl rfl (by simp) (by simp) rfl (HiddenFits.of_free h.capacities _) (by simp [he])
    (Memory.ok_nil _) fun _ => rfl

/-- A run of the loop keeps the invariant where the loop, OUT and the sizes are in order. -/
theorem Invariant.of_run (h : Invariant s) (hs : s.phase ≠ .doneErr) (ht : t.phase ≠ .doneErr)
    (hframe : t = { s with hid := t.hid, outBuf := t.outBuf, outLen := t.outLen, phase := t.phase })
    (hhid : HiddenFits t.cfg t.hid) (hout : OutOk t)
    (hlen : t.phase ∉ [.encSym, .encFinal, .encFlush, .doneOk] → t.outLen = 0)
    (henc : t.phase ∈ [.encSym, .encFinal, .encFlush] → EncoderOk t)
    (hdec : t.phase ∈ [.decFirst, .decNext, .decFinish] → DecoderOk t) : Invariant t where
  capacities := by rw [hframe]; exact h.capacities
  inLenWidth := by rw [hframe]; exact h.inLenWidth
  rowsWidth := by rw [hframe]; exact h.rowsWidth
  colsWidth := by rw [hframe]; exact h.colsWidth
  outFits := hout.fits
  hidden := hhid
  errReported := by
    have herr : t.err = s.err := by rw [hframe]
    rw [herr, h.errReported]
    exact iff_of_false hs ht
  noLength := hlen
  inOk := by rw [hframe]; exact h.inOk
  outOk := hout.buffer
  outListed := fun _ => hout.listed
  encoder := henc
  decoder := hdec

/-- Inside ENCODE the hidden registers fit: those of DEC and of BB.GET are as they were. -/
theorem EncLoop.hiddenFits (h : EncLoop s) {g : Hidden} (hlen : s.cfg.lenBits.holdsValue s.inLen = true)
    (hdict : s.cfg.dictCap.fits s.hid.eNext = true) (hg : HiddenFits s.cfg g)
    (hnext : s.hid.dNext = g.dNext) (hwidth : s.hid.dWidth = g.dWidth) : HiddenFits s.cfg s.hid where
  ip := Cap.holdsValue_mono hlen h.ipInside
  acc := acc_fits h.accBelow (Capacities.accBits_fits_of_small h.cntSmall)
  cnt := Capacities.accBits_fits_of_small h.cntSmall
  cntWidth := Capacities.cntBits_holdsValue (Capacities.accBits_fits_of_small h.cntSmall)
  eNext := ⟨h.matched.dict.bounds.1, hdict⟩
  eWidth := h.width ▸ ⟨nine_le_encWidthFor _, Capacities.wMax_fits_encWidthFor hdict⟩
  dNext := hnext ▸ hg.dNext
  dWidth := hwidth ▸ hg.dWidth

/-- A micro-operation of ENC that leads back into the loop, or out of it at the end, keeps the invariant. -/
theorem Invariant.of_encLoop (h : Invariant s) (hs : s.phase ≠ .doneErr)
    (hframe : t = { s with
      hid := s.hid.withEncoder t.hid, outBuf := t.outBuf, outLen := t.outLen, phase := t.phase })
    (ht : t.phase ∈ [.encSym, .encFinal, .encFlush, .doneOk]) (hloop : EncLoop t)
    (hdict : t.cfg.dictCap.fits t.hid.eNext = true) : Invariant t := by
  have hlen : t.cfg.lenBits.holdsValue t.inLen = true := by rw [hframe]; exact h.inLenWidth
  have hold : HiddenFits t.cfg s.hid := by rw [hframe]; exact h.hidden
  refine h.of_run hs ?_ (by rw [hframe]) (hloop.hiddenFits hlen hdict hold ?_ ?_) hloop.out
    (fun hp => absurd ht hp) (fun _ => hloop.encoderOk hdict) (fun hp => ?_)
  · rintro hp; simp [hp] at ht
  · rw [hframe]; rfl
  · rw [hframe]; rfl
  · simp only [List.mem_cons, List.not_mem_nil, or_false] at ht hp
    rcases hp with hp | hp | hp <;> simp [hp] at ht

/-- Inside DECODE the hidden registers fit: those of ENC are as they were. -/
theorem DecLoop.hiddenFits (h : DecLoop s) {g : Hidden} (hlen : s.cfg.lenBits.holdsValue s.inLen = true)
    (hp : s.phase ∈ [.decFirst, .decNext, .decFinish])
    (hdict : s.cfg.dictCap.fits s.hid.dNext = true) (hg : HiddenFits s.cfg g)
    (hnext : s.hid.eNext = g.eNext) (hwidth : s.hid.eWidth = g.eWidth) : HiddenFits s.cfg s.hid := by
  have hw : s.cfg.wMax.fits s.hid.dWidth = true := h.width ▸ Capacities.wMax_fits_decWidthFor hdict
  have hcnt : s.hid.cnt ≤ s.hid.dWidth + 7 := by
    have hnine := h.nine_le
    simp only [List.mem_cons, List.not_mem_nil, or_false] at hp
    rcases hp with hp | hp | hp
    · have := h.cnt_lt (.inl hp)
      omega
    · have := h.cnt_lt (.inr hp)
      omega
    · obtain ⟨hlt, -⟩ := h.atFinish hp
      omega
  obtain ⟨hacc, hfits⟩ := accumulator_fits hw h.accBelow hcnt
  exact ⟨Cap.holdsValue_mono hlen h.ipInside, hacc, hfits, Capacities.cntBits_holdsValue hfits,
    hnext ▸ hg.eNext, hwidth ▸ hg.eWidth, ⟨h.dictOk.le, hdict⟩, ⟨h.nine_le, hw⟩⟩

/-- A micro-operation of DEC that leads into the loop keeps the invariant: OUT is as it was. -/
theorem Invariant.of_decLoop (h : Invariant s) (hs : s.phase ∈ [.decInit, .decFirst, .decNext])
    (hframe : t = { s with hid := s.hid.withDecoder t.hid, phase := t.phase })
    (ht : t.phase ∈ [.decFirst, .decNext, .decFinish]) (hloop : DecLoop t)
    (hdict : t.cfg.dictCap.fits t.hid.dNext = true) : Invariant t := by
  have hlen : t.cfg.lenBits.holdsValue t.inLen = true := by rw [hframe]; exact h.inLenWidth
  have hold : HiddenFits t.cfg s.hid := by rw [hframe]; exact h.hidden
  have hrest : s.phase ≠ .doneErr ∧ s.phase ∉ [.encSym, .encFinal, .encFlush, .doneOk] := by
    simp only [List.mem_cons, List.not_mem_nil, or_false] at hs
    rcases hs with hp | hp | hp <;> simp [hp]
  have hrest' : t.phase ≠ .doneErr ∧ t.phase ∉ [.encSym, .encFinal, .encFlush] := by
    simp only [List.mem_cons, List.not_mem_nil, or_false] at ht
    rcases ht with hp | hp | hp <;> simp [hp]
  have hzero : t.outLen = 0 := by rw [hframe]; exact h.noLength hrest.2
  have hout : OutOk t := by
    rw [hframe]
    exact ⟨h.outFits, h.outOk, h.outListed hrest.1⟩
  refine h.of_run hrest.1 hrest'.1 (by rw [hframe]) (hloop.hiddenFits hlen ht hdict hold ?_ ?_) hout
    (fun _ => hzero) (fun hp => absurd hp hrest'.2) (fun _ => hloop.decoderOk hdict)
  · rw [hframe]; rfl
  · rw [hframe]; rfl

end

end Sys2Proof.Machine
end

section
/-! SUPPORT. Commands, the host's other moves and reset keep the invariant, and none of them stops the machine
where the model gives the move a meaning (`10_state.md` R42, `70_reset_and_hazards.md` R230, R239). -/

namespace Sys2Proof.Machine

section
variable {s t : State}

/-! ### Reset -/

theorem Invariant.of_reset {cfg : Capacities} (h : cfg.WF) : Invariant (State.resetOf cfg) where
  capacities := h
  inLenWidth := by cases hc : cfg.lenBits <;> simp [State.resetOf, hc, Cap.holdsValue]
  rowsWidth := by cases hc : cfg.dimBits <;> simp [State.resetOf, hc, Cap.holdsValue]
  colsWidth := by cases hc : cfg.dimBits <;> simp [State.resetOf, hc, Cap.holdsValue]
  outFits := (OutOk.of_empty (s := State.resetOf cfg) rfl rfl).fits
  hidden := HiddenFits.of_reset h
  errReported := by simp [State.resetOf]
  noLength := fun _ => rfl
  inOk := Memory.ok_nil _
  outOk := Memory.ok_nil _
  outListed := fun _ => rfl
  encoder := fun hp => by simp [State.resetOf] at hp
  decoder := fun hp => by simp [State.resetOf] at hp

/-- Settles O43: `Invariant.of_reset`, and unbounded capacities are in order. -/
theorem resetMeetsTheInvariant : Obligations.ResetMeetsTheInvariant :=
  ⟨fun _ => Invariant.of_reset, Invariant.of_reset Capacities.infinite_wf⟩

/-! ### Commands -/

/-- An accepted command keeps the invariant: it starts anew, or refuses, or does nothing (`43_commands.md` R171
to R175). -/
theorem Invariant.commandAct (h : Invariant s) (v : Byte) : Invariant (commandAct v s) := by
  have hstart {p : Phase} (hp : p = .encInit ∨ p = .decInit) : Invariant (startCommand p s) := by
    rcases hp with rfl | rfl
    · exact h.of_rest rfl rfl rfl rfl rfl (by simp) (by simp) rfl h.hidden (by simp) (Memory.ok_nil _) fun _ => rfl
    · exact h.of_rest rfl rfl rfl rfl rfl (by simp) (by simp) rfl h.hidden (by simp) (Memory.ok_nil _) fun _ => rfl
  have hrefuse : Invariant (illegalCommand s) :=
    h.of_rest rfl rfl rfl rfl rfl (by simp) (by simp) rfl h.hidden (by simp) h.outOk fun hp => absurd rfl hp
  unfold Machine.commandAct
  split_ifs
  · exact h
  · exact hstart (.inl rfl)
  · exact hstart (.inr rfl)
  · exact hrefuse

theorem Invariant.decodeCmd (h : Invariant s) (v : Byte) :
    ∃ t, exec (decodeCmd v) s = .next t ∧ Invariant t := by
  refine ⟨_, (exec_decodeCmd v s).trans (acceptCmd_eq _ _ _), ?_⟩
  split
  · exact h
  · exact Invariant.commandAct (s := { s with cmd := v }) (h.congr rfl) v

/-! ### The host's other moves -/

/-- While BUSY = 0 the operands may take any value their registers hold (`70_reset_and_hazards.md` R239). -/
theorem Invariant.of_operands (h : Invariant s) (hrest : s.phase.busy = false)
    (ht : t = { s with inLen := t.inLen, rows := t.rows, cols := t.cols, inBuf := t.inBuf })
    (hlen : s.cfg.lenBits.holdsValue t.inLen = true) (hrows : s.cfg.dimBits.holdsValue t.rows = true)
    (hcols : s.cfg.dimBits.holdsValue t.cols = true) (hin : BufferOk s.cfg.inCap t.inBuf) : Invariant t := by
  have hidle (l : List Phase) (hl : ∀ p ∈ l, p.busy = true) : s.phase ∉ l := fun hp =>
    absurd (hrest.symm.trans (hl _ hp)) Bool.false_ne_true
  rw [ht]
  exact ⟨h.capacities, hlen, hrows, hcols, h.outFits, h.hidden, h.errReported, h.noLength, hin, h.outOk,
    h.outListed, fun hp => absurd hp (hidle _ (by decide)), fun hp => absurd hp (hidle _ (by decide))⟩

theorem hostSet_inv {width : Cap} {v : Nat} {set : State → State} (h : hostSet width v set s = .next t) :
    width.holdsValue v = true ∧ s.phase.busy = false ∧ t = set s := by
  have ht := hostSet_eq_next h
  unfold hostSet at h
  split at h
  · cases h
  · next hv =>
    split at h
    · cases h
    · next hb => exact ⟨by simpa using hv, by simpa using hb, ht⟩

theorem hostLoad_inv {i : Nat} {b : Byte} (h : hostLoad i b s = .next t) :
    s.cfg.inCap.hasIndex i = true ∧ s.phase.busy = false := by
  unfold hostLoad at h
  split at h
  · cases h
  · next hi =>
    split at h
    · cases h
    · next hb => exact ⟨by simpa using hi, by simpa using hb⟩

theorem Invariant.hostWrite {r : Reg} {v : Nat} (h : Invariant s) (ht : hostWrite r v s = .next t) :
    Invariant t := by
  cases r with
  | cmd => cases ht
  | status | err | outLen => cases ht; exact h
  | inLen =>
    rw [Machine.hostWrite] at ht
    obtain ⟨hv, hrest, rfl⟩ := hostSet_inv ht
    exact h.of_operands hrest rfl hv h.rowsWidth h.colsWidth h.inOk
  | rows =>
    rw [Machine.hostWrite] at ht
    obtain ⟨hv, hrest, rfl⟩ := hostSet_inv ht
    exact h.of_operands hrest rfl h.inLenWidth hv h.colsWidth h.inOk
  | cols =>
    rw [Machine.hostWrite] at ht
    obtain ⟨hv, hrest, rfl⟩ := hostSet_inv ht
    exact h.of_operands hrest rfl h.inLenWidth h.rowsWidth hv h.inOk

theorem Invariant.hostMove {m : HostMove} (h : Invariant s) (ht : hostMove m s = .next t) : Invariant t := by
  cases m with
  | write r v => exact h.hostWrite ht
  | load i b =>
    obtain ⟨hi, hrest⟩ := hostLoad_inv ht
    rw [hostLoad_eq_next ht]
    exact h.of_operands hrest rfl h.inLenWidth h.rowsWidth h.colsWidth (Memory.write_ok b h.inOk hi)
  | read r => cases ht; rw [hostRead_frame]; exact h.congr rfl
  | readOut i => rw [hostReadOut_frame ht]; exact h.congr rfl
  | wait | pause => cases ht; exact h
  | reset => cases ht; exact (Invariant.of_reset h.capacities).congr rfl

/-- Which moves are allowed does not depend on the moves to come. -/
theorem moveAllowed_host {m : HostMove} {l : List HostMove} (h : moveAllowed s m) :
    moveAllowed { s with host := l } m := by
  cases m with
  | write r v => cases r <;> exact h
  | load | read | readOut | wait | pause | reset => exact h

/-- A move the model gives a meaning answers a next state (`70_reset_and_hazards.md` R239; log 7, log 9,
log 10). -/
theorem hostMove_answers {m : HostMove} (hm : moveAllowed s m)
    (hcmd : ∀ v, m = .write .cmd v → ¬v < 256) : ∃ t, hostMove m s = .next t := by
  cases m with
  | write r v =>
    cases r with
    | cmd => exact absurd hm (hcmd v rfl)
    | status | err | outLen => exact ⟨_, rfl⟩
    | inLen | rows | cols =>
      obtain ⟨hv, hrest⟩ := hm
      rw [hostMove, hostWrite]
      exact ⟨_, hostSet_ok _ hv hrest⟩
  | load i b =>
    obtain ⟨hi, hrest⟩ := hm
    exact ⟨_, hostLoad_ok b hi hrest⟩
  | readOut i =>
    cases hb : s.phase.busy with
    | true => exact ⟨_, hostReadOut_busy hm hb⟩
    | false => exact ⟨_, hostReadOut_rest hm hb⟩
  | read | wait | pause | reset => exact ⟨_, rfl⟩

end

end Sys2Proof.Machine
end

section
/-! SUPPORT. Everything the CORE's own step can do inside a command, said once (`44_properties.md` R192,
`70_reset_and_hazards.md` R246): it goes on, one turn nearer to the end, as it would with infinite capacities; or
it raises an error of the stream, as it would with infinite capacities; or a capacity is exceeded. -/

namespace Sys2Proof.Machine

/-- The same state of a CORE whose capacities are all infinite. -/
def State.unbounded (s : State) : State := { s with cfg := Capacities.infinite }

/-- The phases of ENCODE. -/
def encPhases : List Phase := [.encInit, .encSym, .encFinal, .encFlush]

/-- How many micro-operations a command has left at most, in phase `p`; ENCODE has exactly that many where no
error ends it (`44_properties.md` R192, `70_reset_and_hazards.md` R246). -/
def turnsIn (s : State) : Phase → Nat
  | .encInit => s.inLen + 4
  | .encSym => s.inLen - s.hid.ip + 3
  | .encFinal => 2
  | .encFlush => 1
  | .decInit => 8 * s.inLen / 9 + 3
  | .decFirst => (s.hid.cnt + 8 * (s.inLen - s.hid.ip)) / 9 + 2
  | .decNext => (s.hid.cnt + 8 * (s.inLen - s.hid.ip)) / 9 + 2
  | .decFinish => 1
  | _ => 0

/-- How many micro-operations the command has left at most. -/
def turnsLeft (s : State) : Nat := turnsIn s s.phase

/-- The CORE is inside a command, in a state from which the command goes on. -/
inductive Coding (s : State) : Prop where
  | encInit (hp : s.phase = .encInit) (hout : OutOk s)
  | encoder (hp : s.phase ∈ [.encSym, .encFinal, .encFlush]) (hloop : EncLoop s)
  | decInit (hp : s.phase = .decInit)
  | decoder (hp : s.phase ∈ [.decFirst, .decNext, .decFinish]) (hloop : DecLoop s)

/-- What the CORE's own step does inside a command. -/
inductive Turn (s : State) : Prop where
  | goes (t : State) (hstep : coreStep s = .next t)
      (hunbounded : coreStep s.unbounded = .next t.unbounded) (hnext : t.phase = .doneOk ∨ Coding t)
      (hturns : turnsLeft t < turnsLeft s)
      (hencoder : s.phase ∈ encPhases →
        turnsLeft s = turnsLeft t + 1 ∧ (t.phase = .doneOk ∨ t.phase ∈ encPhases))
      (hkeeps : Invariant s → Invariant t)
  | fails (e : ErrCode) (hstep : coreStep s = .next (raiseError e s))
      (hunbounded : coreStep s.unbounded = .next (raiseError e s.unbounded))
      (he : e ∈ [.decodeCorruption, .truncatedStream, .sizeMismatch])
  | overflows (hstep : coreStep s = .next (raiseError .capacityExceeded s))
      (hcfg : s.cfg ≠ Capacities.infinite)

section
variable {s t u : State} {i : Instr} {c m : Nat} {e : ErrCode}

/-! ### The CORE's own step and its run -/

theorem coreStep_of_microRun (hi : microOp s.phase = some i) {x : Run State} (h : microRun i s = x) :
    coreStep s = conclude s x := by
  rw [coreStep_micro hi, exec_micro (microOp_isCommand hi), h]

theorem phase_ne_doneErr (hi : microOp s.phase = some i) : s.phase ≠ .doneErr := by
  intro hp
  rw [hp] at hi
  cases hi

/-- A micro-operation of ENC that leads back into its loop, or out of it at the end. -/
theorem Turn.of_encoder (hi : microOp s.phase = some i) (he : isEncoder i = true)
    (hrun : microRun i s = .ok t) (hunbounded : microRun i s.unbounded = .ok t.unbounded) (hloop : EncLoop t)
    (hdict : Invariant s → t.cfg.dictCap.fits t.hid.eNext = true) (hturns : turnsLeft s = turnsLeft t + 1) :
    Turn s := by
  obtain ⟨hframe, hphase, -⟩ := microRun_encoder he hrun
  have hcases : t.phase = .doneOk ∨ t.phase ∈ [.encSym, .encFinal, .encFlush] := by
    simp only [List.mem_cons, List.not_mem_nil, or_false] at hphase ⊢
    tauto
  refine .goes t (coreStep_of_microRun hi hrun) (coreStep_of_microRun (s := s.unbounded) hi hunbounded)
    (hcases.imp_right fun hp => .encoder hp hloop) (by omega)
    (fun _ => ⟨hturns, hcases.imp_right (List.mem_cons_of_mem _)⟩)
    (fun h => h.of_encLoop (phase_ne_doneErr hi) hframe hphase hloop (hdict h))

/-- A micro-operation of DEC that leads into its loop. -/
theorem Turn.of_decoder (hi : microOp s.phase = some i) (hs : s.phase ∈ [.decInit, .decFirst, .decNext])
    (hrun : microRun i s = .ok t) (hunbounded : microRun i s.unbounded = .ok t.unbounded)
    (hframe : t = { s with hid := s.hid.withDecoder t.hid, phase := t.phase })
    (ht : t.phase ∈ [.decFirst, .decNext, .decFinish]) (hloop : DecLoop t)
    (hdict : Invariant s → t.cfg.dictCap.fits t.hid.dNext = true) (hturns : turnsLeft t < turnsLeft s) :
    Turn s := by
  refine .goes t (coreStep_of_microRun hi hrun) (coreStep_of_microRun (s := s.unbounded) hi hunbounded)
    (.inr (.decoder ht hloop)) hturns (fun hp => ?_) fun h => h.of_decLoop hs hframe ht hloop (hdict h)
  simp only [encPhases, List.mem_cons, List.not_mem_nil, or_false] at hs hp
  rcases hs with hs | hs | hs <;> simp [hs] at hp

/-- A micro-operation that raises an error of the stream. -/
theorem Turn.of_raise (hi : microOp s.phase = some i) (hrun : microRun i s = .error (.raise e))
    (hunbounded : microRun i s.unbounded = .error (.raise e))
    (he : e ∈ [.decodeCorruption, .truncatedStream, .sizeMismatch]) : Turn s :=
  .fails e (coreStep_of_microRun hi hrun) (coreStep_of_microRun (s := s.unbounded) hi hunbounded) he

/-- A micro-operation that finds a capacity exceeded, which is then no infinite one. -/
theorem Turn.of_overflow (hi : microOp s.phase = some i)
    (hrun : microRun i s = .error (.raise .capacityExceeded))
    (hfull : (∃ n, s.cfg.inCap.fits n = false) ∨ (∃ n, s.cfg.outCap.fits n = false) ∨
      ∃ n, s.cfg.dictCap.isFull n = true) : Turn s := by
  refine .overflows (coreStep_of_microRun hi hrun) fun hcfg => ?_
  rw [hcfg] at hfull
  rcases hfull with ⟨n, hn⟩ | ⟨n, hn⟩ | ⟨n, hn⟩ <;> cases hn

/-! ### ENCODE -/

theorem turn_encInit (hp : s.phase = .encInit) (hout : OutOk s) : Turn s := by
  have hi : microOp s.phase = some .encInit := by rw [hp]; rfl
  cases hin : s.cfg.inCap.fits s.inLen with
  | false => exact .of_overflow hi (encInit_full hin) (.inl ⟨_, hin⟩)
  | true =>
    refine .of_encoder hi rfl ((encInit_eq s).trans (if_pos hin))
      ((encInit_eq s.unbounded).trans (if_pos rfl)) (encLoop_encStarted hin hout)
      (fun h => h.capacities.dictCap_fits) ?_
    rw [turnsLeft, hp]
    rfl

theorem EncLoop.turn_encSym (h : EncLoop s) (hp : s.phase = .encSym) : Turn s := by
  have hi : microOp s.phase = some .encSym := by rw [hp]; rfl
  have hturns : turnsLeft s = s.inLen - s.hid.ip + 3 := by rw [turnsLeft, hp]; rfl
  rcases Nat.lt_or_eq_of_le h.ipInside with hip | hend
  · rcases hk : s.hid.fdict.code? (s.hid.omega ++ [s.inValue s.hid.ip]) with _ | d
    · obtain ⟨c, hc⟩ := h.matched.exists_code hk
      have hfull (hfull : s.cfg.outCap.fits (s.outLen + (s.hid.cnt + s.hid.eWidth) / 8) = false ∨
          s.cfg.dictCap.isFull s.hid.eNext = true) : Turn s :=
        .of_overflow hi (encSym_overflows hip h.inFits hk hc h.out.fits hfull)
          (.inr (hfull.imp (⟨_, ·⟩) (⟨_, ·⟩)))
      cases hroom : s.cfg.outCap.fits (s.outLen + (s.hid.cnt + s.hid.eWidth) / 8) with
      | false => exact hfull (.inl hroom)
      | true =>
        cases hdict : s.cfg.dictCap.isFull s.hid.eNext with
        | true => exact hfull (.inr hdict)
        | false =>
          refine .of_encoder hi rfl (encSym_learns hip h.inFits hk hc hroom hdict)
            (encSym_learns (s := s.unbounded) hip rfl hk hc rfl rfl) (h.missed hip hk hc hroom)
            (fun hinv => Cap.fits_of_not_full hinv.hidden.eNext.2 hdict) ?_
          rw [hturns]
          change _ = s.inLen - (s.hid.ip + 1) + 3 + 1
          omega
    · have hsome : (s.hid.fdict.code? (s.hid.omega ++ [s.inValue s.hid.ip])).isSome := hk ▸ rfl
      refine .of_encoder hi rfl (encSym_hit hip.ne (Cap.hasIndex_of_lt h.inFits hip) hsome)
        (encSym_hit (s := s.unbounded) hip.ne rfl hsome) (h.hit hip hsome) (fun hinv => hinv.hidden.eNext.2) ?_
      rw [hturns]
      change _ = s.inLen - (s.hid.ip + 1) + 3 + 1
      omega
  · refine .of_encoder hi rfl (encSym_end hend) (encSym_end (s := s.unbounded) hend) (h.withPhase _)
      (fun hinv => hinv.hidden.eNext.2) ?_
    rw [hturns, hend, Nat.sub_self]
    rfl

theorem EncLoop.turn_encFinal (h : EncLoop s) (hp : s.phase = .encFinal) : Turn s := by
  have hi : microOp s.phase = some .encFinal := by rw [hp]; rfl
  have hturns : turnsLeft s = 1 + 1 := by rw [turnsLeft, hp]; rfl
  by_cases ho : s.hid.omega = []
  · exact .of_encoder hi rfl (encFinal_empty ho) (encFinal_empty (s := s.unbounded) ho) (h.withPhase _)
      (fun hinv => hinv.hidden.eNext.2) hturns
  · obtain ⟨c, hc⟩ := Option.isSome_iff_exists.mp (h.matched.key.resolve_left ho)
    cases hroom : s.cfg.outCap.fits (s.outLen + (s.hid.cnt + s.hid.eWidth) / 8) with
    | false => exact .of_overflow hi (encFinal_overflows ho hc h.out.fits hroom) (.inr (.inl ⟨_, hroom⟩))
    | true =>
      exact .of_encoder hi rfl (encFinal_emits ho hc hroom) (encFinal_emits (s := s.unbounded) ho hc rfl)
        ((h.put hc hroom).withPhase _) (fun hinv => hinv.hidden.eNext.2) hturns

theorem EncLoop.turn_encFlush (h : EncLoop s) (hp : s.phase = .encFlush) : Turn s := by
  have hi : microOp s.phase = some .encFlush := by rw [hp]; rfl
  have hturns : turnsLeft s = 0 + 1 := by rw [turnsLeft, hp]; rfl
  cases hroom : s.cfg.outCap.fits (s.outLen + (s.hid.cnt + 7) / 8) with
  | false => exact .of_overflow hi (encFlush_overflows h.out.fits hroom) (.inr (.inl ⟨_, hroom⟩))
  | true =>
    exact .of_encoder hi rfl (encFlush_ok hroom) (encFlush_ok (s := s.unbounded) rfl)
      ((h.drained hroom).withPhase _) (fun hinv => hinv.hidden.eNext.2) hturns

/-! ### DECODE -/

theorem turn_decInit (hp : s.phase = .decInit) : Turn s := by
  have hi : microOp s.phase = some .decInit := by rw [hp]; rfl
  cases hin : s.cfg.inCap.fits s.inLen with
  | false => exact .of_overflow hi (decInit_full (.inl hin)) (.inl ⟨_, hin⟩)
  | true =>
    cases hneed : s.cfg.outCap.fits s.need with
    | false => exact .of_overflow hi (decInit_full (.inr hneed)) (.inr (.inl ⟨_, hneed⟩))
    | true =>
      have hrun : decInit s = .ok (decStarted s) :=
        (decInit_eq s).trans (if_pos (Bool.and_eq_true_iff.mpr ⟨hin, hneed⟩))
      refine .of_decoder hi (by simp [hp]) hrun ((decInit_eq s.unbounded).trans (if_pos rfl))
        (decInit_frame hrun) (by simp [decStarted]) (decLoop_decStarted hin hneed)
        (fun h => h.capacities.dictCap_fits) ?_
      rw [turnsLeft, turnsLeft, hp]
      change (0 + 8 * (s.inLen - 0)) / 9 + 2 < 8 * s.inLen / 9 + 3
      omega

/-- The state after BB.GET has found the end of the stream (`40_bitbuffer.md` R107). -/
def exhausted (s : State) : State :=
  { s with
    hid := { s.hid with
      got := none
      acc := pending s (s.inLen - s.hid.ip)
      cnt := s.hid.cnt + 8 * (s.inLen - s.hid.ip)
      ip := s.inLen } }

/-- What BB.GET reads does not depend on the capacities. -/
theorem pending_unbounded (s : State) (n : Nat) : pending s.unbounded n = pending s n := by
  have hbytes : inBytes s.unbounded s.hid.ip n = inBytes s s.hid.ip n := 
    inBytes_congr (s := s) (t := s.unbounded) rfl rfl _ _
  exact congrArg (fun q => s.hid.acc + leValue q * 2 ^ s.hid.cnt) hbytes

theorem exhausted_unbounded (s : State) : exhausted s.unbounded = (exhausted s).unbounded := by
  rw [exhausted, pending_unbounded]
  rfl

theorem codeTaken_unbounded (w m : Nat) (s : State) :
    codeTaken w m s.unbounded = (codeTaken w m s).unbounded := by
  rw [codeTaken, pending_unbounded]
  rfl

/-- BB.GET reads a whole code, on every CORE the same (`40_bitbuffer.md` R106). -/
theorem DecLoop.bbGet_whole (h : DecLoop s)
    (hwhole : s.hid.ip + (s.hid.dWidth - s.hid.cnt + 7) / 8 ≤ s.inLen) :
    bbGet s.hid.dWidth s = .ok (codeTaken s.hid.dWidth ((s.hid.dWidth - s.hid.cnt + 7) / 8) s) ∧
      bbGet s.unbounded.hid.dWidth s.unbounded =
        .ok (codeTaken s.hid.dWidth ((s.hid.dWidth - s.hid.cnt + 7) / 8) s).unbounded :=
  ⟨bbGet_code h.inFits h.accBelow hwhole,
    (bbGet_code (s := s.unbounded) rfl h.accBelow hwhole).trans
      (congrArg Except.ok (codeTaken_unbounded _ _ s))⟩

/-- A code up to d_next has an entry, which is not empty (`10_state.md` R34, R35). -/
theorem DecLoop.exists_entry (h : DecLoop s) (hs : s.hid.s ≠ []) (hc : c ≤ s.hid.dNext) :
    ∃ k q, c < s.hid.dNext ∧ Reverse.seq? s.hid.rdict c = some (k :: q) ∨
      c = s.hid.dNext ∧ ∃ r, s.hid.s = k :: r ∧ q = r ++ [k] := by
  rcases Nat.lt_or_eq_of_le hc with hlt | heq
  · obtain ⟨p, hp, hne⟩ := (h.dictOk.present_iff c).1 hlt
    obtain ⟨k, q, rfl⟩ := List.exists_cons_of_ne_nil hne
    exact ⟨k, q, .inl ⟨hlt, hp⟩⟩
  · obtain ⟨k, r, hr⟩ := List.exists_cons_of_ne_nil hs
    exact ⟨k, r ++ [k], .inr ⟨heq, r, hr, rfl⟩⟩

/-- At the end of the stream DEC.FIRST and DEC.NEXT hand over (`42_decoder.md` R142, R146). -/
theorem DecLoop.turn_end (h : DecLoop s) (first : Bool) (hi : microOp s.phase = some i)
    (hread : ∀ u, microRun i u = readCode first u) (hs : s.phase = .decFirst ∨ s.phase = .decNext)
    (hend : s.inLen < s.hid.ip + (s.hid.dWidth - s.hid.cnt + 7) / 8) : Turn s := by
  have hget : bbGet s.hid.dWidth s = .ok (exhausted s) := bbGet_none h.inFits h.accBelow h.ipInside hend
  have hgetU : bbGet s.unbounded.hid.dWidth s.unbounded = .ok (exhausted s).unbounded :=
    (bbGet_none (s := s.unbounded) rfl h.accBelow h.ipInside hend).trans
      (congrArg Except.ok (exhausted_unbounded s))
  have hrun := readCode_end (first := first) hget rfl
  have hip := h.ipInside
  refine .of_decoder hi ?_ ((hread s).trans hrun) ((hread _).trans (readCode_end hgetU rfl))
    (readCode_frame hrun).1 (by simp) ?_ (fun hinv => hinv.hidden.dNext.2) ?_
  · rcases hs with hs | hs <;> simp [hs]
  · refine ⟨h.inFits, h.needFits, Nat.le_refl _, pending_lt _ h.accBelow, h.dictOk, h.width, nofun, nofun,
      fun _ => ⟨?_, rfl⟩⟩
    change s.hid.cnt + 8 * (s.inLen - s.hid.ip) < s.hid.dWidth
    omega
  · change 1 < turnsLeft s
    have : turnsLeft s = (s.hid.cnt + 8 * (s.inLen - s.hid.ip)) / 9 + 2 := by
      rcases hs with hs | hs <;> rw [turnsLeft, hs] <;> rfl
    omega

/-- A code of the stream that leads to DEC.NEXT is a turn, whatever it does to `s`, `res` and the dictionary:
its bits, nine or more, are gone. -/
theorem DecLoop.turn_code (h : DecLoop s) (first : Bool) (hi : microOp s.phase = some i)
    (hread : ∀ u, microRun i u = readCode first u) (hs : s.phase = .decFirst ∨ s.phase = .decNext)
    (hwhole : s.hid.ip + (s.hid.dWidth - s.hid.cnt + 7) / 8 ≤ s.inLen)
    (hrun : readCode first s = .ok t) (hunbounded : readCode first s.unbounded = .ok t.unbounded)
    (hbits : t.hid.ip = s.hid.ip + (s.hid.dWidth - s.hid.cnt + 7) / 8 ∧
      t.hid.cnt = s.hid.cnt + 8 * ((s.hid.dWidth - s.hid.cnt + 7) / 8) - s.hid.dWidth ∧
      t.hid.acc = pending s ((s.hid.dWidth - s.hid.cnt + 7) / 8) >>> s.hid.dWidth)
    (hphase : t.phase = .decNext) (hok : Reverse.Ok t.hid.rdict t.hid.dNext)
    (hwidth : t.hid.dWidth = decWidthFor t.hid.dNext) (hprev : t.hid.s ≠ [])
    (hdict : Invariant s → t.cfg.dictCap.fits t.hid.dNext = true) : Turn s := by
  obtain ⟨hip, hcnt, hacc⟩ := hbits
  have hframe := (readCode_frame hrun).1
  have hcfg : t.cfg = s.cfg := by rw [hframe]
  have hlen : t.inLen = s.inLen := by rw [hframe]
  have hneed : t.need = s.need := by rw [hframe]; rfl
  have hsmall := h.cnt_lt hs
  have hnine := h.nine_le
  refine .of_decoder hi ?_ ((hread s).trans hrun) ((hread _).trans hunbounded) hframe (by simp [hphase]) ?_
    hdict ?_
  · rcases hs with hs | hs <;> simp [hs]
  · refine ⟨?_, ?_, ?_, ?_, hok, hwidth, fun hp => ?_, fun _ => ⟨?_, hprev⟩, fun hp => ?_⟩
    · rw [hcfg, hlen]; exact h.inFits
    · rw [hcfg, hneed]; exact h.needFits
    · rw [hip, hlen]; exact hwhole
    · rw [hacc, hcnt]; exact shiftRight_lt _ (pending_lt _ h.accBelow)
    · rw [hphase] at hp; cases hp
    · rw [hcnt]; omega
    · rw [hphase] at hp; cases hp
  · have hturns : turnsLeft s = (s.hid.cnt + 8 * (s.inLen - s.hid.ip)) / 9 + 2 := by
      rcases hs with hs | hs <;> rw [turnsLeft, hs] <;> rfl
    have hturns' : turnsLeft t = (t.hid.cnt + 8 * (t.inLen - t.hid.ip)) / 9 + 2 := by
      rw [turnsLeft, hphase]
      rfl
    rw [hturns, hturns', hip, hcnt, hlen]
    omega

theorem DecLoop.turn_decFirst (h : DecLoop s) (hp : s.phase = .decFirst) : Turn s := by
  have hi : microOp s.phase = some .decFirst := by rw [hp]; rfl
  by_cases hwhole : s.hid.ip + (s.hid.dWidth - s.hid.cnt + 7) / 8 ≤ s.inLen
  · obtain ⟨hget, hgetU⟩ := h.bbGet_whole hwhole
    by_cases hlit : lowbits (pending s ((s.hid.dWidth - s.hid.cnt + 7) / 8)) s.hid.dWidth < 256
    · have hseq := h.dictOk.literal hlit
      exact h.turn_code true hi (fun _ => rfl) (.inl hp) hwhole (decFirst_literal hget rfl hlit hseq)
        (decFirst_literal hgetU rfl hlit hseq) ⟨rfl, rfl, rfl⟩ rfl h.dictOk h.width (List.cons_ne_nil _ _)
        (fun hinv => hinv.hidden.dNext.2)
    · have hbig := Nat.not_lt.mp hlit
      exact .of_raise hi (decFirst_corrupt hget rfl hbig) (decFirst_corrupt hgetU rfl hbig) (by simp)
  · exact h.turn_end true hi (fun _ => rfl) (.inl hp) (Nat.not_le.mp hwhole)

theorem DecLoop.turn_decNext (h : DecLoop s) (hp : s.phase = .decNext) : Turn s := by
  have hi : microOp s.phase = some .decNext := by rw [hp]; rfl
  by_cases hwhole : s.hid.ip + (s.hid.dWidth - s.hid.cnt + 7) / 8 ≤ s.inLen
  · obtain ⟨hget, hgetU⟩ := h.bbGet_whole hwhole
    have hn := h.dictOk.le
    have hread := readCode_code (first := false) hget rfl
    have hreadU := readCode_code (first := false) hgetU rfl
    rcases Nat.lt_or_ge s.hid.dNext (lowbits (pending s ((s.hid.dWidth - s.hid.cnt + 7) / 8)) s.hid.dWidth) with
      habove | hle
    · exact .of_raise hi (hread.trans (classCode_above hn habove)) (hreadU.trans (classCode_above hn habove))
        (by simp)
    · obtain ⟨k, q, hentry⟩ := h.exists_entry (h.atNext hp).2 hle
      have hw : s.hid.dNext < 2 ^ s.hid.dWidth := h.width ▸ lt_two_pow_decWidthFor _
      have hprocess := hread.trans (classCode_entry hn hentry)
      cases hdict : s.cfg.dictCap.isFull s.hid.dNext with
      | true =>
        exact .of_overflow hi (hprocess.trans (processEntry_full hw hdict)) (.inr (.inr ⟨_, hdict⟩))
      | false =>
        refine h.turn_code false hi (fun _ => rfl) (.inr hp) hwhole (hprocess.trans (processEntry_ok hw hdict))
          ((hreadU.trans (classCode_entry hn hentry)).trans (processEntry_ok hw rfl)) ⟨rfl, rfl, rfl⟩ rfl
          ⟨rfl, by simp, h.dictOk⟩ ?_ (List.cons_ne_nil _ _)
          (fun hinv => Cap.fits_of_not_full hinv.hidden.dNext.2 hdict)
        change grownDecWidth (s.hid.dNext + 1) s.hid.dWidth = decWidthFor (s.hid.dNext + 1)
        rw [h.width, grownDecWidth_decWidthFor]
  · exact h.turn_end false hi (fun _ => rfl) (.inr hp) (Nat.not_le.mp hwhole)

/-- The state after DEC.FINISH has delivered the result (`42_decoder.md` R155). -/
def delivered (s : State) : State :=
  { s with
    outBuf := loadBytes 0 (s.hid.res.take s.need) s.outBuf
    outLen := s.need
    phase := .doneOk }

/-- A result delivered into an empty OUT keeps the invariant. -/
theorem Invariant.delivered (h : Invariant s) (hp : s.phase = .decFinish) (hlen : s.need ≤ s.hid.res.length)
    (hfits : s.cfg.outCap.fits s.need = true) : Invariant (delivered s) := by
  have hbytes : (s.hid.res.take s.need).length = s.need := List.length_take_of_le hlen
  have hlisted : s.outBuf.map Prod.fst = List.range 0 := by
    rw [← h.noLength (by simp [hp])]
    exact h.outListed (by simp [hp])
  have hout : OutOk (Machine.delivered s) := by
    refine ⟨hfits, loadBytes_ok _ h.outOk (by rwa [hbytes, Nat.zero_add]), ?_⟩
    have hkeys := loadBytes_keys (s.hid.res.take s.need) hlisted
    rwa [hbytes, Nat.zero_add] at hkeys
  exact h.of_run (by simp [hp]) (by simp [Machine.delivered]) rfl h.hidden hout
    (by simp [Machine.delivered]) (by simp [Machine.delivered]) (by simp [Machine.delivered])

theorem DecLoop.turn_decFinish (h : DecLoop s) (hp : s.phase = .decFinish) : Turn s := by
  have hi : microOp s.phase = some .decFinish := by rw [hp]; rfl
  rcases Nat.lt_or_ge s.hid.res.length s.need with hshort | hlen
  · by_cases hleft : s.inLen = 0 ∨ 0 < s.hid.cnt
    · exact .of_raise hi (decFinish_truncated hshort hleft)
        (decFinish_truncated (s := s.unbounded) hshort hleft) (by simp)
    · obtain ⟨hin, hcnt⟩ : s.inLen ≠ 0 ∧ s.hid.cnt = 0 := by omega
      exact .of_raise hi (decFinish_mismatch hshort hin hcnt)
        (decFinish_mismatch (s := s.unbounded) hshort hin hcnt) (by simp)
  · refine .goes (delivered s) (coreStep_of_microRun hi (decFinish_ok h.needFits hlen))
      (coreStep_of_microRun (s := s.unbounded) hi (decFinish_ok (s := s.unbounded) rfl hlen)) (.inl rfl) ?_
      (fun hs => ?_) fun hinv => hinv.delivered hp hlen h.needFits
    · rw [turnsLeft, turnsLeft, hp]
      exact Nat.one_pos
    · simp [encPhases, hp] at hs

/-! ### Every turn -/

theorem Coding.turn (h : Coding s) : Turn s := by
  cases h with
  | encInit hp hout => exact turn_encInit hp hout
  | encoder hp hloop =>
    simp only [List.mem_cons, List.not_mem_nil, or_false] at hp
    rcases hp with hp | hp | hp
    · exact hloop.turn_encSym hp
    · exact hloop.turn_encFinal hp
    · exact hloop.turn_encFlush hp
  | decInit hp => exact turn_decInit hp
  | decoder hp hloop =>
    simp only [List.mem_cons, List.not_mem_nil, or_false] at hp
    rcases hp with hp | hp | hp
    · exact hloop.turn_decFirst hp
    · exact hloop.turn_decNext hp
    · exact hloop.turn_decFinish hp

/-- Every state of the invariant is at rest or inside a command. -/
theorem Invariant.rest_or_coding (h : Invariant s) : microOp s.phase = none ∨ Coding s := by
  have hout (hp : s.phase ≠ .doneErr) : OutOk s := ⟨h.outFits, h.outOk, h.outListed hp⟩
  cases hp : s.phase with
  | idle | doneOk | doneErr => exact .inl rfl
  | encInit => exact .inr (.encInit hp (hout (by simp [hp])))
  | encSym | encFinal | encFlush =>
    have hmem : s.phase ∈ [.encSym, .encFinal, .encFlush] := by simp [hp]
    exact .inr (.encoder hmem (.of_encoderOk (h.encoder hmem) (hout (by simp [hp]))))
  | decInit => exact .inr (.decInit hp)
  | decFirst | decNext | decFinish =>
    have hmem : s.phase ∈ [.decFirst, .decNext, .decFinish] := by simp [hp]
    exact .inr (.decoder hmem (.of_decoderOk (h.decoder hmem)))

/-- From every state of the invariant the CORE's own step answers a state of the invariant. -/
theorem Invariant.coreStep (h : Invariant s) : ∃ t, coreStep s = .next t ∧ Invariant t := by
  rcases h.rest_or_coding with hrest | hcoding
  · exact ⟨s, coreStep_rest hrest, h⟩
  · cases hcoding.turn with
    | goes t hstep _ _ _ _ hkeeps => exact ⟨t, hstep, hkeeps h⟩
    | fails e hstep _ he => exact ⟨_, hstep, h.raise (by rintro rfl; simp at he)⟩
    | overflows hstep _ => exact ⟨_, hstep, h.raise (by decide)⟩

end

/-- Settles O44: the CORE's own step by `Invariant.coreStep`, a command by `Invariant.decodeCmd`, another move of
the host's by `Invariant.hostMove`. -/
theorem stepKeepsTheInvariant : Obligations.StepKeepsTheInvariant := by
  intro s t h hstep
  have hleft (l : List HostMove) : Invariant { s with host := l } := h.congr rfl
  obtain ⟨l, heq⟩ | ⟨v, l, -, -, heq⟩ | ⟨m, l, -, -, heq⟩ := step_cases s
  · obtain ⟨u, hu, hinv⟩ := (hleft l).coreStep
    cases hstep.symm.trans (heq.trans hu)
    exact hinv
  · obtain ⟨u, hu, hinv⟩ := (hleft l).decodeCmd (BitVec.ofNat 8 v)
    cases hstep.symm.trans (heq.trans hu)
    exact hinv
  · exact (hleft l).hostMove (heq.symm.trans hstep)

/-- Settles O45: the same three cases, and `hostMove_answers` for a move with a meaning. -/
theorem theCoreNeverStops : Obligations.TheCoreNeverStops := by
  intro s h hallowed
  have hleft (l : List HostMove) : Invariant { s with host := l } := h.congr rfl
  obtain ⟨l, heq⟩ | ⟨v, l, -, -, heq⟩ | ⟨m, l, hhost, hcmd, heq⟩ := step_cases s
  · obtain ⟨u, hu, -⟩ := (hleft l).coreStep
    exact ⟨u, heq.trans hu⟩
  · obtain ⟨u, hu, -⟩ := (hleft l).decodeCmd (BitVec.ofNat 8 v)
    exact ⟨u, heq.trans hu⟩
  · obtain ⟨u, hu⟩ := hostMove_answers (moveAllowed_host (hallowed m l hhost)) hcmd
    exact ⟨u, heq.trans hu⟩

end Sys2Proof.Machine
end

section
/-! SUPPORT. Runs of a command, turn by turn: they end in time (`44_properties.md` R192, `70_reset_and_hazards.md`
R246), and no capacity changes their result (`43_commands.md` R176, R177). -/

namespace Sys2Proof.Machine

section
variable {s t : State} {k : Nat} {e : ErrCode}

/-! ### The machine's run is the CORE's -/

/-- The CORE's own step leaves its capacities and the host's moves alone (`10_state.md` R40). -/
theorem coreStep_keeps (h : coreStep s = .next t) : t.cfg = s.cfg ∧ t.host = s.host := by
  cases hi : microOp s.phase with
  | none =>
    rw [coreStep_rest hi] at h
    cases h
    exact ⟨rfl, rfl⟩
  | some i =>
    rw [coreStep_micro hi] at h
    obtain ⟨hcfg, -, -, -, -, hhost, -⟩ := instructionsKeepTheOperands i s t h
    exact ⟨hcfg, hhost⟩

section
variable {M : Host.Core} {a b : M.State} {f : M.Fault} {r : M.Refusal}

theorem run_of_next (h : M.step a = .next b) : M.run (k + 1) a = M.run k b := by rw [Host.Core.run, h]

theorem run_of_fault (h : M.step a = .fault f) : M.run (k + 1) a = .fault f := by rw [Host.Core.run, h]

theorem run_of_refused (h : M.step a = .refused r) : M.run (k + 1) a = .refused r := by rw [Host.Core.run, h]

end

/-- With no move of the host the machine's run is the CORE's. -/
theorem core_run_eq (k : Nat) (h : s.host = []) : core.run k s = coreRun k s := by
  induction k generalizing s with
  | zero => rfl
  | succ k ih =>
    have hstep : core.step s = coreStep s := step_alone h
    rw [coreRun]
    cases hcore : coreStep s with
    | next t => exact (run_of_next (hstep.trans hcore)).trans (ih ((coreStep_keeps hcore).2.trans h))
    | fault f => exact run_of_fault (hstep.trans hcore)
    | refused r => exact run_of_refused (hstep.trans hcore)

/-- The command has ended. -/
def State.ended (s : State) : Prop := s.phase = .doneOk ∨ s.phase = .doneErr

theorem coreRun_ended (h : s.ended) (k : Nat) : coreRun k s = .next s :=
  coreRun_still (by rcases h with hp | hp <;> rw [hp] <;> rfl) k

/-! ### A command ends in time -/

theorem Coding.turnsLeft_pos (h : Coding s) : 0 < turnsLeft s := by
  cases h with
  | encInit hp | decInit hp => rw [turnsLeft, hp]; exact Nat.succ_pos _
  | encoder hp | decoder hp =>
    simp only [List.mem_cons, List.not_mem_nil, or_false] at hp
    rcases hp with hp | hp | hp <;> rw [turnsLeft, hp] <;> exact Nat.succ_pos _

/-- A command ends within the turns it has left (`43_commands.md` R178). -/
theorem Coding.ends (h : Coding s) (hk : turnsLeft s ≤ k) : ∃ t, coreRun k s = .next t ∧ t.ended := by
  induction k generalizing s with
  | zero => exact absurd h.turnsLeft_pos (Nat.not_lt.mpr hk)
  | succ k ih =>
    cases h.turn with
    | goes t hstep _ hnext hturns =>
      rw [coreRun_succ hstep]
      rcases hnext with hdone | hcoding
      · exact ⟨t, coreRun_ended (.inl hdone) k, .inl hdone⟩
      · exact ih hcoding (by omega)
    | fails e hstep => exact ⟨_, (coreRun_succ hstep).trans (coreRun_ended (.inr rfl) k), .inr rfl⟩
    | overflows hstep => exact ⟨_, (coreRun_succ hstep).trans (coreRun_ended (.inr rfl) k), .inr rfl⟩

/-- ENCODE does not end with its result before its turns are over (`44_properties.md` R192). -/
theorem Coding.not_early (h : Coding s) (hs : s.phase ∈ encPhases) (hk : k < turnsLeft s)
    (hrun : coreRun k s = .next t) : t.phase ≠ .doneOk := by
  induction k generalizing s with
  | zero =>
    cases hrun
    intro hp
    rw [hp] at hs
    simp [encPhases] at hs
  | succ k ih =>
    cases h.turn with
    | goes u hstep _ hnext _ hencoder =>
      rw [coreRun_succ hstep] at hrun
      obtain ⟨hturns, hphase⟩ := hencoder hs
      have hdone : u.phase ≠ .doneOk := by
        intro hp
        have : turnsLeft u = 0 := by rw [turnsLeft, hp]; rfl
        omega
      exact ih (hnext.resolve_left hdone) (hphase.resolve_left hdone) (by omega) hrun
    | fails e hstep =>
      rw [coreRun_succ hstep, coreRun_ended (.inr rfl)] at hrun
      cases hrun
      simp
    | overflows hstep =>
      rw [coreRun_succ hstep, coreRun_ended (.inr rfl)] at hrun
      cases hrun
      simp

end

/-- Settles O53: from ENC.INIT the turns left are N + 4. -/
theorem encodeEndsInTime : Obligations.EncodeEndsInTime := by
  intro s h hp hhost
  have hcoding : Coding s := h.rest_or_coding.resolve_left (by rw [hp]; simp [microOp])
  have hturns : turnsLeft s = s.inLen + 4 := by rw [turnsLeft, hp]; rfl
  simp only [core_run_eq _ hhost]
  exact ⟨hcoding.ends hturns.le, fun k t hk => hcoding.not_early (by simp [encPhases, hp]) (hturns ▸ hk)⟩

/-- Settles O54: from DEC.INIT the turns left are at most floor(8 M / 9) + 3. -/
theorem decodeEndsInTime : Obligations.DecodeEndsInTime := by
  intro s h hp hhost
  have hcoding : Coding s := h.rest_or_coding.resolve_left (by rw [hp]; simp [microOp])
  have hturns : turnsLeft s = 8 * s.inLen / 9 + 3 := by rw [turnsLeft, hp]; rfl
  rw [core_run_eq _ hhost]
  exact hcoding.ends hturns.le

/-! ### The result of a command -/

section
variable {s t : State} {k : Nat} {e : ErrCode}

theorem commandResult_succ (h : coreStep s = .next t) : commandResult (k + 1) s = commandResult k t := by
  rw [commandResult, coreRun_succ h, commandResult]

/-- A command that has ended with its result has it for good. -/
theorem commandResult_doneOk (h : s.phase = .doneOk) : commandResult k s = some (.ok s.resultBytes) :=
  commandResult_of_done (j := 0) rfl h (Nat.zero_le k)

/-- A command that has ended with an error has it for good. -/
theorem commandResult_doneErr (h : s.phase = .doneErr) : commandResult k s = some (.error s.err) := by
  rw [commandResult, coreRun_ended (.inr h)]
  simp [h]

/-- Every turn is the one infinite capacities give, but for CapacityExceeded (`43_commands.md` R176, R177). -/
theorem Coding.result_unbounded (h : Coding s) :
    commandResult k s = commandResult k s.unbounded ∨
      commandResult k s = some (.error .capacityExceeded) := by
  induction k generalizing s with
  | zero => exact .inl rfl
  | succ k ih =>
    cases h.turn with
    | goes t hstep hunbounded hnext =>
      rw [commandResult_succ hstep, commandResult_succ hunbounded]
      rcases hnext with hdone | hcoding
      · rw [commandResult_doneOk hdone, commandResult_doneOk (s := t.unbounded) hdone]
        exact .inl rfl
      · exact ih hcoding
    | fails e hstep hunbounded =>
      rw [commandResult_succ hstep, commandResult_succ hunbounded, commandResult_doneErr rfl,
        commandResult_doneErr rfl]
      exact .inl rfl
    | overflows hstep =>
      rw [commandResult_succ hstep, commandResult_doneErr rfl]
      exact .inr rfl

/-- With infinite capacities a command ends with a result or with an error of the stream. -/
theorem Coding.result_of_infinite (h : Coding s) (hcfg : s.cfg = Capacities.infinite) (hk : turnsLeft s ≤ k) :
    (∃ out, commandResult k s = some (.ok out)) ∨
      ∃ e ∈ [ErrCode.decodeCorruption, .truncatedStream, .sizeMismatch],
        commandResult k s = some (.error e) := by
  induction k generalizing s with
  | zero => exact absurd h.turnsLeft_pos (Nat.not_lt.mpr hk)
  | succ k ih =>
    cases h.turn with
    | goes t hstep _ hnext hturns =>
      rw [commandResult_succ hstep]
      rcases hnext with hdone | hcoding
      · exact .inl ⟨_, commandResult_doneOk hdone⟩
      · exact ih hcoding ((coreStep_keeps hstep).1.trans hcfg) (by omega)
    | fails e hstep _ he =>
      rw [commandResult_succ hstep, commandResult_doneErr rfl]
      exact .inr ⟨e, he, rfl⟩
    | overflows _ hfinite => exact absurd hcfg hfinite

end

/-- The CORE that runs ENCODE of `bytes` as the function encode has it (`43_commands.md` R176). -/
def encodeStart (cfg : Capacities) (bytes : ByteSeq) : State :=
  startCommand .encInit { withOperands cfg bytes 0 0 with cmd := 0x01 }

/-- The CORE that runs DECODE of `bytes` as the function decode has it (`43_commands.md` R177). -/
def decodeStart (cfg : Capacities) (bytes : ByteSeq) (rows cols : Nat) : State :=
  startCommand .decInit { withOperands cfg bytes rows cols with cmd := 0x02 }

section
variable (cfg : Capacities) (bytes : ByteSeq) (rows cols : Nat)

theorem encodeOn_eq : encodeOn cfg bytes = commandResult (bytes.length + 4) (encodeStart cfg bytes) := rfl

theorem decodeOn_eq : decodeOn cfg bytes rows cols =
    commandResult (8 * bytes.length / 9 + 3) (decodeStart cfg bytes rows cols) := rfl

theorem coding_encodeStart : Coding (encodeStart cfg bytes) := .encInit rfl (.of_empty rfl rfl)

theorem coding_decodeStart : Coding (decodeStart cfg bytes rows cols) := .decInit rfl

end

/-- Settles O56: turn by turn by `Coding.result_unbounded`; with infinite capacities `encodeBytes_eq` for ENCODE and
`Coding.result_of_infinite` for DECODE. -/
theorem capacitiesNeverChangeAResult : Obligations.CapacitiesNeverChangeAResult :=
  ⟨fun cfg bytes => (coding_encodeStart cfg bytes).result_unbounded,
    fun cfg bytes rows cols => (coding_decodeStart cfg bytes rows cols).result_unbounded,
    fun bytes => ⟨_, encodeBytes_eq bytes⟩,
    fun bytes rows cols => (coding_decodeStart _ bytes rows cols).result_of_infinite rfl (Nat.le_refl _)⟩

end Sys2Proof.Machine
end

section
/-! SUPPORT. How many bits ENCODE emits (`44_properties.md` R191). -/

namespace Sys2Proof.Machine

section
variable {d : Forward} {n m : Nat} {omega q : ByteSeq} {b : Byte}

theorem encWidthFor_le_encWidthFor (h : n ≤ m) : encWidthFor n ≤ encWidthFor m :=
  (encWidthFor_le_iff n _).mpr ⟨nine_le_encWidthFor m, h.trans (le_two_pow_encWidthFor m)⟩

theorem packWidth_emission_le : packWidth (emission d n omega) ≤ encWidthFor n := by
  rw [emission]
  cases d.code? omega with
  | none => exact Nat.zero_le _
  | some c => exact Nat.le_refl _

/-- Every symbol still to come, and the match itself, costs at most one code, of at most the last width. -/
theorem packWidth_codesOf_le :
    packWidth (codesOf d n omega q) ≤ (q.length + 1) * encWidthFor (n + q.length) := by
  induction q generalizing d n omega with
  | nil => rw [codesOf, List.length_nil, Nat.zero_add, Nat.one_mul]; exact packWidth_emission_le
  | cons k q ih =>
    have hcomm : n + 1 + q.length = n + (q.length + 1) := by omega
    rw [codesOf, List.length_cons]
    split
    · calc packWidth (codesOf d n (omega ++ [k]) q)
        _ ≤ (q.length + 1) * encWidthFor (n + q.length) := ih
        _ ≤ (q.length + 1 + 1) * encWidthFor (n + (q.length + 1)) :=
          Nat.mul_le_mul (Nat.le_succ _) (encWidthFor_le_encWidthFor (by omega))
    · calc packWidth (emission d n omega ++ codesOf ((omega ++ [k], n) :: d) (n + 1) [k] q)
        _ = packWidth (emission d n omega) + packWidth (codesOf ((omega ++ [k], n) :: d) (n + 1) [k] q) :=
          packWidth_append _ _
        _ ≤ encWidthFor (n + (q.length + 1)) + (q.length + 1) * encWidthFor (n + (q.length + 1)) :=
          Nat.add_le_add (packWidth_emission_le.trans (encWidthFor_le_encWidthFor (by omega))) (hcomm ▸ ih)
        _ = (q.length + 1 + 1) * encWidthFor (n + (q.length + 1)) := by ring

/-- A match that is a key is emitted in the end. -/
theorem codesOf_ne_nil (h : (d.code? omega).isSome) : codesOf d n omega q ≠ [] := by
  induction q generalizing omega with
  | nil =>
    obtain ⟨c, hc⟩ := Option.isSome_iff_exists.mp h
    rw [codesOf, emission_of_key hc]
    exact List.cons_ne_nil _ _
  | cons k q ih =>
    rcases hk : d.code? (omega ++ [k]) with _ | c
    · obtain ⟨c, hc⟩ := Option.isSome_iff_exists.mp h
      rw [codesOf_miss hk hc]
      exact List.cons_ne_nil _ _
    · rw [codesOf_hit (hk ▸ rfl)]
      exact ih (hk ▸ rfl)

/-- The first symbol is a key of its own, so it only starts the match. -/
theorem streamCodes_cons : streamCodes (b :: q) = codesOf [] 256 [b] q := codesOf_hit rfl

theorem packWidth_streamCodes_le (bytes : ByteSeq) :
    packWidth (streamCodes bytes) ≤ bytes.length * codeWidth bytes.length := by
  cases bytes with
  | nil => exact Nat.zero_le _
  | cons b q =>
    have hwidth : codeWidth (b :: q).length = encWidthFor (256 + q.length) := by
      rw [codeWidth, List.length_cons]
      congr 1
      omega
    rw [streamCodes_cons, hwidth, List.length_cons]
    exact packWidth_codesOf_le

theorem nine_le_packWidth_streamCodes {bytes : ByteSeq} (h : bytes ≠ []) :
    9 ≤ packWidth (streamCodes bytes) := by
  obtain ⟨b, q, rfl⟩ := List.exists_cons_of_ne_nil h
  have hlen := List.length_pos_of_ne_nil (codesOf_ne_nil (omega := [b]) (d := []) (n := 256) (q := q) rfl)
  rw [← streamCodes_cons] at hlen
  have := (streamCodes_fit (b :: q)).nine_mul_length_le
  omega

end

/-- Settles O59: the output is the codes of the bytes packed, at most one for every symbol and at least one. -/
theorem encodedLengthIsBounded : Obligations.EncodedLengthIsBounded := by
  intro bytes stream h
  obtain rfl : packBytes (streamCodes bytes) = stream :=
    Except.ok.inj (Option.some.inj ((encodeBytes_eq bytes).symm.trans h))
  rw [packBytes, leBytes_length]
  have hle := packWidth_streamCodes_le bytes
  refine ⟨by omega, fun hne => ?_⟩
  have := nine_le_packWidth_streamCodes hne
  omega

end Sys2Proof.Machine
end

section
/-! SUPPORT. What a command computes, carried over to another CORE: the micro-operations read IN, IN_LEN, the
extents, the capacities and their own unit's registers, and nothing else (`10_state.md` R41, `43_commands.md` R176). -/

namespace Sys2Proof.Machine

/-- The CORE `r` at the point of the command where `s` stands: all a micro-operation writes, and IN_LEN and the
capacities, are those of `s`; the hidden registers are `h`. -/
def onto (r : State) (h : Hidden) (s : State) : State :=
  { r with
    cfg := s.cfg
    inLen := s.inLen
    outLen := s.outLen
    phase := s.phase
    hid := h
    outBuf := s.outBuf }

/-- The encoder of `s` on the CORE `r`. -/
def encView (r s : State) : State := onto r (r.hid.withEncoder s.hid) s

/-- The decoder of `s` on the CORE `r`, with previous sequence `q` and last answer `g`. -/
def decView (r : State) (q : ByteSeq) (g : Option Nat) (s : State) : State :=
  onto r { r.hid.withDecoder s.hid with s := q, got := g } s

/-- IN holds the same bytes in both, as far as IN_LEN goes. -/
def SameInput (r s : State) : Prop := ∀ i, i < s.inLen → r.inValue i = s.inValue i

section
variable {r s : State} {h : Hidden} {q : ByteSeq} {g : Option Nat} {w : Nat}

theorem inByte_onto {i : Nat} (hin : SameInput r s) (hi : i < s.inLen) : inByte i (onto r h s) = inByte i s := by
  have hvalue : (onto r h s).inValue i = s.inValue i := hin i hi
  rw [inByte, hvalue]
  rfl

/-! ### Two runs side by side -/

section
variable {α β : Type} {x y : Run α} {f f' : α → Run β} {u : β → β}

/-- Sequences agree under a view where both their parts do. -/
theorem bind_map {v : α → α} (hx : y = x.map v) (hf : ∀ a, x = .ok a → f' (v a) = (f a).map u) :
    (y >>= f') = (x >>= f).map u := by
  subst hx
  cases x with
  | ok a => exact hf a rfl
  | error e => rfl

/-- Sequences with the same first part agree under a view where their second parts do. -/
theorem bind_congr_map (hx : y = x) (hf : ∀ a, x = .ok a → f' a = (f a).map u) :
    (y >>= f') = (x >>= f).map u := by
  subst hx
  cases y with
  | ok a => exact hf a rfl
  | error e => rfl

end

/-! ### The encoder -/

theorem outByte_encView (b : Byte) : outByte b (encView r s) = (outByte b s).map (encView r) := by
  refine bind_congr_map rfl fun _ _ => bind_map (v := encView r) ?_ fun _ _ => rfl
  rw [storeOut, storeOut]
  change (if s.cfg.outCap.hasIndex s.outLen then _ else _) = _
  split <;> rfl

theorem drain_encView (n : Nat) : drain n (encView r s) = (drain n s).map (encView r) := by
  induction n generalizing s with
  | zero => rfl
  | succ n ih =>
    exact bind_map (outByte_encView _) fun t _ =>
      ih (s := { t with hid := { t.hid with acc := t.hid.acc >>> 8, cnt := t.hid.cnt - 8 } })

theorem bbPut_encView (c : Nat) : bbPut c w (encView r s) = (bbPut c w s).map (encView r) :=
  drain_encView (s := { s with
    hid := { s.hid with acc := s.hid.acc ||| (c <<< s.hid.cnt), cnt := s.hid.cnt + w } }) _

theorem encInit_onto : encInit (onto r r.hid s) = (encInit s).map (encView r) := by
  rw [encInit_eq, encInit_eq]
  change (if s.cfg.inCap.fits s.inLen then _ else _) = _
  split <;> rfl

theorem encMiss_encView (k : Byte) : encMiss k (encView r s) = (encMiss k s).map (encView r) :=
  bind_congr_map rfl fun _ _ => bind_map (bbPut_encView _) fun _ _ => bind_congr_map rfl fun _ _ => rfl

theorem encSym_encView (hin : SameInput r s) (hip : s.hid.ip ≤ s.inLen) :
    encSym (encView r s) = (encSym s).map (encView r) := by
  rw [encSym, encSym]
  change (if s.hid.ip = s.inLen then _ else _) = _
  split
  · rfl
  · next hne =>
    refine bind_congr_map (inByte_onto (i := s.hid.ip) hin (by omega)) fun k _ => ?_
    change (if s.hid.hit k then _ else _) = Except.map _ (if s.hid.hit k then _ else _)
    split
    · rfl
    · exact encMiss_encView (s := { s with hid := { s.hid with ip := s.hid.ip + 1 } }) k

theorem encFinal_encView : encFinal (encView r s) = (encFinal s).map (encView r) := by
  rw [encFinal, encFinal]
  change (if s.hid.omegaEmpty then _ else _) = _
  split
  · rfl
  · exact bind_congr_map rfl fun _ _ => bind_map (bbPut_encView _) fun _ _ => rfl

theorem encFlush_encView : encFlush (encView r s) = (encFlush s).map (encView r) :=
  bind_map (drain_encView _) fun _ _ => rfl

/-- ENC.SYM does not read past the last byte of IN. -/
theorem encSym_ip {t : State} (hip : s.hid.ip ≤ s.inLen) (h : encSym s = .ok t) : t.hid.ip ≤ t.inLen := by
  rw [encSym] at h
  split at h
  · cases h
    exact hip
  · obtain ⟨k, -, h⟩ := bind_eq_ok h
    dsimp only at h
    split at h
    · cases h
      exact Nat.lt_of_le_of_ne hip ‹_›
    · obtain ⟨c, -, h⟩ := bind_eq_ok h
      obtain ⟨u, hu, h⟩ := bind_eq_ok h
      obtain ⟨_, -, h⟩ := bind_eq_ok h
      cases h
      have hframe := bbPut_frame hu
      rw [learn, hframe]
      exact Nat.lt_of_le_of_ne hip ‹_›

/-! ### The decoder -/

theorem decInit_onto (hneed : r.need = s.need) :
    decInit (onto r r.hid s) = (decInit s).map (decView r r.hid.s r.hid.got) := by
  have hneed : (onto r r.hid s).need = s.need := hneed
  rw [decInit_eq, decInit_eq, hneed]
  change (if s.cfg.inCap.fits s.inLen && s.cfg.outCap.fits s.need then _ else _) = _
  split <;> rfl

theorem fill_decView (hin : SameInput r s) (n : Nat) :
    fill w n (decView r q g s) = (fill w n s).map (decView r q g) := by
  induction n generalizing s with
  | zero => rfl
  | succ n ih =>
    rw [fill, fill]
    change (if w ≤ s.hid.cnt then _ else if s.inLen ≤ s.hid.ip then _ else _) = _
    split
    · rfl
    · split
      · rfl
      · next hip =>
        exact bind_congr_map (inByte_onto (i := s.hid.ip) hin (by omega)) fun b _ =>
          ih (s := { s with
            hid := { s.hid with
              acc := s.hid.acc ||| (b.toNat <<< s.hid.cnt), cnt := s.hid.cnt + 8, ip := s.hid.ip + 1 } }) hin

theorem takeCode_decView :
    takeCode w (decView r q g s) = decView r q (takeCode w s).hid.got (takeCode w s) := by
  rw [takeCode, takeCode]
  change (if s.hid.cnt < w then _ else _) = _
  split <;> rfl

/-- BB.GET does not read its last answer. -/
theorem bbGet_decView (hin : SameInput r s) :
    bbGet w (decView r q g s) = (bbGet w s).map fun t => decView r q t.hid.got t :=
  bind_map (fill_decView hin _) fun _ _ => congrArg Except.ok takeCode_decView

theorem processEntry_decView (entry : ByteSeq) :
    processEntry entry (decView r s.hid.s g s) = (processEntry entry s).map fun t => decView r t.hid.s g t := by
  refine bind_map (v := fun t => decView r s.hid.s g t) ?_ fun _ _ => rfl
  rw [insertEntry, insertEntry]
  change (if s.hid.dNext < 2 ^ s.hid.dWidth then _ else _) = _
  split
  · exact bind_congr_map rfl fun _ _ => bind_congr_map rfl fun _ _ => rfl
  · rfl

/-- A first code does not read the previous sequence, which DEC.INIT leaves unwritten (`42_decoder.md` R140, R142). -/
theorem classCode_decView {first : Bool} {c : Nat} (k : CodeClass) (hq : first = false → q = s.hid.s) :
    classCode k first c (decView r q g s) = (classCode k first c s).map fun t => decView r t.hid.s g t := by
  cases first with
  | true =>
    cases k with
    | literal => exact bind_congr_map rfl fun _ _ => rfl
    | known | selfRef | invalid => rfl
  | false =>
    obtain rfl := hq rfl
    cases k with
    | literal | known | selfRef => exact bind_congr_map rfl fun _ _ => processEntry_decView _
    | invalid => rfl

theorem copyOut_decView (bytes : ByteSeq) (i : Nat) :
    copyOut i bytes (decView r q g s) = (copyOut i bytes s).map (decView r q g) := by
  induction bytes generalizing i s with
  | nil => rfl
  | cons b bytes ih =>
    refine bind_map (v := decView r q g) ?_ fun _ _ => ih _
    rw [storeOut, storeOut]
    change (if s.cfg.outCap.hasIndex i then _ else _) = _
    split <;> rfl

theorem decFinish_decView (hneed : r.need = s.need) :
    decFinish (decView r q g s) = (decFinish s).map (decView r q g) := by
  have hneed : (decView r q g s).need = s.need := hneed
  rw [decFinish, decFinish, hneed]
  exact bind_congr_map rfl fun _ _ => bind_congr_map rfl fun _ _ => bind_map (copyOut_decView _ _) fun _ _ => rfl

end

end Sys2Proof.Machine
end

section
/-! SUPPORT. Two runs of one command side by side: what a command computes depends on its operands and the capacities
alone (`10_state.md` R41, `43_commands.md` R176, R177). -/

namespace Sys2Proof.Machine

section
variable {r s s' t t' u : State} {x y : Run State} {i : Instr} {k : Nat}

/-! ### Twins -/

/-- `s'` is `r` at the point of the command where `s` stands: at INIT with the hidden registers of `r`, whatever they
hold; after it with the registers INIT has set and the command has written since. -/
inductive Twin (r s : State) : State → Prop
  | encInit (hp : s.phase = .encInit) : Twin r s (onto r r.hid s)
  | decInit (hp : s.phase = .decInit) (hneed : r.need = s.need) : Twin r s (onto r r.hid s)
  | encoder (hp : s.phase ∈ [.encSym, .encFinal, .encFlush]) (hip : s.hid.ip ≤ s.inLen) : Twin r s (encView r s)
  | decoder {q : ByteSeq} {g : Option Nat} (hp : s.phase ∈ [.decFirst, .decNext, .decFinish])
      (hneed : r.need = s.need) (hq : s.phase = .decNext → q = s.hid.s) : Twin r s (decView r q g s)
  | ended {h : Hidden} (hp : s.phase = .doneOk) : Twin r s (onto r h s)

theorem Twin.eq_onto (h : Twin r s s') : s' = onto r s'.hid s := by cases h <;> rfl

/-- Two runs of a micro-operation from twins: both go on to twins, or both stop for one reason. -/
inductive Alike (r : State) : Run State → Run State → Prop
  | ok {t t' : State} (h : Twin r t t') : Alike r (.ok t) (.ok t')
  | error (e : Stop) : Alike r (.error e) (.error e)

theorem Alike.of_map {v : State → State} (hy : y = x.map v) (h : ∀ t, x = .ok t → Twin r t (v t)) :
    Alike r x y := by
  subst hy
  cases x with
  | ok t => exact .ok (h t rfl)
  | error e => exact .error e

theorem alike_encInit : Alike r (encInit s) (encInit (onto r r.hid s)) := by
  refine .of_map encInit_onto fun t ht => ?_
  rw [encInit_eq] at ht
  split at ht <;> cases ht
  exact .encoder (by simp) (Nat.zero_le _)

theorem alike_encSym (hin : SameInput r s) (hip : s.hid.ip ≤ s.inLen) :
    Alike r (encSym s) (encSym (encView r s)) := by
  refine .of_map (encSym_encView hin hip) fun t ht => .encoder ?_ (encSym_ip hip ht)
  obtain ⟨-, hp | hp, -⟩ := encSym_frame ht <;> simp [hp]

theorem alike_encFinal (hip : s.hid.ip ≤ s.inLen) : Alike r (encFinal s) (encFinal (encView r s)) := by
  refine .of_map encFinal_encView fun t ht => ?_
  rw [encFinal_frame ht]
  exact .encoder (by simp) hip

theorem alike_encFlush : Alike r (encFlush s) (encFlush (encView r s)) :=
  .of_map encFlush_encView fun t ht => .ended (by rw [encFlush_frame ht])

theorem alike_decInit (hneed : r.need = s.need) : Alike r (decInit s) (decInit (onto r r.hid s)) := by
  refine .of_map (decInit_onto hneed) fun t ht => ?_
  rw [decInit_frame ht]
  exact .decoder (by simp) hneed (by simp)

theorem readCode_stops {first : Bool} {e : Stop} (h : bbGet s.hid.dWidth s = .error e) :
    readCode first s = .error e := by
  rw [readCode, h, error_bind]

theorem alike_readCode {first : Bool} {q : ByteSeq} {g : Option Nat} (hin : SameInput r s)
    (hneed : r.need = s.need) (hq : first = false → q = s.hid.s) :
    Alike r (readCode first s) (readCode first (decView r q g s)) := by
  have hget := bbGet_decView (w := s.hid.dWidth) (q := q) (g := g) hin
  cases hu : bbGet s.hid.dWidth s with
  | error e =>
    rw [hu] at hget
    rw [readCode_stops hu, readCode_stops hget]
    exact .error e
  | ok u =>
    rw [hu] at hget
    have hget : bbGet (decView r q g s).hid.dWidth (decView r q g s) = .ok (decView r q u.hid.got u) := hget
    have hframe := bbGet_frame hu
    have hneed' : r.need = u.need := by rw [hframe]; exact hneed
    cases hgot : u.hid.got with
    | none =>
      rw [readCode_end hu hgot, readCode_end hget hgot]
      exact .ok (.decoder (s := { u with phase := .decFinish }) (by simp) hneed' (by simp))
    | some c =>
      rw [readCode_code hu hgot, readCode_code hget hgot]
      refine .of_map (classCode_decView _ fun hf => ?_) fun t ht => ?_
      · rw [hframe]; exact hq hf
      · have ht := (classCode_frame ht).1
        exact .decoder (by rw [ht]; simp) (by rw [ht]; exact hneed') fun _ => rfl

theorem alike_decFinish {q : ByteSeq} {g : Option Nat} (hneed : r.need = s.need) :
    Alike r (decFinish s) (decFinish (decView r q g s)) :=
  .of_map (decFinish_decView hneed) fun t ht => .ended (by rw [decFinish_frame ht])

theorem Twin.alike (h : Twin r s s') (hin : SameInput r s) (hi : microOp s.phase = some i) :
    Alike r (microRun i s) (microRun i s') := by
  cases h with
  | encInit hp => rw [hp] at hi; cases hi; exact alike_encInit
  | decInit hp hneed => rw [hp] at hi; cases hi; exact alike_decInit hneed
  | encoder hp hip =>
    simp only [List.mem_cons, List.not_mem_nil, or_false] at hp
    rcases hp with hp | hp | hp <;> rw [hp] at hi <;> cases hi
    · exact alike_encSym hin hip
    · exact alike_encFinal hip
    · exact alike_encFlush
  | decoder hp hneed hq =>
    simp only [List.mem_cons, List.not_mem_nil, or_false] at hp
    rcases hp with hp | hp | hp <;> rw [hp] at hi <;> cases hi
    · exact alike_readCode hin hneed (by simp)
    · exact alike_readCode hin hneed fun _ => hq hp
    · exact alike_decFinish hneed
  | ended hp => rw [hp] at hi; cases hi

/-! ### Runs of twins -/

/-- `t` differs from `s` at most in what a micro-operation can write. -/
def Kept (s t : State) : Prop :=
  t = { s with hid := t.hid, outBuf := t.outBuf, outLen := t.outLen, phase := t.phase }

theorem Kept.sameInput (h : Kept s t) (hin : SameInput r s) : SameInput r t := by
  rw [h]
  exact hin

theorem Kept.trans (h : Kept s t) (h' : Kept t u) : Kept s u := by
  unfold Kept at h h' ⊢
  rw [h', h]

/-- How two runs side by side stand: at twins, or after one error raised at twins. -/
inductive Abreast (r s : State) : State → State → Prop
  | twins {t t' : State} (hkept : Kept s t) (h : Twin r t t') : Abreast r s t t'
  | erred {t t' : State} (e : ErrCode) (hkept : Kept s t) (h : Twin r t t') :
      Abreast r s (raiseError e t) (raiseError e t')

theorem Abreast.of_kept (hkept : Kept s u) (h : Abreast r u t t') : Abreast r s t t' := by
  cases h with
  | twins h htwin => exact .twins (hkept.trans h) htwin
  | erred e h htwin => exact .erred e (hkept.trans h) htwin

theorem Twin.phase_eq (h : Twin r s s') : s'.phase = s.phase := by rw [h.eq_onto]; rfl

theorem Twin.step (h : Twin r s s') (hin : SameInput r s) (hstep : coreStep s = .next t) :
    ∃ t', coreStep s' = .next t' ∧ Abreast r s t t' := by
  cases hi : microOp s.phase with
  | none =>
    have hi' : microOp s'.phase = none := h.phase_eq ▸ hi
    rw [coreStep_rest hi] at hstep
    cases hstep
    exact ⟨s', coreStep_rest hi', .twins rfl h⟩
  | some i =>
    have hi' : microOp s'.phase = some i := h.phase_eq ▸ hi
    have halike := h.alike hin hi
    rw [coreStep_of_microRun hi rfl] at hstep
    rw [coreStep_of_microRun hi' rfl]
    obtain hrun | ⟨e, hrun, rfl⟩ := conclude_eq_next hstep
    · rw [hrun] at halike
      cases hrun' : microRun i s' with
      | ok t' =>
        rw [hrun'] at halike
        cases halike with
        | ok htwin => exact ⟨t', rfl, .twins (microRun_frame (microOp_isCommand hi) hrun).1 htwin⟩
      | error e => rw [hrun'] at halike; cases halike
    · rw [hrun] at halike
      generalize microRun i s' = y at halike
      cases halike
      exact ⟨_, rfl, .erred e rfl h⟩

/-- Runs of twins stay abreast. -/
theorem Twin.run (h : Twin r s s') (hin : SameInput r s) (hrun : coreRun k s = .next t) :
    ∃ t', coreRun k s' = .next t' ∧ Abreast r s t t' := by
  induction k generalizing s s' with
  | zero => cases hrun; exact ⟨s', rfl, .twins rfl h⟩
  | succ k ih =>
    cases hstep : coreStep s with
    | next u =>
      obtain ⟨u', hstep', habreast⟩ := h.step hin hstep
      rw [coreRun_succ hstep] at hrun
      rw [coreRun_succ hstep']
      cases habreast with
      | twins hkept htwin =>
        obtain ⟨t', hrun', habreast⟩ := ih htwin (hkept.sameInput hin) hrun
        exact ⟨t', hrun', habreast.of_kept hkept⟩
      | erred e hkept htwin =>
        rw [coreRun_ended (.inr rfl)] at hrun
        cases hrun
        exact ⟨_, coreRun_ended (.inr rfl) k, .erred e hkept htwin⟩
    | fault f => rw [coreRun, hstep] at hrun; cases hrun
    | refused f => rw [coreRun, hstep] at hrun; cases hrun

/-! ### The hidden registers a command starts from -/

/-- A twin in the CORE's own world differs from it in hidden registers alone. -/
theorem Twin.eq_with_hid {h : Hidden} (hkept : Kept s t) (htwin : Twin { s with hid := h } t t') :
    t' = { t with hid := t'.hid } := by
  have honto : onto { s with hid := h } t'.hid t = { t with hid := t'.hid } := by rw [hkept]; rfl
  exact htwin.eq_onto.trans honto

/-- Runs abreast in one world differ in hidden registers alone. -/
theorem Abreast.eq_with_hid {h : Hidden} (habreast : Abreast { s with hid := h } s t t') :
    t' = { t with hid := t'.hid } := by
  cases habreast with
  | twins hkept htwin => exact htwin.eq_with_hid hkept
  | erred e hkept htwin => rw [htwin.eq_with_hid hkept]; rfl

/-! ### The function a command computes -/

theorem Twin.phase_ne_doneErr (h : Twin r s s') : s.phase ≠ .doneErr := by
  rintro he
  cases h with
  | encInit hp | decInit hp | ended hp => rw [hp] at he; cases he
  | encoder hp | decoder hp => simp [he] at hp

theorem Twin.resultBytes_eq (h : Twin r s s') : s'.resultBytes = s.resultBytes := by rw [h.eq_onto]; rfl

theorem commandResult_of_run (h : coreRun k s = .next t) : commandResult k s = commandResult 0 t := by
  rw [commandResult, h]
  rfl

/-- A twin of a command gives the result the command gives. -/
theorem Twin.result (h : Twin r s s') (hin : SameInput r s) (hcoding : Coding s) (hk : turnsLeft s ≤ k) :
    ∃ t', coreRun k s' = .next t' ∧
      (t'.phase = .doneOk ∧ commandResult k s = some (.ok t'.resultBytes) ∨
        t'.phase = .doneErr ∧ commandResult k s = some (.error t'.err)) := by
  obtain ⟨t, hrun, hend⟩ := hcoding.ends hk
  obtain ⟨t', hrun', habreast⟩ := h.run hin hrun
  refine ⟨t', hrun', ?_⟩
  rw [commandResult_of_run hrun]
  cases habreast with
  | twins hkept htwin =>
    have hdone := hend.resolve_right htwin.phase_ne_doneErr
    rw [commandResult_doneOk hdone, htwin.resultBytes_eq]
    exact .inl ⟨htwin.phase_eq.trans hdone, rfl⟩
  | erred e hkept htwin => exact .inr ⟨rfl, commandResult_doneErr rfl⟩

theorem onto_self (hcfg : s.cfg = r.cfg) (hin : s.inLen = r.inLen) (hlen : s.outLen = r.outLen)
    (hp : s.phase = r.phase) (hbuf : s.outBuf = r.outBuf) : onto r r.hid s = r := by
  rw [onto, hcfg, hin, hlen, hp, hbuf]

/-- The bytes the host has written are those the function is given. -/
theorem sameInput_of_read {bytes : ByteSeq} (hin : s.inBuf = loadBytes 0 bytes []) (hlen : s.inLen = bytes.length)
    (hread : ∀ i, i < bytes.length → Memory.read r.inBuf i = bytes[i]?) : SameInput r s := by
  intro i hi
  rw [hlen] at hi
  have hloaded : Memory.read (loadBytes 0 bytes []) i = bytes[i]? := by
    simpa using read_loadBytes (i := 0) bytes [] hi
  rw [State.inValue, State.inValue, hin, hread i hi, hloaded, List.getElem?_eq_getElem hi]
  rfl

end

/-- Settles O55: the two runs start as twins and stay abreast. -/
theorem hiddenStateDoesNotLeak : Obligations.HiddenStateDoesNotLeak := by
  intro s h k t hp hhost hrun
  have htwin : Twin { s with hid := h } s { s with hid := h } := by
    rcases hp with hp | hp
    · exact .encInit hp
    · exact .decInit hp rfl
  rw [core_run_eq _ hhost] at hrun
  obtain ⟨t', hrun', habreast⟩ := htwin.run (fun _ _ => rfl) hrun
  have hcore : core.run k _ = coreRun k _ := core_run_eq (s := { s with hid := h }) k hhost
  exact ⟨t'.hid, hcore.trans (hrun'.trans (congrArg _ habreast.eq_with_hid))⟩

/-- Settles O57: the CORE is a twin of the one that runs the function. -/
theorem commandsComputeTheFunctions : Obligations.CommandsComputeTheFunctions := by
  constructor
  · intro s bytes hp hhost hlen hbuf hin hread
    rw [encodeOn_eq]
    have honto : onto s s.hid (encodeStart s.cfg bytes) = s :=
      onto_self rfl hin.symm hlen.symm hp.symm hbuf.symm
    have htwin := Twin.encInit (r := s) (s := encodeStart s.cfg bytes) rfl
    rw [honto] at htwin
    obtain ⟨t, hrun, hresult⟩ :=
      htwin.result (sameInput_of_read rfl rfl hread) (coding_encodeStart _ _) (Nat.le_refl _)
    exact ⟨t, (core_run_eq _ hhost).trans hrun, hresult⟩
  · intro s bytes hp hhost hlen hbuf hin hread
    rw [decodeOn_eq]
    have honto : onto s s.hid (decodeStart s.cfg bytes s.rows s.cols) = s :=
      onto_self rfl hin.symm hlen.symm hp.symm hbuf.symm
    have htwin := Twin.decInit (r := s) (s := decodeStart s.cfg bytes s.rows s.cols) rfl rfl
    rw [honto] at htwin
    obtain ⟨t, hrun, hresult⟩ :=
      htwin.result (sameInput_of_read rfl rfl hread) (coding_decodeStart _ _ _ _) (Nat.le_refl _)
    exact ⟨t, (core_run_eq _ hhost).trans hrun, hresult⟩

end Sys2Proof.Machine
end
